-- ==== Sys2Proof/Word.lean ====
section
/-! DEFINITION. The word types of the core, and the names the spec gives to its table classes, table
slots and component slots (spec/00_scope.md R11, R12, R15). -/

namespace Sys2Proof

/-- A register or bus word: all registers are 32 bits wide (R11). -/
abbrev Word := BitVec 32

/-- One byte of BS or OUT, a COUNT, SYMBOL or OFFSET entry, an error code (R61, R66, R67, R43). -/
abbrev Byte := BitVec 8

/-- A 16-bit entry: a coefficient, a quantization value, a predictor, an image dimension (R45, R60,
R62, R64). -/
abbrev Half := BitVec 16

/-- The 24-bit code of a Huffman slot (R61). -/
abbrev CodeWord := BitVec 24

/-- A table id `t`, 0..3 (R15). -/
abbrev TableId := Fin 4

/-- The Huffman table class `c`: 0 = DC, 1 = AC (R15). -/
inductive HuffClass where
  | dc
  | ac
  deriving DecidableEq, Repr

/-- The class as the bit `C` of a command word. -/
def HuffClass.bit : HuffClass → Bool
  | .dc => false
  | .ac => true

/-- The class a bit `C` names. -/
def HuffClass.ofBit : Bool → HuffClass
  | false => .dc
  | true => .ac

/-- A component slot: the component ids are 1, 2 and 3 (R11, R15). -/
inductive Comp where
  | c1
  | c2
  | c3
  deriving DecidableEq, Repr

/-- The place of a component among the three slots. -/
def Comp.idx : Comp → Fin 3
  | .c1 => 0
  | .c2 => 1
  | .c3 => 2

/-- The component id as a 2-bit number. -/
def Comp.bits : Comp → BitVec 2
  | .c1 => 1
  | .c2 => 2
  | .c3 => 3

/-- The component a 2-bit id names; 0 names none. -/
def Comp.ofBits (b : BitVec 2) : Option Comp :=
  if b = 1 then some .c1 else if b = 2 then some .c2 else if b = 3 then some .c3 else none

end Sys2Proof
end

