-- ==== Sys2Proof/Config.lean ====
section
/-! DEFINITION. The implementation parameters (spec/00_scope.md R11) and the free values: what the spec
leaves to "any value" (spec/93_implementation_defined.md I3, I4, I5). The free values have no body, so
nothing can be proved of their value. -/

namespace Sys2Proof

/-- The capacities of the two memories (R11). They are fixed for one core; State carries them so that a
statement about every state is one about every legal capacity (log entry 7). -/
structure Params where
  /-- `BS_BYTES`, the capacity of BS in bytes. -/
  bsBytes : Nat
  /-- `OUT_BYTES`, the capacity of OUT in bytes. -/
  outBytes : Nat
  deriving DecidableEq, Repr

/-- The default parameters of R11: 2^20 and 2^22. -/
def Params.default : Params := { bsBytes := 2 ^ 20, outBytes := 2 ^ 22 }

/-- The byte of BS at an index that nothing has written since power-on: one free draw per byte, stable
until written (R66, R700, 93 I3; log entry 3). -/
opaque Config.bsPowerOn : Nat → Byte

/-- The byte of OUT at an index that nothing has written since power-on (R67, R700, 93 I3; log entry 3). -/
opaque Config.outPowerOn : Nat → Byte

/-- The free 32-bit draw of a host read while BUSY = 1, applied to the number of draws so far (R107, 93
I4; log entry 4). -/
opaque Config.freeWord : Nat → Word

/-- The free draw of an OUT byte that an aborted RECON_MCU or RUN could have written, applied to the
number of draws so far (R705, 93 I5; log entry 5). -/
opaque Config.freeByte : Nat → Byte

end Sys2Proof
end

