-- ==== Sys2Proof/Syntax.lean ====
section
/-! DEFINITION. The eight commands, one constructor per row of spec/opcode_table.json (spec/30_encoding.md
R143). The operand types admit exactly the legal operands: a table id 0..3 and a class (R142). -/

namespace Sys2Proof

/-- A command the host writes to CMD. -/
inductive Instr where
  /-- `NOP` (R500). -/
  | nop
  /-- `RESET` (R501). -/
  | reset
  /-- `SET_QT t` (R202). -/
  | setQt (t : TableId)
  /-- `BUILD_HT c, t` (R206). -/
  | buildHt (c : HuffClass) (t : TableId)
  /-- `START_SCAN` (R312). -/
  | startScan
  /-- `DECODE_MCU` (R313). -/
  | decodeMcu
  /-- `RECON_MCU` (R413). -/
  | reconMcu
  /-- `RUN` (R503). -/
  | run
  deriving DecidableEq, Repr

end Sys2Proof
end

