-- ==== Sys2Proof/WellFormed.lean ====
section
/-! DEFINITION. What is well formed: the parameters (spec/00_scope.md R11), a command word field by field
(spec/30_encoding.md R141, R144) and an instruction. A table id and a class are legal by their types, so
every `Instr` term is well formed; the checks that can fail are those of the parameters and of the raw
command word. -/

namespace Sys2Proof

/-- `BS_BYTES`: a multiple of 4 with 4 ≤ BS_BYTES ≤ 2^24 (R11). -/
def Params.bsLegal (p : Params) : Bool :=
  p.bsBytes % 4 == 0 && decide (4 ≤ p.bsBytes) && decide (p.bsBytes ≤ 2 ^ 24)

/-- `OUT_BYTES`: a multiple of 4 with 192 ≤ OUT_BYTES ≤ 2^24 (R11). -/
def Params.outLegal (p : Params) : Bool :=
  p.outBytes % 4 == 0 && decide (192 ≤ p.outBytes) && decide (p.outBytes ≤ 2 ^ 24)

/-- Both capacities are legal (R11). -/
def Params.legal (p : Params) : Bool := p.bsLegal && p.outLegal

/-- The opcode field `OP`, bits [7:0] (R141). -/
def Word.op (w : Word) : BitVec 8 := w.extractLsb' 0 8

/-- The table id field `T`, bits [9:8] (R141). -/
def Word.tField (w : Word) : BitVec 2 := w.extractLsb' 8 2

/-- The class field `C`, bit 12 (R141). -/
def Word.cField (w : Word) : Bool := w.getLsbD 12

/-- The two reserved fields, bits [11:10] and [31:13], are zero (R141). -/
def Word.reservedZero (w : Word) : Bool :=
  w.extractLsb' 10 2 == 0 && w.extractLsb' 13 19 == 0

/-- The field `T` is zero unless the opcode is that of SET_QT or BUILD_HT (R141). -/
def Word.tLegal (w : Word) : Bool :=
  w.tField == 0 || w.op == 2 || w.op == 3

/-- The field `C` is zero unless the opcode is that of BUILD_HT (R141). -/
def Word.cLegal (w : Word) : Bool :=
  !w.cField || w.op == 3

/-- A command word is legal, read field by field from R141 and R144: a known opcode, the reserved bits
zero, and T and C zero where the opcode does not use them. -/
def Word.legal (w : Word) : Bool :=
  decide (w.op.toNat ≤ 7) && w.reservedZero && w.tLegal && w.cLegal

/-- Every instruction term is well formed: its operand types hold the legal operands only (R142). -/
def Instr.wf (i : Instr) : Bool :=
  match i with
  | .nop => true
  | .reset => true
  | .setQt t => decide (t.val < 4)
  | .buildHt _ t => decide (t.val < 4)
  | .startScan => true
  | .decodeMcu => true
  | .reconMcu => true
  | .run => true

end Sys2Proof
end

