-- ==== Sys2Proof/Decode.lean ====
section
/-! DEFINITION. The decoder of a command word, row by row of the opcode table (spec/30_encoding.md R143,
R144), and the encoder (R141, R142, R145). -/

namespace Sys2Proof

/-- Why a word is illegal (R144). Both raise ILLEGAL_CMD. -/
inductive IllegalWord where
  /-- OP is in 0x08..0xFF. -/
  | reservedOpcode
  /-- OP is in 0x00..0x07, and a reserved bit is 1, or T or C is nonzero where the opcode does not use
  it. -/
  | reservedBits
  deriving DecidableEq, Repr

/-- One row of R143: a word selects it when `word AND mask = match`. -/
structure OpcodeRow where
  pattern : Word
  mask : Word
  instr : Word → Instr

/-- The table id operand `t = word[9:8]` (R142). -/
def operandT (w : Word) : TableId := w.tField.toFin

/-- The class operand `c = word[12]` (R142). -/
def operandC (w : Word) : HuffClass := HuffClass.ofBit w.cField

/-- The table of R143. -/
def opcodeTable : List OpcodeRow :=
  [ { pattern := 0x00000000#32, mask := 0xFFFFFFFF#32, instr := fun _ => .nop },
    { pattern := 0x00000001#32, mask := 0xFFFFFFFF#32, instr := fun _ => .reset },
    { pattern := 0x00000002#32, mask := 0xFFFFFCFF#32, instr := fun w => .setQt (operandT w) },
    { pattern := 0x00000003#32, mask := 0xFFFFECFF#32,
      instr := fun w => .buildHt (operandC w) (operandT w) },
    { pattern := 0x00000004#32, mask := 0xFFFFFFFF#32, instr := fun _ => .startScan },
    { pattern := 0x00000005#32, mask := 0xFFFFFFFF#32, instr := fun _ => .decodeMcu },
    { pattern := 0x00000006#32, mask := 0xFFFFFFFF#32, instr := fun _ => .reconMcu },
    { pattern := 0x00000007#32, mask := 0xFFFFFFFF#32, instr := fun _ => .run } ]

/-- A word selects a row when `(word AND mask) = match` (R143). -/
def OpcodeRow.selects (r : OpcodeRow) (w : Word) : Bool := w &&& r.mask == r.pattern

/-- The instruction of a command word, or why the word is illegal (R143, R144). -/
def decode (w : Word) : Except IllegalWord Instr :=
  match opcodeTable.find? (fun r => r.selects w) with
  | some r => .ok (r.instr w)
  | none => if w.op.toNat ≤ 7 then .error .reservedBits else .error .reservedOpcode

/-- The fields `OP`, `T` and `C` placed in a word, every other bit zero (R141). -/
def commandWord (op : BitVec 8) (c : Bool) (t : TableId) : Word :=
  (0#19 ++ BitVec.ofBool c ++ 0#2 ++ BitVec.ofFin (w := 2) t ++ op : BitVec (19 + 1 + 2 + 2 + 8))

/-- The command word of an instruction (R145). -/
def encode (i : Instr) : Word :=
  match i with
  | .nop => commandWord 0x00 false 0
  | .reset => commandWord 0x01 false 0
  | .setQt t => commandWord 0x02 false t
  | .buildHt c t => commandWord 0x03 c.bit t
  | .startScan => commandWord 0x04 false 0
  | .decodeMcu => commandWord 0x05 false 0
  | .reconMcu => commandWord 0x06 false 0
  | .run => commandWord 0x07 false 0

/-- A command as a host program writes it (R145). -/
def assembly (i : Instr) : String :=
  match i with
  | .nop => "NOP"
  | .reset => "RESET"
  | .setQt t => "SET_QT " ++ toString t.val
  | .buildHt .dc t => "BUILD_HT dc, " ++ toString t.val
  | .buildHt .ac t => "BUILD_HT ac, " ++ toString t.val
  | .startScan => "START_SCAN"
  | .decodeMcu => "DECODE_MCU"
  | .reconMcu => "RECON_MCU"
  | .run => "RUN"

/-- Every instruction term, in the table's order. -/
def allInstrs : List Instr :=
  [.nop, .reset] ++ (List.finRange 4).map .setQt ++ (List.finRange 4).map (.buildHt .dc) ++
    (List.finRange 4).map (.buildHt .ac) ++ [.startScan, .decodeMcu, .reconMcu, .run]

/-- The command word of a written command, if it is one (R145). -/
def assemble (text : String) : Option Word :=
  (allInstrs.find? (fun i => assembly i == text)).map encode

/-- The instruction the decoder reads from a table word: one 32-bit word, the bits at and above `nbits`
zero. -/
def decodeTableWord (nbits w : Nat) : Option Instr :=
  match decode (BitVec.ofNat 32 (w % 2 ^ nbits)) with
  | .ok i => some i
  | .error _ => none

end Sys2Proof
end

