-- ==== Sys2Proof/Machine/State.lean ====
section
/-! DEFINITION. The state of the core (spec/10_state.md R40 to R68), of the reset input (spec/
70_reset_and_hazards.md R700, R701) and of the host that drives it (spec/00_scope.md R10, spec/
30_encoding.md R146), the reasons a step can stop, and the state after reset. -/

namespace Sys2Proof.Machine

/-- Why the machine stops with a fault. The spec gives the engine no access to anything that does not
exist (R113), and no state that meets `State.Inv` reaches one of these: each stands for a use of a number
that names nothing, which only a state no run reaches could ask for (log entry 9). -/
inductive Fault where
  /-- The engine reads BS at an index at or above BS_BYTES. Raised by `readBit`. Safe. -/
  | bsAddress
  /-- The engine writes OUT at an index at or above OUT_BYTES. Raised by `outWrite`. Safe. -/
  | outAddress
  /-- A decode or a reconstruction uses component id 0, or a plane that is not in the scan. Raised by
  `decodeBlocks` and `reconMcuBody`. Safe. -/
  | noComponent
  /-- A Huffman slot at or above 162 is searched. Raised by `searchSlots`. Safe. -/
  | noSlot
  /-- A reconstruction divides by MCU_COLS = 0. Raised by `reconMcuBody`. Safe. -/
  | zeroColumns
  deriving DecidableEq, Repr

/-- Why an instruction is refused. No instruction of this core is. -/
inductive Refusal where
  /-- The instruction has no meaning yet. Raised by no arm of `exec`. Safe. -/
  | notModelled (mnemonic : String)
  deriving DecidableEq, Repr

/-- CTRL's fields (R42). -/
structure Ctrl where
  /-- bit 0, `IRQ_DONE_EN`. -/
  irqDoneEn : Bool
  /-- bit 1, `IRQ_ERR_EN`. -/
  irqErrEn : Bool
  /-- bit 2, `RST_ALIGN`. -/
  rstAlign : Bool
  deriving DecidableEq, Repr

/-- The fields of COMP1_CFG, COMP2_CFG or COMP3_CFG (R47). -/
structure CompCfg where
  /-- bits [1:0], `QT_ID`. -/
  qtId : TableId
  /-- bits [5:4], `DC_ID`. -/
  dcId : TableId
  /-- bits [9:8], `AC_ID`. -/
  acId : TableId
  deriving DecidableEq, Repr

/-- SCAN_CFG's fields (R48). -/
structure ScanCfg where
  /-- bits [2:0], `SCAN_N`. -/
  n : BitVec 3
  /-- bits [5:4], `SCAN_ID0`. -/
  id0 : BitVec 2
  /-- bits [9:8], `SCAN_ID1`. -/
  id1 : BitVec 2
  /-- bits [13:12], `SCAN_ID2`. -/
  id2 : BitVec 2
  deriving DecidableEq, Repr

/-- One quantization table in natural order, with its set flag (R56, R60). -/
structure QuantTable where
  entry : Vector Half 64
  set : Bool
  deriving DecidableEq, Repr

/-- One Huffman table with its set flag (R56, R61). `COUNT[L]` is `count[L - 1]`. -/
structure HuffTable where
  count : Vector Byte 16
  symbol : Vector Byte 162
  offset : Vector Byte 17
  code : Vector CodeWord 162
  set : Bool
  deriving DecidableEq, Repr

/-- An accepted command whose effect has not yet been applied (R65, R504). -/
structure Latch where
  /-- The command word. -/
  word : Word
  /-- CTRL.RST_ALIGN as sampled at acceptance (R505). -/
  rstAlign : Bool
  /-- The steps left before the command completes (LAT, R720; log entry 2). -/
  delay : Nat
  deriving DecidableEq, Repr

/-- What the host, or the outside of the core, does next: the statements of a host program (R146), a
bus access of any width (R100), and the reset input (R700). `CMD <mnemonic>` is a `wr` to CMD. -/
inductive HostStmt where
  /-- `WR <addr>, <v>`: one `MemWrite(addr, 4, v)`. -/
  | wr (addr : Nat) (v : Word)
  /-- `RD <addr> -> <name>`: one `MemRead(addr, 4)`. -/
  | rd (addr : Nat) (name : String)
  /-- `WAIT`: read STATUS until BUSY is 0. -/
  | wait
  /-- One `MemRead(addr, width)` of any width in bytes. -/
  | readAccess (addr : Nat) (width : Nat)
  /-- One `MemWrite(addr, width, v)` of any width in bytes. -/
  | writeAccess (addr : Nat) (width : Nat) (v : Word)
  /-- The hardware reset input is asserted (`true`) or released (`false`). -/
  | resetPin (level : Bool)
  deriving DecidableEq, Repr

/-- What a bus transaction answers (R100). -/
inductive BusResponse where
  /-- A read completes with data. -/
  | data (v : Word)
  /-- A write completes. -/
  | completed
  /-- A bus error. -/
  | busError
  deriving DecidableEq, Repr

/-- Everything the spec gives the core, the reset input, and the host's side of the port. Views of one
piece of state under a second name are computed: BUSY, STATUS, BIT_POS, PRED1 to PRED3, TABLE_SET and
MCU_GEOM (log entry 10). -/
structure State where
  /-- BS_BYTES and OUT_BYTES, read at PARAM_BS and PARAM_OUT (R11, R59). -/
  params : Params
  /-- CTRL (R42). -/
  ctrl : Ctrl
  /-- STATUS.DONE (R43). -/
  done : Bool
  /-- STATUS.ERR (R43). -/
  err : Bool
  /-- STATUS.HOST_VIOL (R43). -/
  hostViol : Bool
  /-- STATUS.SCAN_ACTIVE (R43). -/
  scanActive : Bool
  /-- STATUS.MCU_PENDING (R43). -/
  mcuPending : Bool
  /-- STATUS.ERR_CODE (R43). -/
  errCode : Byte
  /-- FRAME_SIZE.WIDTH (R45). -/
  width : Half
  /-- FRAME_SIZE.HEIGHT (R45). -/
  height : Half
  /-- FRAME_NCOMP.NCOMP (R46). -/
  ncomp : BitVec 3
  /-- COMP1_CFG, COMP2_CFG and COMP3_CFG (R47). -/
  compCfg : Vector CompCfg 3
  /-- SCAN_CFG (R48). -/
  scanCfg : ScanCfg
  /-- RESTART.RESTART_INTERVAL (R49). -/
  restart : Half
  /-- BS_LEN (R50). -/
  bsLen : Word
  /-- MCU_IDX (R51). -/
  mcuIdx : Word
  /-- MCU_TOTAL (R52). -/
  mcuTotal : Word
  /-- MCU_GEOM.MCU_COLS (R53). -/
  mcuCols : Half
  /-- MCU_GEOM.MCU_ROWS (R53). -/
  mcuRows : Half
  /-- BYTE_IDX of the bit cursor (R63; log entry 21). -/
  byteIdx : Nat
  /-- BIT_OFF of the bit cursor (R63). -/
  bitOff : Fin 8
  /-- PRED[1], PRED[2] and PRED[3] (R64). -/
  pred : Vector Half 3
  /-- ERR_MCU (R57). -/
  errMcu : Word
  /-- ERR_BITPOS (R57). -/
  errBitPos : Word
  /-- ERR_COMP (R57). -/
  errComp : BitVec 2
  /-- LAST_MCU (R58). -/
  lastMcu : Word
  /-- The quantization tables QT[t] (R60). -/
  qt : Vector QuantTable 4
  /-- The DC Huffman tables HT[0][t] (R61). -/
  dcHt : Vector HuffTable 4
  /-- The AC Huffman tables HT[1][t] (R61). -/
  acHt : Vector HuffTable 4
  /-- The coefficient buffer COEF[id] (R62). -/
  coef : Vector (Vector Half 64) 3
  /-- The command latch; BUSY is 1 exactly when it is not empty (R65). -/
  latch : Option Latch
  /-- BS: the bytes written since power-on, by index (R66; log entry 3). -/
  bs : List Host.Cell
  /-- OUT: the bytes written since power-on, by index (R67; log entry 3). -/
  out : List Host.Cell
  /-- The hardware reset input is asserted (R701; log entry 25). -/
  resetIn : Bool
  /-- The host statements still to come (R146; log entry 1). -/
  program : List HostStmt
  /-- The answers the bus gave, newest first (R100; log entry 1). -/
  responses : List BusResponse
  /-- The names bound by `RD`, newest first (R146; log entry 1). -/
  bindings : List (String × Word)
  /-- The latencies of the commands still to be accepted (R720; log entry 2). -/
  delays : List Nat
  /-- How many free values have been drawn (log entry 6). -/
  draws : Nat
  deriving DecidableEq, Repr

/-- A Huffman table after reset: every entry of every field 0, not set (R700). -/
def HuffTable.reset : HuffTable :=
  { count := Vector.replicate 16 0, symbol := Vector.replicate 162 0, offset := Vector.replicate 17 0,
    code := Vector.replicate 162 0, set := false }

/-- A quantization table after reset: every entry 0, not set (R700). -/
def QuantTable.reset : QuantTable := { entry := Vector.replicate 64 0, set := false }

/-- The state right after reset (R700), the reset input released, at the default parameters (R11), with
nothing written to BS and OUT and no host statement to come. -/
def State.reset : State :=
  { params := Params.default
    ctrl := { irqDoneEn := false, irqErrEn := false, rstAlign := false }
    done := false
    err := false
    hostViol := false
    scanActive := false
    mcuPending := false
    errCode := 0
    width := 0
    height := 0
    ncomp := 0
    compCfg := Vector.replicate 3 { qtId := 0, dcId := 0, acId := 0 }
    scanCfg := { n := 0, id0 := 0, id1 := 0, id2 := 0 }
    restart := 0
    bsLen := 0
    mcuIdx := 0
    mcuTotal := 0
    mcuCols := 0
    mcuRows := 0
    byteIdx := 0
    bitOff := 0
    pred := Vector.replicate 3 0
    errMcu := 0
    errBitPos := 0
    errComp := 0
    lastMcu := 0
    qt := Vector.replicate 4 QuantTable.reset
    dcHt := Vector.replicate 4 HuffTable.reset
    acHt := Vector.replicate 4 HuffTable.reset
    coef := Vector.replicate 3 (Vector.replicate 64 0)
    latch := none
    bs := []
    out := []
    resetIn := false
    program := []
    responses := []
    bindings := []
    delays := []
    draws := 0 }

end Sys2Proof.Machine
end

