-- ==== Sys2Proof/Machine/Ops.lean ====
section
/-! DEFINITION. The shared operations: bytes of memory, the cursor's position, the error entry (spec/
60_exceptions.md R600 to R604), completion and acceptance (spec/43_control.md R504), reset (spec/
70_reset_and_hazards.md R700), and the results of the engine's sub-steps. -/

namespace Sys2Proof.Machine

/-! ## Bytes of a memory

A memory is the list of the bytes written since power-on, by strictly rising index. An index that is not
listed holds no value of the model's; what reading it gives is the power-on draw (log entry 3). -/

/-- The byte a memory lists at an index, if any. -/
def memRead (m : List Host.Cell) (a : Nat) : Option Byte :=
  match m with
  | [] => none
  | (b, v) :: rest => if a = b then some v else memRead rest a

/-- The memory with the byte at an index written. -/
def memWrite (m : List Host.Cell) (a : Nat) (v : Byte) : List Host.Cell :=
  match m with
  | [] => [(a, v)]
  | (b, u) :: rest =>
    if a < b then (a, v) :: (b, u) :: rest
    else if a = b then (a, v) :: rest
    else (b, u) :: memWrite rest a v

/-- Every index listed is at least `lo`, in strictly rising order. -/
def memFrom (lo : Nat) (m : List Host.Cell) : Bool :=
  match m with
  | [] => true
  | (b, _) :: rest => decide (lo ≤ b) && memFrom (b + 1) rest

/-- The canonical form of a memory: indexes strictly rising, each below the capacity. An unlisted index
reads as no value, so no entry equals what an unlisted index reads as. -/
def memWf (capacity : Nat) (m : List Host.Cell) : Bool :=
  memFrom 0 m && m.all (fun c => decide (c.1 < capacity))

/-- `BSByte(a)` and the byte a host read of BS sees: the byte written, or the power-on draw (R66). -/
def State.bsByte (s : State) (a : Nat) : Byte := (memRead s.bs a).getD (Config.bsPowerOn a)

/-- The byte of OUT at an index: the byte written, or the power-on draw (R67). -/
def State.outByte (s : State) (a : Nat) : Byte := (memRead s.out a).getD (Config.outPowerOn a)

/-! ## Views -/

/-- STATUS.BUSY: the latch is not empty (R65). -/
def State.busy (s : State) : Bool := s.latch.isSome

/-- BIT_POS: `8*BYTE_IDX + BIT_OFF` (R54). -/
def State.bitPos (s : State) : Word := BitVec.ofNat 32 (8 * s.byteIdx + s.bitOff.val)

/-- CTRL.RST_ALIGN as a command uses it: the value sampled into the latch at acceptance, and with an
empty latch the value that would be sampled now (R505; log entry 12). -/
def State.sampledAlign (s : State) : Bool :=
  match s.latch with
  | some l => l.rstAlign
  | none => s.ctrl.rstAlign

/-! ## Errors and results -/

/-- The error codes of R601. -/
inductive ErrCode where
  | illegalCmd
  | htOverflow
  | badDimensions
  | badNcomp
  | badScan
  | qtNotSet
  | dcNotSet
  | acNotSet
  | bsLenRange
  | outTooSmall
  | sequence
  | bsExhausted
  | huffNoMatch
  | dcCategory
  | acOverrun
  deriving DecidableEq, Repr

/-- The number of an error code in STATUS.ERR_CODE (R601). -/
def errorByte (c : ErrCode) : Byte :=
  match c with
  | .illegalCmd => 0x01
  | .htOverflow => 0x02
  | .badDimensions => 0x03
  | .badNcomp => 0x04
  | .badScan => 0x05
  | .qtNotSet => 0x06
  | .dcNotSet => 0x07
  | .acNotSet => 0x08
  | .bsLenRange => 0x09
  | .outTooSmall => 0x0A
  | .sequence => 0x0B
  | .bsExhausted => 0x10
  | .huffNoMatch => 0x11
  | .dcCategory => 0x12
  | .acOverrun => 0x13

/-- The numbers of the error codes; 0x00 is "no error" (R601). -/
def errorBytes : List Byte :=
  [0x01, 0x02, 0x03, 0x04, 0x05, 0x06, 0x07, 0x08, 0x09, 0x0A, 0x0B, 0x10, 0x11, 0x12, 0x13]

/-- Why a sub-step of a command stops: `Error(code, comp)` (R600), or a model fault. -/
inductive Stop where
  | error (code : ErrCode) (comp : BitVec 2)
  | fault (f : Fault)
  deriving DecidableEq, Repr

/-- The result of a sub-step of a command: a value, or a stop; either way the state it leaves, since
what was done before an error stays done (R603). -/
inductive Res (α : Type) where
  | done (a : α) (s : State)
  | stop (e : Stop) (s : State)
  deriving DecidableEq, Repr

/-- One sub-step after another: the second runs only if the first did not stop (R600). -/
def Res.andThen {α β : Type} (r : Res α) (f : α → State → Res β) : Res β :=
  match r with
  | .done a s => f a s
  | .stop e s => .stop e s

/-- The state a sub-step leaves. -/
def Res.state {α : Type} (r : Res α) : State :=
  match r with
  | .done _ s => s
  | .stop _ s => s

/-- Completion of a command: the latch empties, so BUSY falls, and DONE rises (R504). -/
def complete (s : State) : State := { s with latch := none, done := true }

/-- Error entry, applied at completion (R603). -/
def errorEntry (code : ErrCode) (comp : BitVec 2) (s : State) : State :=
  { s with
    err := true
    errCode := errorByte code
    errMcu := s.mcuIdx
    errBitPos := s.bitPos
    errComp := comp
    latch := none
    done := true }

/-- A command's whole effect as one transition: completion, the error entry, or a model fault. -/
def conclude (r : Res Unit) : Host.Outcome State Fault Refusal :=
  match r with
  | .done _ s => .next (complete s)
  | .stop (.error code comp) s => .next (errorEntry code comp s)
  | .stop (.fault f) _ => .fault f

/-- The frozen check every command but RESET begins with: while ERR = 1 it completes as a no-op (R604). -/
def unlessFrozen (body : State → Res Unit) (s : State) : Host.Outcome State Fault Refusal :=
  if s.err then .next (complete s) else conclude (body s)

/-! ## Acceptance and reset -/

/-- Acceptance: the latch takes the word and samples CTRL.RST_ALIGN, BUSY rises and DONE falls (R504). -/
def latchCommand (w : Word) (delay : Nat) (s : State) : State :=
  { s with latch := some { word := w, rstAlign := s.ctrl.rstAlign, delay := delay }, done := false }

/-- The reset state of R700 for this core: its parameters, BS and OUT stay, and so does what is not the
core's (the reset input, the host's program and what it saw). -/
def resetState (s : State) : State :=
  { State.reset with
    params := s.params
    bs := s.bs
    out := s.out
    resetIn := s.resetIn
    program := s.program
    responses := s.responses
    bindings := s.bindings
    delays := s.delays
    draws := s.draws }

/-- Each listed OUT byte takes a free draw of its own (R705; log entry 5). -/
def drawOutBytes (addrs : List Nat) (s : State) : State :=
  match addrs with
  | [] => s
  | a :: rest =>
    drawOutBytes rest
      { s with out := memWrite s.out a (Config.freeByte s.draws), draws := s.draws + 1 }

/-! ## The engine's accesses to the memories (R113) -/

/-- `BSByte(a)` at an index of BS; an index BS does not have is a model fault. -/
def bsFetch (a : Nat) (s : State) : Res Byte :=
  if a < s.params.bsBytes then .done (s.bsByte a) s else .stop (.fault .bsAddress) s

/-- `OutWrite(a, v)` at an index of OUT; an index OUT does not have is a model fault. -/
def outWrite (a : Nat) (v : Byte) (s : State) : Res Unit :=
  if a < s.params.outBytes then .done () { s with out := memWrite s.out a v }
  else .stop (.fault .outAddress) s

end Sys2Proof.Machine
end

