-- ==== Sys2Proof/Machine/Operands.lean ====
section
/-! DEFINITION. The operands of the commands: arithmetic operators (spec/00_scope.md R13), the zigzag map
(spec/42_reconstruction.md R402), the scan's components, the tables a component is bound to, and the
fields of the configuration registers as words (spec/10_state.md R41 to R59). -/

namespace Sys2Proof.Machine

/-! ## Arithmetic (R13) -/

/-- `wrap16(v)`: the 16-bit two's complement value congruent to `v` modulo 2^16. -/
def wrap16 (v : Int) : Half := BitVec.ofInt 16 v

/-- `clamp8(v)`: 0 below 0, 255 above 255, else `v`. -/
def clamp8 (v : Int) : Byte :=
  if v < 0 then 0 else if 255 < v then 255 else BitVec.ofInt 8 v

/-- `ceil8(v)`: `(v + 7) div 8`. -/
def ceil8 (v : Nat) : Nat := (v + 7) / 8

/-- Arithmetic right shift, `floor(a / 2^n)`. -/
def floorShift (a : Int) (n : Nat) : Int := a >>> n

/-! ## The zigzag map (R402) -/

/-- The natural index of each zigzag position. -/
def zigzagTable : Vector (Fin 64) 64 :=
  #v[0, 1, 8, 16, 9, 2, 3, 10, 17, 24, 32, 25, 18, 11, 4, 5,
     12, 19, 26, 33, 40, 48, 41, 34, 27, 20, 13, 6, 7, 14, 21, 28,
     35, 42, 49, 56, 57, 50, 43, 36, 29, 22, 15, 23, 30, 37, 44, 51,
     58, 59, 52, 45, 38, 31, 39, 46, 53, 60, 61, 54, 47, 55, 62, 63]

/-- `ZZ[k]`, the natural index of zigzag position `k`. -/
def zz (k : Fin 64) : Fin 64 := zigzagTable[k]

/-! ## Tables, coefficients and predictors -/

/-- The Huffman table (c, t) (R61). -/
def State.huff (s : State) (c : HuffClass) (t : TableId) : HuffTable :=
  match c with
  | .dc => s.dcHt[t]
  | .ac => s.acHt[t]

/-- The state with the Huffman table (c, t) replaced. -/
def State.withHuff (s : State) (c : HuffClass) (t : TableId) (h : HuffTable) : State :=
  match c with
  | .dc => { s with dcHt := s.dcHt.set t h }
  | .ac => { s with acHt := s.acHt.set t h }

/-- The state with the quantization table t replaced. -/
def State.withQt (s : State) (t : TableId) (q : QuantTable) : State :=
  { s with qt := s.qt.set t q }

/-- COMPid_CFG of a component (R47). -/
def State.cfg (s : State) (c : Comp) : CompCfg := s.compCfg[c.idx]

/-- `COEF[id]`, the coefficient block of a component (R62). -/
def State.block (s : State) (c : Comp) : Vector Half 64 := s.coef[c.idx]

/-- `COEF[id][i] <- v`. -/
def State.withCoef (s : State) (c : Comp) (i : Fin 64) (v : Half) : State :=
  { s with coef := s.coef.set c.idx (s.coef[c.idx].set i v) }

/-- `COEF[id][i] <- 0` for every `i`. -/
def State.withZeroBlock (s : State) (c : Comp) : State :=
  { s with coef := s.coef.set c.idx (Vector.replicate 64 0) }

/-- `PRED[id]` (R64). -/
def State.predOf (s : State) (c : Comp) : Half := s.pred[c.idx]

/-- `PRED[id] <- v`. -/
def State.withPred (s : State) (c : Comp) (v : Half) : State :=
  { s with pred := s.pred.set c.idx v }

/-- The quantization values a component is bound to, `QT[COMPid_CFG.QT_ID]`. -/
def State.quantOf (s : State) (c : Comp) : Vector Half 64 := s.qt[(s.cfg c).qtId].entry

/-! ## The scan's components (R48, R312) -/

/-- `[SCAN_ID0, SCAN_ID1, SCAN_ID2]` truncated to length SCAN_N (R312). -/
def scanIds (c : ScanCfg) : List (BitVec 2) := [c.id0, c.id1, c.id2].take c.n.toNat

/-- No id is 0 and no two are equal (R312). -/
def scanIdsDistinct (ids : List (BitVec 2)) : Bool :=
  decide ((0 : BitVec 2) ∉ ids) && decide ids.Nodup

/-! ## Register words

A register's word is its fields with the reserved bits 0, and a write takes the word's fields and drops
the reserved bits (10_state.md section 2, 20_memory.md R106). -/

/-- The word of CTRL (R42). -/
def ctrlWord (c : Ctrl) : Word :=
  (0#29 ++ BitVec.ofBool c.rstAlign ++ BitVec.ofBool c.irqErrEn ++ BitVec.ofBool c.irqDoneEn :
    BitVec (29 + 1 + 1 + 1))

/-- The fields of a word written to CTRL (R42). -/
def ctrlOfWord (v : Word) : Ctrl :=
  { irqDoneEn := v.getLsbD 0, irqErrEn := v.getLsbD 1, rstAlign := v.getLsbD 2 }

/-- The word of FRAME_SIZE (R45). -/
def frameSizeWord (s : State) : Word := (s.height ++ s.width : BitVec (16 + 16))

/-- The word of FRAME_NCOMP (R46). -/
def frameNcompWord (s : State) : Word := s.ncomp.setWidth 32

/-- The word of a COMPid_CFG (R47). -/
def compCfgWord (c : CompCfg) : Word :=
  (0#22 ++ BitVec.ofFin (w := 2) c.acId ++ 0#2 ++ BitVec.ofFin (w := 2) c.dcId ++ 0#2 ++
    BitVec.ofFin (w := 2) c.qtId : BitVec (22 + 2 + 2 + 2 + 2 + 2))

/-- The fields of a word written to a COMPid_CFG (R47). -/
def compCfgOfWord (v : Word) : CompCfg :=
  { qtId := (v.extractLsb' 0 2).toFin
    dcId := (v.extractLsb' 4 2).toFin
    acId := (v.extractLsb' 8 2).toFin }

/-- The word of SCAN_CFG (R48). -/
def scanCfgWord (c : ScanCfg) : Word :=
  (0#18 ++ c.id2 ++ 0#2 ++ c.id1 ++ 0#2 ++ c.id0 ++ 0#1 ++ c.n :
    BitVec (18 + 2 + 2 + 2 + 2 + 2 + 1 + 3))

/-- The fields of a word written to SCAN_CFG (R48). -/
def scanCfgOfWord (v : Word) : ScanCfg :=
  { n := v.extractLsb' 0 3, id0 := v.extractLsb' 4 2, id1 := v.extractLsb' 8 2, id2 := v.extractLsb' 12 2 }

/-- The word of MCU_GEOM (R53). -/
def mcuGeomWord (s : State) : Word := (s.mcuRows ++ s.mcuCols : BitVec (16 + 16))

/-- The word of PREDid: `sext_16(PRED[id])` (R55). -/
def predWord (s : State) (c : Comp) : Word := (s.predOf c).signExtend 32

/-- `COMPid_CFG <- v`. -/
def State.withCfg (s : State) (c : Comp) (v : CompCfg) : State :=
  { s with compCfg := s.compCfg.set c.idx v }

end Sys2Proof.Machine
end

