-- ==== Sys2Proof/Machine/Flags.lean ====
section
/-! DEFINITION. The flags as the host sees them: STATUS and its write-1-to-clear bits (spec/10_state.md
R43, R68), TABLE_SET (R56), and the interrupt output (spec/60_exceptions.md R620). -/

namespace Sys2Proof.Machine

/-- The word of STATUS (R43). -/
def statusWord (s : State) : Word :=
  (0#16 ++ s.errCode ++ 0#2 ++ BitVec.ofBool s.mcuPending ++ BitVec.ofBool s.scanActive ++
    BitVec.ofBool s.hostViol ++ BitVec.ofBool s.err ++ BitVec.ofBool s.done ++ BitVec.ofBool s.busy :
    BitVec (16 + 8 + 2 + 1 + 1 + 1 + 1 + 1 + 1))

/-- A host write of STATUS: writing 1 to DONE or to HOST_VIOL clears it (R43, R106). -/
def writeStatus (v : Word) (s : State) : State :=
  { s with done := s.done && !v.getLsbD 1, hostViol := s.hostViol && !v.getLsbD 3 }

/-- Four set flags as the bits of a field, table 0 in the least significant bit (R56). -/
def flagBits (f : TableId → Bool) : BitVec 4 :=
  (BitVec.ofBool (f 3) ++ BitVec.ofBool (f 2) ++ BitVec.ofBool (f 1) ++ BitVec.ofBool (f 0) :
    BitVec (1 + 1 + 1 + 1))

/-- `QT_SET[t]` (R56). -/
def State.qtSet (s : State) (t : TableId) : Bool := s.qt[t].set

/-- `HT_SET[c][t]`: DC_SET[t] or AC_SET[t] (R56, R109). -/
def State.htSet (s : State) (c : HuffClass) (t : TableId) : Bool := (s.huff c t).set

/-- The word of TABLE_SET (R56). -/
def tableSetWord (s : State) : Word :=
  (0#20 ++ flagBits (s.htSet .ac) ++ flagBits (s.htSet .dc) ++ flagBits s.qtSet :
    BitVec (20 + 4 + 4 + 4))

/-- The interrupt output (R620). -/
def State.irq (s : State) : Bool := (s.ctrl.irqDoneEn && s.done) || (s.ctrl.irqErrEn && s.err)

/-- The host breaks an access rule: HOST_VIOL is set and nothing else happens (R606). -/
def hostViolation (s : State) : State := { s with hostViol := true }

end Sys2Proof.Machine
end

