-- ==== Sys2Proof/Machine/Entropy.lean ====
section
/-! DEFINITION. The entropy decoder: the bit reader, Huffman decoding, DC and AC decoding, START_SCAN and
DECODE_MCU (spec/41_entropy.md). -/

namespace Sys2Proof.Machine

/-! ## The bit reader (R300 to R303) -/

/-- The cursor moved past one bit (R300). -/
def advanceBit (s : State) : State :=
  if s.bitOff = 7 then { s with bitOff := 0, byteIdx := s.byteIdx + 1 }
  else { s with bitOff := s.bitOff + 1 }

/-- `ReadBit()` for the block of component `comp` (R300, R301). -/
def readBit (comp : BitVec 2) (s : State) : Res Bool :=
  if s.bsLen.toNat ≤ s.byteIdx then .stop (.error .bsExhausted comp) s
  else (bsFetch s.byteIdx s).andThen fun b t => .done (b.getLsbD (7 - t.bitOff.val)) (advanceBit t)

/-- The bits of a field read after `v`, most significant first (R302). -/
def readBitsFrom (comp : BitVec 2) (n : Nat) (v : Nat) (s : State) : Res Nat :=
  match n with
  | 0 => .done v s
  | m + 1 => (readBit comp s).andThen fun b t => readBitsFrom comp m (2 * v + b.toNat) t

/-- `ReadBits(n)` (R302). -/
def readBits (comp : BitVec 2) (n : Nat) (s : State) : Res Nat := readBitsFrom comp n 0 s

/-- `Align()`: discard the unread bits of a partly consumed byte (R303). -/
def alignCursor (s : State) : State :=
  if s.bitOff = 0 then s else { s with bitOff := 0, byteIdx := s.byteIdx + 1 }

/-! ## Magnitude fields (R306) -/

/-- `Extend(v, n)`: the signed value of an n-bit field (R306). -/
def extend (v n : Nat) : Int :=
  if n = 0 then 0
  else if v < 2 ^ (n - 1) then (v : Int) - (2 ^ n - 1)
  else (v : Int)

/-! ## Huffman symbol decoding (R307) -/

/-- The symbol of the first of `n` slots from slot `i` on whose code is `code`, if any (R307). -/
def searchSlots (h : HuffTable) (code : Nat) (i n : Nat) : Except Fault (Option Byte) :=
  match n with
  | 0 => .ok none
  | m + 1 =>
    match h.code[i]?, h.symbol[i]? with
    | some c, some y => if c.toNat = code then .ok (some y) else searchSlots h code (i + 1) m
    | _, _ => .error .noSlot

/-- The search among the slots `OFFSET[L-1] .. OFFSET[L]-1` of length class `L = l + 1` (R307). -/
def searchClass (h : HuffTable) (code : Nat) (l : Fin 16) : Except Fault (Option Byte) :=
  searchSlots h code h.offset[l.castSucc].toNat (h.offset[l.succ].toNat - h.offset[l.castSucc].toNat)

/-- The walk over the length classes from `L = 17 - n` to 16 with the bits so far in `code` (R307). -/
def huffWalk (h : HuffTable) (comp : BitVec 2) (n : Nat) (code : Nat) (s : State) : Res Byte :=
  match n with
  | 0 => .stop (.error .huffNoMatch comp) s
  | m + 1 =>
    (readBit comp s).andThen fun b t =>
      match searchClass h (2 * code + b.toNat) (Fin.ofNat 16 (15 - m)) with
      | .ok (some y) => .done y t
      | .ok none => huffWalk h comp m (2 * code + b.toNat) t
      | .error f => .stop (.fault f) t

/-- `HuffDecode(c, t)` for the block of component `comp` (R307). -/
def huffDecode (h : HuffTable) (comp : BitVec 2) (s : State) : Res Byte := huffWalk h comp 16 0 s

/-! ## Block decoding (R308 to R311) -/

/-- DC prediction: the predictor takes the wrapped sum and is stored at zigzag position 0 (R309). -/
def predictDc (c : Comp) (diff : Int) (s : State) : State :=
  let p := wrap16 ((s.predOf c).toInt + diff)
  (s.withPred c p).withCoef c (zz 0) p

/-- DC decoding and prediction of the block of a component (R308, R309). -/
def decodeDc (c : Comp) (s : State) : Res Unit :=
  (huffDecode (s.huff .dc (s.cfg c).dcId) c.bits s).andThen fun n t =>
    if 15 < n.toNat then .stop (.error .dcCategory c.bits) t
    else (readBits c.bits n.toNat t).andThen fun v u => .done () (predictDc c (extend v n.toNat) u)

/-- The AC loop from zigzag position `k` on. Every turn moves `k` on by at least 1, so 63 turns are
enough from `k = 1` (R310). -/
def acLoop (c : Comp) (turns : Nat) (k : Nat) (s : State) : Res Unit :=
  match turns with
  | 0 => .done () s
  | m + 1 =>
    if k < 64 then
      (huffDecode (s.huff .ac (s.cfg c).acId) c.bits s).andThen fun y t =>
        if y = 0x00 then .done () t
        else if y = 0xF0 then
          if 64 < k + 16 then .stop (.error .acOverrun c.bits) t else acLoop c m (k + 16) t
        else if h : k + y.toNat / 16 ≤ 63 then
          (readBits c.bits (y.toNat % 16) t).andThen fun v u =>
            acLoop c m (k + y.toNat / 16 + 1)
              (u.withCoef c (zz ⟨k + y.toNat / 16, by omega⟩) (wrap16 (extend v (y.toNat % 16))))
        else .stop (.error .acOverrun c.bits) t
    else .done () s

/-- AC decoding of the block of a component (R310). -/
def decodeAc (c : Comp) (s : State) : Res Unit := acLoop c 63 1 s

/-- `DecodeBlock(id)` (R311). -/
def decodeBlock (c : Comp) (s : State) : Res Unit :=
  (decodeDc c (s.withZeroBlock c)).andThen fun _ t => decodeAc c t

/-- One block for each scan component, in scan order (R313, R314). -/
def decodeBlocks (ids : List (BitVec 2)) (s : State) : Res Unit :=
  match ids with
  | [] => .done () s
  | id :: rest =>
    match Comp.ofBits id with
    | some c => (decodeBlock c s).andThen fun _ t => decodeBlocks rest t
    | none => .stop (.fault .noComponent) s

/-! ## START_SCAN (R312) -/

/-- The first unset binding of the scan components, in scan order (R312). -/
def unsetBinding (ids : List (BitVec 2)) (s : State) : Option (ErrCode × BitVec 2) :=
  match ids with
  | [] => none
  | id :: rest =>
    match Comp.ofBits id with
    | none => unsetBinding rest s
    | some c =>
      if s.qtSet (s.cfg c).qtId = false then some (.qtNotSet, id)
      else if s.htSet .dc (s.cfg c).dcId = false then some (.dcNotSet, id)
      else if s.htSet .ac (s.cfg c).acId = false then some (.acNotSet, id)
      else unsetBinding rest s

/-- The first failing check of START_SCAN, in the order of R312 and R602. -/
def startScanError (s : State) : Option (ErrCode × BitVec 2) :=
  if s.width = 0 ∨ s.height = 0 then some (.badDimensions, 0)
  else if ¬(s.ncomp = 1 ∨ s.ncomp = 3) then some (.badNcomp, 0)
  else if s.scanCfg.n ≠ s.ncomp then some (.badScan, 0)
  else if scanIdsDistinct (scanIds s.scanCfg) = false then some (.badScan, 0)
  else
    match unsetBinding (scanIds s.scanCfg) s with
    | some e => some e
    | none =>
      if s.params.bsBytes < s.bsLen.toNat then some (.bsLenRange, 0)
      else if s.params.outBytes < 3 * s.width.toNat * s.height.toNat then some (.outTooSmall, 0)
      else none

/-- The state a successful START_SCAN sets up (R312). -/
def beginScan (s : State) : State :=
  { s with
    mcuCols := BitVec.ofNat 16 (ceil8 s.width.toNat)
    mcuRows := BitVec.ofNat 16 (ceil8 s.height.toNat)
    mcuTotal := BitVec.ofNat 32 (ceil8 s.width.toNat * ceil8 s.height.toNat)
    mcuIdx := 0
    lastMcu := 0
    byteIdx := 0
    bitOff := 0
    pred := Vector.replicate 3 0
    coef := Vector.replicate 3 (Vector.replicate 64 0)
    mcuPending := false
    scanActive := true }

/-- START_SCAN without its frozen check (R312). -/
def startScanBody (s : State) : Res Unit :=
  match startScanError s with
  | some (code, comp) => .stop (.error code comp) s
  | none => .done () (beginScan s)

/-- `START_SCAN` (R312). -/
def execStartScan (s : State) : Host.Outcome State Fault Refusal := unlessFrozen startScanBody s

/-! ## DECODE_MCU (R313 to R316) -/

/-- MCU_IDX is at a restart boundary: a nonzero multiple of a nonzero interval (R315). -/
def atRestart (s : State) : Bool :=
  s.restart != 0 && s.mcuIdx != 0 && s.mcuIdx.toNat % s.restart.toNat == 0

/-- The restart boundary check of the MCU about to be decoded (R315, R316). -/
def restartBoundary (align : Bool) (s : State) : State :=
  if atRestart s then
    let t := { s with pred := Vector.replicate 3 0 }
    if align then alignCursor t else t
  else s

/-- DECODE_MCU without its frozen check; `align` is the sampled RST_ALIGN (R313). -/
def decodeMcuBody (align : Bool) (s : State) : Res Unit :=
  if s.scanActive = false ∨ s.mcuTotal ≤ s.mcuIdx then .stop (.error .sequence 0) s
  else
    (decodeBlocks (scanIds s.scanCfg) (restartBoundary align s)).andThen fun _ t =>
      .done () { t with lastMcu := s.mcuIdx, mcuIdx := s.mcuIdx + 1, mcuPending := true }

/-- `DECODE_MCU` (R313). -/
def execDecodeMcu (s : State) : Host.Outcome State Fault Refusal :=
  unlessFrozen (decodeMcuBody s.sampledAlign) s

end Sys2Proof.Machine
end

