-- ==== Sys2Proof/Machine/Recon.lean ====
section
/-! DEFINITION. Reconstruction: dequantization, the inverse DCT, the level shift, clamping, colour
conversion, and RECON_MCU (spec/42_reconstruction.md). -/

namespace Sys2Proof.Machine

/-! ## Dequantization and the inverse DCT (R404 to R409) -/

/-- `D[i]`: the coefficient, signed, times the quantization value, unsigned; exact (R404). -/
def dequant (coef q : Vector Half 64) (i : Fin 64) : Int := coef[i].toInt * (q[i].toNat : Int)

/-- The cosine table `G[x][u]`, row by row of x (R406). -/
def cosineTable : Vector (Vector Int 8) 8 :=
  #v[#v[5793, 8035, 7568, 6811, 5793, 4551, 3135, 1598],
     #v[5793, 6811, 3135, -1598, -5793, -8035, -7568, -4551],
     #v[5793, 4551, -3135, -8035, -5793, 1598, 7568, 6811],
     #v[5793, 1598, -7568, -4551, 5793, 6811, -3135, -8035],
     #v[5793, -1598, -7568, 4551, 5793, -6811, -3135, 8035],
     #v[5793, -4551, -3135, 8035, -5793, -1598, 7568, -6811],
     #v[5793, -6811, 3135, 1598, -5793, 8035, -7568, 4551],
     #v[5793, -8035, 7568, -6811, 5793, -4551, 3135, -1598]]

/-- `G[x][u]` (R406). -/
def cosine (x u : Fin 8) : Int := cosineTable[x][u]

/-- `Wt(x, y, u, v)`, the weight of coefficient (u, v) at pixel (x, y) (R407). -/
def weight (x y u v : Fin 8) : Int :=
  if u = 0 ∧ v = 0 then 2 ^ 25 else cosine x u * cosine y v

/-- The natural index `8*r + c` of row r and column c (R400). -/
def naturalIndex (r c : Fin 8) : Fin 64 := ⟨8 * r.val + c.val, by omega⟩

/-- `acc(x, y)`: the sum over u and v of the weights times the dequantized coefficients (R407). -/
def idctAcc (coef q : Vector Half 64) (x y : Fin 8) : Int :=
  ((List.finRange 8).map fun v =>
    ((List.finRange 8).map fun u => weight x y u v * dequant coef q (naturalIndex v u)).sum).sum

/-- The sample of a pixel from its accumulator: rounded, level-shifted, clamped (R408). -/
def sampleOfAcc (acc : Int) : Byte := clamp8 (floorShift (acc + 2 ^ 27) 28 + 128)

/-- The column x of natural index p (R400). -/
def pixelX (p : Fin 64) : Fin 8 := Fin.ofNat 8 (p.val % 8)

/-- The row y of natural index p (R400). -/
def pixelY (p : Fin 64) : Fin 8 := Fin.ofNat 8 (p.val / 8)

/-- `ReconBlock(coef, Q)` at natural index p (R409). -/
def reconBlock (coef q : Vector Half 64) (p : Fin 64) : Byte :=
  sampleOfAcc (idctAcc coef q (pixelX p) (pixelY p))

/-! ## Colour conversion (R410 to R412) -/

/-- The three bytes of a pixel: R, G and B. -/
structure Rgb where
  r : Byte
  g : Byte
  b : Byte
  deriving DecidableEq, Repr

/-- `YCC`: one pixel's Y, Cb and Cr samples to R, G and B (R410). -/
def ycc (y cb cr : Byte) : Rgb :=
  let luma : Int := y.toNat
  let u : Int := (cb.toNat : Int) - 128
  let v : Int := (cr.toNat : Int) - 128
  { r := clamp8 (luma + floorShift (91881 * v + 32768) 16)
    g := clamp8 (luma + floorShift (-22554 * u - 46802 * v + 32768) 16)
    b := clamp8 (luma + floorShift (116130 * u + 32768) 16) }

/-- The plane of a component at pixel index p, from its block and the table it is bound to (R409). -/
def plane (s : State) (c : Comp) (p : Fin 64) : Byte := reconBlock (s.block c) (s.quantOf c) p

/-- The colour of pixel p of an image of one component: the plane of SCAN_ID0 as gray (R412). -/
def grayPixel (s : State) (c : Comp) (p : Fin 64) : Rgb :=
  let v := plane s c p
  { r := v, g := v, b := v }

/-- The colour of pixel p of an image of three components: the planes of ids 1, 2 and 3 are Y, Cb and Cr,
whatever the scan order (R410, R411). -/
def colourPixel (s : State) (p : Fin 64) : Rgb := ycc (plane s .c1 p) (plane s .c2 p) (plane s .c3 p)

/-- How pixels get their colour, if the planes needed are those of scan components (R411 to R413). -/
inductive PixelSource where
  | gray (c : Comp)
  | colour
  deriving DecidableEq, Repr

/-- The pixel source of the configured frame and scan; none if a plane that is needed is not one of the
scan's, or if the scan names component 0 (R413). -/
def pixelSource (s : State) : Option PixelSource :=
  if (0 : BitVec 2) ∈ scanIds s.scanCfg then none
  else if s.ncomp = 3 then
    if 1 ∈ scanIds s.scanCfg ∧ 2 ∈ scanIds s.scanCfg ∧ 3 ∈ scanIds s.scanCfg then some .colour else none
  else
    match scanIds s.scanCfg with
    | [] => none
    | id :: _ => (Comp.ofBits id).map .gray

/-- The colour of pixel p. -/
def pixelColour (s : State) (src : PixelSource) (p : Fin 64) : Rgb :=
  match src with
  | .gray c => grayPixel s c p
  | .colour => colourPixel s p

/-! ## RECON_MCU (R413, R414) -/

/-- The image column X of pixel p of MCU m (R413). -/
def imageX (s : State) (m : Nat) (p : Fin 64) : Nat := 8 * (m % s.mcuCols.toNat) + (pixelX p).val

/-- The image row Y of pixel p of MCU m (R413). -/
def imageY (s : State) (m : Nat) (p : Fin 64) : Nat := 8 * (m / s.mcuCols.toNat) + (pixelY p).val

/-- Pixel p of MCU m is inside the image (R414). -/
def insideImage (s : State) (m : Nat) (p : Fin 64) : Bool :=
  decide (imageX s m p < s.width.toNat) && decide (imageY s m p < s.height.toNat)

/-- The index in OUT of the first byte of pixel p of MCU m (R67, R413). -/
def pixelAddr (s : State) (m : Nat) (p : Fin 64) : Nat :=
  3 * (imageY s m p * s.width.toNat + imageX s m p)

/-- The three writes of one pixel (R413). -/
def writePixel (a : Nat) (c : Rgb) (s : State) : Res Unit :=
  (outWrite a c.r s).andThen fun _ t => (outWrite (a + 1) c.g t).andThen fun _ u => outWrite (a + 2) c.b u

/-- The writes of the listed pixels of MCU m that are inside the image (R413, R414). Colours and places
are taken from the state `s0` at the start of the reconstruction, which no write of OUT changes. -/
def writeTile (s0 : State) (src : PixelSource) (m : Nat) (ps : List (Fin 64)) (s : State) : Res Unit :=
  match ps with
  | [] => .done () s
  | p :: rest =>
    if insideImage s0 m p then
      (writePixel (pixelAddr s0 m p) (pixelColour s0 src p) s).andThen fun _ t =>
        writeTile s0 src m rest t
    else writeTile s0 src m rest s

/-- The flags at the end of RECON_MCU (R413). -/
def finishRecon (s : State) : State :=
  { s with mcuPending := false, scanActive := s.scanActive && !(s.mcuIdx == s.mcuTotal) }

/-- RECON_MCU without its frozen check (R413). -/
def reconMcuBody (s : State) : Res Unit :=
  if s.mcuPending = false then .stop (.error .sequence 0) s
  else if s.mcuCols = 0 then .stop (.fault .zeroColumns) s
  else
    match pixelSource s with
    | none => .stop (.fault .noComponent) s
    | some src =>
      (writeTile s src s.lastMcu.toNat (List.finRange 64) s).andThen fun _ t => .done () (finishRecon t)

/-- `RECON_MCU` (R413). -/
def execReconMcu (s : State) : Host.Outcome State Fault Refusal := unlessFrozen reconMcuBody s

end Sys2Proof.Machine
end

