-- ==== Sys2Proof/Machine/Control.lean ====
section
/-! DEFINITION. The control commands NOP, RESET and RUN, illegal words, and what RESET does to a command in
flight (spec/43_control.md R500 to R505, spec/70_reset_and_hazards.md R705). -/

namespace Sys2Proof.Machine

/-! ## NOP and illegal words -/

/-- `NOP`: only the life-cycle flags change (R500). -/
def execNop (s : State) : Host.Outcome State Fault Refusal :=
  unlessFrozen (fun t => .done () t) s

/-- The completion of an illegal word: ILLEGAL_CMD, or a no-op while frozen (R144, R502). -/
def execIllegal (s : State) : Host.Outcome State Fault Refusal :=
  unlessFrozen (fun t => .stop (.error .illegalCmd 0) t) s

/-! ## RUN (R503) -/

/-- The loop of RUN. Each turn that does not stop moves MCU_IDX on by 1, so MCU_TOTAL - MCU_IDX turns are
enough. -/
def runLoop (align : Bool) (turns : Nat) (s : State) : Res Unit :=
  match turns with
  | 0 => .done () s
  | m + 1 =>
    if s.mcuIdx < s.mcuTotal then
      (decodeMcuBody align s).andThen fun _ t =>
        (reconMcuBody t).andThen fun _ u => runLoop align m u
    else .done () s

/-- RUN's first step: a pending MCU is reconstructed (R503). -/
def runPending (s : State) : Res Unit :=
  if s.mcuPending then reconMcuBody s else .done () s

/-- RUN without its frozen check (R503). -/
def runBody (align : Bool) (s : State) : Res Unit :=
  if s.scanActive = false then .stop (.error .sequence 0) s
  else
    (runPending s).andThen fun _ t => runLoop align (t.mcuTotal.toNat - t.mcuIdx.toNat) t

/-- `RUN` (R503). -/
def execRun (s : State) : Host.Outcome State Fault Refusal :=
  unlessFrozen (runBody s.sampledAlign) s

/-! ## RESET (R501, R705) -/

/-- The indexes of OUT that a command body writes from a state: those its run lists in an OUT to which
nothing was written before. -/
def writtenBytes (body : State → Res Unit) (s : State) : List Nat :=
  (body { s with out := [] }).state.out.map (fun c => c.1)

/-- The OUT bytes that the command in the latch could write: those of the tiles of the MCUs it would have
reconstructed (R705). A frozen core writes none (R604). -/
def abortedBytes (s : State) : List Nat :=
  match s.latch with
  | none => []
  | some l =>
    if s.err then []
    else
      match decode l.word with
      | .error _ => []
      | .ok .nop => []
      | .ok .reset => []
      | .ok (.setQt _) => []
      | .ok (.buildHt _ _) => []
      | .ok .startScan => []
      | .ok .decodeMcu => []
      | .ok .reconMcu => writtenBytes reconMcuBody s
      | .ok .run => writtenBytes (runBody l.rstAlign) s

/-- RESET's whole effect: abort the command in the latch, then the reset state (R501, R705). -/
def resetCommand (s : State) : State := resetState (drawOutBytes (abortedBytes s) s)

/-- `RESET` (R501). -/
def execReset (s : State) : Host.Outcome State Fault Refusal := .next (resetCommand s)

end Sys2Proof.Machine
end

