-- ==== Sys2Proof/Machine/Table.lean ====
section
/-! DEFINITION. The table commands SET_QT and BUILD_HT and the Huffman table builder (spec/40_tables.md). -/

namespace Sys2Proof.Machine

/-! ## The Huffman table builder (R203 to R205) -/

/-- The counts `COUNT[1..16]` of a table as numbers. -/
def countList (h : HuffTable) : List Nat := h.count.toList.map (fun b => b.toNat)

/-- `N`, the sum of the counts (R203). -/
def symbolCount (h : HuffTable) : Nat := (countList h).sum

/-- The offsets: `start`, then the running sum after each length class (R205). -/
def offsetsFrom (start : Nat) (counts : List Nat) : List Nat :=
  match counts with
  | [] => [start]
  | n :: rest => start :: offsetsFrom (start + n) rest

/-- The canonical codes in slot order: each class counts up from the running code, which is shifted left
by 1 after the class (R205). -/
def codesFrom (code : Nat) (counts : List Nat) : List Nat :=
  match counts with
  | [] => []
  | n :: rest => (List.range n).map (fun j => code + j) ++ codesFrom (2 * (code + n)) rest

/-- OFFSET and CODE computed from COUNT; unused code slots are 0 (R205). COUNT, SYMBOL and the set flag
are as before. -/
def buildTable (h : HuffTable) : HuffTable :=
  { h with
    offset := Vector.ofFn fun i => BitVec.ofNat 8 ((offsetsFrom 0 (countList h)).getD i.val 0)
    code := Vector.ofFn fun i => BitVec.ofNat 24 ((codesFrom 0 (countList h)).getD i.val 0) }

/-! ## The commands -/

/-- A table command during a scan raises SEQUENCE (R201). -/
def unlessScanning (body : State → Res Unit) (s : State) : Res Unit :=
  if s.scanActive then .stop (.error .sequence 0) s else body s

/-- `QT_SET[t] <- 1` (R202). -/
def markQt (t : TableId) (s : State) : Res Unit :=
  .done () (s.withQt t { s.qt[t] with set := true })

/-- `HT_SET[c][t] <- 1` for one table (R206). -/
def HuffTable.marked (h : HuffTable) : HuffTable := { h with set := true }

/-- The check of the symbol count, the build and `HT_SET[c][t] <- 1` (R204 to R206). -/
def buildHtBody (c : HuffClass) (t : TableId) (s : State) : Res Unit :=
  if 162 < symbolCount (s.huff c t) then .stop (.error .htOverflow 0) s
  else .done () (s.withHuff c t (buildTable (s.huff c t)).marked)

/-- `SET_QT t` (R202). -/
def execSetQt (t : TableId) (s : State) : Host.Outcome State Fault Refusal :=
  unlessFrozen (unlessScanning (markQt t)) s

/-- `BUILD_HT c, t` (R206). -/
def execBuildHt (c : HuffClass) (t : TableId) (s : State) : Host.Outcome State Fault Refusal :=
  unlessFrozen (unlessScanning (buildHtBody c t)) s

end Sys2Proof.Machine
end

