-- ==== Sys2Proof/Machine/Dispatch.lean ====
section
/-! DEFINITION. The dispatch of a command to its meaning, one arm per constructor (spec/43_control.md
R502). -/

namespace Sys2Proof.Machine

def exec (i : Instr) (s : State) : Host.Outcome State Fault Refusal :=
  match i with
  | .nop => Sys2Proof.Machine.execNop s
  | .reset => Sys2Proof.Machine.execReset s
  | .setQt t => Sys2Proof.Machine.execSetQt t s
  | .buildHt c t => Sys2Proof.Machine.execBuildHt c t s
  | .startScan => Sys2Proof.Machine.execStartScan s
  | .decodeMcu => Sys2Proof.Machine.execDecodeMcu s
  | .reconMcu => Sys2Proof.Machine.execReconMcu s
  | .run => Sys2Proof.Machine.execRun s

end Sys2Proof.Machine
end

