-- ==== Sys2Proof/Machine/Bus.lean ====
section
/-! DEFINITION. The slave port: the address map, the value of a host read and the effect of a host write
(spec/20_memory.md), and the acceptance of a command word (spec/43_control.md R504). -/

namespace Sys2Proof.Machine

/-! ## The address map (R102, R103, R108 to R111) -/

/-- What one word of the window is (R102). -/
inductive Target where
  | id
  | ctrl
  | status
  | cmd
  | frameSize
  | frameNcomp
  | compCfg (c : Comp)
  | scanCfg
  | restart
  | bsLen
  | mcuIdx
  | mcuTotal
  | mcuGeom
  | bitPos
  | pred (c : Comp)
  | tableSet
  | errMcu
  | errBitPos
  | errComp
  | lastMcu
  | paramBs
  | paramOut
  /-- The QT window entry of table t at zigzag position k (R108). -/
  | qtEntry (t : TableId) (k : Fin 64)
  /-- `COUNT[L]` with L = l + 1 (R109). -/
  | htCount (c : HuffClass) (t : TableId) (l : Fin 16)
  /-- `OFFSET[L]` (R109). -/
  | htOffset (c : HuffClass) (t : TableId) (l : Fin 17)
  /-- `SYMBOL[i]` (R109). -/
  | htSymbol (c : HuffClass) (t : TableId) (i : Fin 162)
  /-- `CODE[i]` (R109). -/
  | htCode (c : HuffClass) (t : TableId) (i : Fin 162)
  /-- The COEF window entry of a component at natural index i (R111). -/
  | coefEntry (c : Comp) (i : Fin 64)
  /-- The word of BS that covers bytes 4w..4w+3 (R110). -/
  | bsWord (w : Nat)
  /-- The word of OUT that covers bytes 4w..4w+3 (R110). -/
  | outWord (w : Nat)
  /-- Reserved or unmapped (R103). -/
  | reserved
  deriving DecidableEq, Repr

/-- The component whose slot has number n. -/
def compAt (n : Nat) : Comp := if n = 0 then .c1 else if n = 1 then .c2 else .c3

/-- The class whose bit is n. -/
def classAt (n : Nat) : HuffClass := if n = 0 then .dc else .ac

/-- The register at word n of the register block (R102). -/
def registerAt (n : Nat) : Target :=
  match n with
  | 0 => .id
  | 1 => .ctrl
  | 2 => .status
  | 3 => .cmd
  | 4 => .frameSize
  | 5 => .frameNcomp
  | 6 => .compCfg .c1
  | 7 => .compCfg .c2
  | 8 => .compCfg .c3
  | 9 => .scanCfg
  | 10 => .restart
  | 11 => .bsLen
  | 12 => .mcuIdx
  | 13 => .mcuTotal
  | 14 => .mcuGeom
  | 15 => .bitPos
  | 16 => .pred .c1
  | 17 => .pred .c2
  | 18 => .pred .c3
  | 19 => .tableSet
  | 20 => .errMcu
  | 21 => .errBitPos
  | 22 => .errComp
  | 23 => .lastMcu
  | 24 => .paramBs
  | 25 => .paramOut
  | _ => .reserved

/-- The word at offset `o` of the 0x800-byte region of table (c, t) (R109). -/
def htWordAt (c : HuffClass) (t : TableId) (o : Nat) : Target :=
  if o < 0x040 then .htCount c t (Fin.ofNat 16 (o / 4))
  else if o < 0x040 + 4 * 17 then .htOffset c t (Fin.ofNat 17 ((o - 0x040) / 4))
  else if 0x100 ≤ o ∧ o < 0x100 + 4 * 162 then .htSymbol c t (Fin.ofNat 162 ((o - 0x100) / 4))
  else if 0x400 ≤ o ∧ o < 0x400 + 4 * 162 then .htCode c t (Fin.ofNat 162 ((o - 0x400) / 4))
  else .reserved

/-- The word at an aligned byte address (R102). An address outside the window is unmapped (R101). -/
def decodeAddr (p : Params) (a : Nat) : Target :=
  if a < 0x68 then registerAt (a / 4)
  else if 0x400 ≤ a ∧ a < 0x800 then
    .qtEntry (Fin.ofNat 4 ((a - 0x400) / 0x100)) (Fin.ofNat 64 (a % 0x100 / 4))
  else if 0x1000 ≤ a ∧ a < 0x5000 then
    htWordAt (classAt ((a - 0x1000) / 0x2000)) (Fin.ofNat 4 ((a - 0x1000) / 0x800 % 4)) (a % 0x800)
  else if 0x5000 ≤ a ∧ a < 0x5300 then
    .coefEntry (compAt ((a - 0x5000) / 0x100)) (Fin.ofNat 64 (a % 0x100 / 4))
  else if 0x1000000 ≤ a ∧ a < 0x1000000 + p.bsBytes then .bsWord ((a - 0x1000000) / 4)
  else if 0x2000000 ≤ a ∧ a < 0x2000000 + p.outBytes then .outWord ((a - 0x2000000) / 4)
  else .reserved

/-! ## Reads (R107) -/

/-- Four bytes as a word, the first in bits [7:0] (R104). -/
def packWord (b0 b1 b2 b3 : Byte) : Word := (b3 ++ b2 ++ b1 ++ b0 : BitVec (8 + 8 + 8 + 8))

/-- The current value of a word (R107 point 4). -/
def currentValue (s : State) (t : Target) : Word :=
  match t with
  | .id => 0x4A504744#32
  | .ctrl => ctrlWord s.ctrl
  | .status => statusWord s
  | .cmd => 0
  | .frameSize => frameSizeWord s
  | .frameNcomp => frameNcompWord s
  | .compCfg c => compCfgWord (s.cfg c)
  | .scanCfg => scanCfgWord s.scanCfg
  | .restart => s.restart.setWidth 32
  | .bsLen => s.bsLen
  | .mcuIdx => s.mcuIdx
  | .mcuTotal => s.mcuTotal
  | .mcuGeom => mcuGeomWord s
  | .bitPos => s.bitPos
  | .pred c => predWord s c
  | .tableSet => tableSetWord s
  | .errMcu => s.errMcu
  | .errBitPos => s.errBitPos
  | .errComp => s.errComp.setWidth 32
  | .lastMcu => s.lastMcu
  | .paramBs => BitVec.ofNat 32 s.params.bsBytes
  | .paramOut => BitVec.ofNat 32 s.params.outBytes
  | .qtEntry t k => (s.qt[t].entry[zz k]).setWidth 32
  | .htCount c t l => ((s.huff c t).count[l]).setWidth 32
  | .htOffset c t l => ((s.huff c t).offset[l]).setWidth 32
  | .htSymbol c t i => ((s.huff c t).symbol[i]).setWidth 32
  | .htCode c t i => ((s.huff c t).code[i]).setWidth 32
  | .coefEntry c i => ((s.block c)[i]).signExtend 32
  | .bsWord w => packWord (s.bsByte (4 * w)) (s.bsByte (4 * w + 1)) (s.bsByte (4 * w + 2)) (s.bsByte (4 * w + 3))
  | .outWord w =>
    packWord (s.outByte (4 * w)) (s.outByte (4 * w + 1)) (s.outByte (4 * w + 2)) (s.outByte (4 * w + 3))
  | .reserved => 0

/-- The words whose value is defined even while BUSY: the five of R107 point 1, and the reserved words
(R103, 93 I14). A read of CMD while BUSY is a free draw, as R713 and 93 I4 have it (log entry 15). -/
def readableBusy (t : Target) : Bool :=
  match t with
  | .id => true
  | .ctrl => true
  | .status => true
  | .paramBs => true
  | .paramOut => true
  | .reserved => true
  | _ => false

/-- The value of a host read of a word, and the state after it: a read has no side effect, but a free
draw advances the model's draw counter (R107; log entry 4). -/
def readTarget (t : Target) (s : State) : Word × State :=
  if readableBusy t || !s.busy then (currentValue s t, s)
  else (Config.freeWord s.draws, { s with draws := s.draws + 1 })

/-- The address and width are those of a supported access: 4 bytes, aligned (R100). -/
def supported (a : Nat) (width : Nat) : Bool := width == 4 && a % 4 == 0

/-- `MemRead(addr, width)` (R100, R107, R701). -/
def busRead (a : Nat) (width : Nat) (s : State) : BusResponse × State :=
  if s.resetIn || !supported a width then (.busError, s)
  else
    let r := readTarget (decodeAddr s.params a) s
    (.data r.1, r.2)

/-! ## Writes (R106) -/

/-- The effect of an applied data write on its target (R106 point 5, R108 to R110). A word that is no
data-write target changes nothing. -/
def applyData (t : Target) (v : Word) (s : State) : State :=
  match t with
  | .frameSize => { s with width := v.extractLsb' 0 16, height := v.extractLsb' 16 16 }
  | .frameNcomp => { s with ncomp := v.extractLsb' 0 3 }
  | .compCfg c => s.withCfg c (compCfgOfWord v)
  | .scanCfg => { s with scanCfg := scanCfgOfWord v }
  | .restart => { s with restart := v.extractLsb' 0 16 }
  | .bsLen => { s with bsLen := v }
  | .qtEntry t k =>
    s.withQt t { entry := s.qt[t].entry.set (zz k) (v.extractLsb' 0 16), set := false }
  | .htCount c t l =>
    s.withHuff c t
      { s.huff c t with count := (s.huff c t).count.set l (v.extractLsb' 0 8), set := false }
  | .htSymbol c t i =>
    s.withHuff c t
      { s.huff c t with symbol := (s.huff c t).symbol.set i (v.extractLsb' 0 8), set := false }
  | .bsWord w =>
    { s with
      bs := memWrite (memWrite (memWrite (memWrite s.bs (4 * w) (v.extractLsb' 0 8)) (4 * w + 1)
        (v.extractLsb' 8 8)) (4 * w + 2) (v.extractLsb' 16 8)) (4 * w + 3) (v.extractLsb' 24 8) }
  | .outWord w =>
    { s with
      out := memWrite (memWrite (memWrite (memWrite s.out (4 * w) (v.extractLsb' 0 8)) (4 * w + 1)
        (v.extractLsb' 8 8)) (4 * w + 2) (v.extractLsb' 16 8)) (4 * w + 3) (v.extractLsb' 24 8) }
  | .id => s
  | .ctrl => s
  | .status => s
  | .cmd => s
  | .mcuIdx => s
  | .mcuTotal => s
  | .mcuGeom => s
  | .bitPos => s
  | .pred _ => s
  | .tableSet => s
  | .errMcu => s
  | .errBitPos => s
  | .errComp => s
  | .lastMcu => s
  | .paramBs => s
  | .paramOut => s
  | .htOffset _ _ _ => s
  | .htCode _ _ _ => s
  | .coefEntry _ _ => s
  | .reserved => s

/-- A data write, decided in the order of R106 point 5. -/
def dataWrite (t : Target) (v : Word) (s : State) : State :=
  if s.busy then hostViolation s
  else
    match t with
    | .outWord w => applyData (.outWord w) v s
    | other =>
      if s.err then s
      else if s.scanActive then hostViolation s
      else applyData other v s

/-- The acceptance of a command word (R504): RESET at once, whatever BUSY is; any other word is dropped
while BUSY, and else latched with the next latency of the list, or 0 when none is given. -/
def acceptCommand (w : Word) (s : State) : State :=
  if w = 0x00000001#32 then resetCommand s
  else if s.busy then hostViolation s
  else
    match s.delays with
    | [] => latchCommand w 0 s
    | d :: rest => latchCommand w d { s with delays := rest }

/-- The effect of a host write of a word (R106). -/
def writeTarget (t : Target) (v : Word) (s : State) : State :=
  match t with
  | .ctrl => { s with ctrl := ctrlOfWord v }
  | .status => writeStatus v s
  | .cmd => acceptCommand v s
  | .id => s
  | .mcuIdx => s
  | .mcuTotal => s
  | .mcuGeom => s
  | .bitPos => s
  | .pred _ => s
  | .tableSet => s
  | .errMcu => s
  | .errBitPos => s
  | .errComp => s
  | .lastMcu => s
  | .paramBs => s
  | .paramOut => s
  | .htOffset _ _ _ => s
  | .htCode _ _ _ => s
  | .coefEntry _ _ => s
  | .reserved => s
  | .frameSize => dataWrite .frameSize v s
  | .frameNcomp => dataWrite .frameNcomp v s
  | .compCfg c => dataWrite (.compCfg c) v s
  | .scanCfg => dataWrite .scanCfg v s
  | .restart => dataWrite .restart v s
  | .bsLen => dataWrite .bsLen v s
  | .qtEntry t k => dataWrite (.qtEntry t k) v s
  | .htCount c t l => dataWrite (.htCount c t l) v s
  | .htSymbol c t i => dataWrite (.htSymbol c t i) v s
  | .bsWord w => dataWrite (.bsWord w) v s
  | .outWord w => dataWrite (.outWord w) v s

/-- `MemWrite(addr, width, v)` (R100, R106, R701). -/
def busWrite (a : Nat) (width : Nat) (v : Word) (s : State) : BusResponse × State :=
  if s.resetIn || !supported a width then (.busError, s)
  else (.completed, writeTarget (decodeAddr s.params a) v s)

end Sys2Proof.Machine
end

