-- ==== Sys2Proof/Machine/HostProgram.lean ====
section
/-! DEFINITION. The host's side: what one statement of a host program does (spec/30_encoding.md R146), the
reset input (spec/70_reset_and_hazards.md R700, R701), and the pseudo-instructions (R147). -/

namespace Sys2Proof.Machine

/-! ## Register addresses (R102) -/

/-- The address of STATUS. -/
def addrStatus : Nat := 0x008

/-- The address of CMD. -/
def addrCmd : Nat := 0x00C

/-- The address of BS_LEN. -/
def addrBsLen : Nat := 0x02C

/-- The address of the QT window entry of table t at zigzag position k (R108). -/
def addrQt (t : TableId) (k : Nat) : Nat := 0x400 + 0x100 * t.val + 4 * k

/-- The base `B = 0x1000 + 0x800*(4*c + t)` of the HT window of table (c, t) (R109). -/
def addrHt (c : HuffClass) (t : TableId) : Nat := 0x1000 + 0x800 * (4 * c.bit.toNat + t.val)

/-! ## One statement -/

/-- A bus answer is seen by the host. -/
def recordResponse (r : BusResponse) (s : State) : State := { s with responses := r :: s.responses }

/-- A read's data is bound to a name; a bus error binds nothing (R146). -/
def bindResult (name : String) (r : BusResponse) (s : State) : State :=
  match r with
  | .data v => { s with bindings := (name, v) :: s.bindings }
  | .completed => s
  | .busError => s

/-- One write by the host. -/
def hostWrite (a : Nat) (width : Nat) (v : Word) (s : State) : State :=
  recordResponse (busWrite a width v s).1 (busWrite a width v s).2

/-- One read by the host. -/
def hostRead (a : Nat) (width : Nat) (s : State) : State :=
  recordResponse (busRead a width s).1 (busRead a width s).2

/-- The hardware reset input changes: asserting it puts the core in the reset state (R700); releasing it
leaves the core there (R701). OUT keeps its bytes (R67; log entry 8). -/
def setResetPin (level : Bool) (s : State) : State :=
  if level then { resetState s with resetIn := true } else { s with resetIn := false }

/-- One turn of WAIT: it reads STATUS, and ends when BUSY is 0 (R146). Under the reset input the read is
answered by a bus error, and WAIT ends with it (R701, R721; log entry 14). -/
def waitTurn (rest : List HostStmt) (s : State) : State :=
  if s.resetIn then recordResponse .busError { s with program := rest }
  else if s.busy then s
  else { s with program := rest }

/-- The host's turn: the next statement of its program, if there is one. -/
def hostTurn (s : State) : State :=
  match s.program with
  | [] => s
  | .wr a v :: rest => hostWrite a 4 v { s with program := rest }
  | .rd a name :: rest =>
    bindResult name (busRead a 4 s).1 (hostRead a 4 { s with program := rest })
  | .wait :: rest => waitTurn rest s
  | .readAccess a width :: rest => hostRead a width { s with program := rest }
  | .writeAccess a width v :: rest => hostWrite a width v { s with program := rest }
  | .resetPin level :: rest => setResetPin level { s with program := rest }

/-- A turn passes with the latched command still in flight (R720). -/
def passTurn (s : State) : State :=
  match s.latch with
  | none => s
  | some l => { s with latch := some { l with delay := l.delay - 1 } }

/-! ## Pseudo-instructions (R145 to R147) -/

/-- `CMD <mnemonic ...>`: a write of the encoding to CMD (R146). -/
def cmdStmt (i : Instr) : HostStmt := .wr addrCmd (encode i)

/-- The pseudo-instructions of a host program (R147). -/
inductive Pseudo where
  /-- `LOAD_QT t, q0, ..., q63`. -/
  | loadQt (t : TableId) (q : List Half)
  /-- `LOAD_HT cls, t, n1, ..., n16, s0, ..., s(N-1)`. -/
  | loadHt (c : HuffClass) (t : TableId) (counts : List Byte) (symbols : List Byte)
  /-- `LOAD_BS b0, ..., b(M-1)`. -/
  | loadBs (bytes : List Byte)
  /-- `DECODE_IMAGE`. -/
  | decodeImage
  /-- `CMD_WAIT <mnemonic ...>`. -/
  | cmdWait (i : Instr)
  deriving DecidableEq, Repr

/-- A pseudo-instruction has the operands R147 gives it: 64 quantization values; 16 counts and as many
symbols as the counts sum to. -/
def pseudoWf (p : Pseudo) : Bool :=
  match p with
  | .loadQt _ q => q.length == 64
  | .loadHt _ _ counts symbols =>
    counts.length == 16 && symbols.length == (counts.map (fun b => b.toNat)).sum
  | .loadBs _ => true
  | .decodeImage => true
  | .cmdWait _ => true

/-- Writes of the listed words to consecutive word addresses from `a` on. -/
def writesFrom (a : Nat) (vs : List Word) : List HostStmt :=
  match vs with
  | [] => []
  | v :: rest => .wr a v :: writesFrom (a + 4) rest

/-- Bytes packed four to a word, missing bytes taken as 0 (R147). -/
def packWords (bytes : List Byte) : List Word :=
  match bytes with
  | [] => []
  | [b0] => [packWord b0 0 0 0]
  | [b0, b1] => [packWord b0 b1 0 0]
  | [b0, b1, b2] => [packWord b0 b1 b2 0]
  | b0 :: b1 :: b2 :: b3 :: rest => packWord b0 b1 b2 b3 :: packWords rest

/-- The exact expansion of a pseudo-instruction (R147). -/
def expand (p : Pseudo) : List HostStmt :=
  match p with
  | .loadQt t q =>
    writesFrom (addrQt t 0) (q.map (fun v => v.setWidth 32)) ++ [cmdStmt (.setQt t), .wait]
  | .loadHt c t counts symbols =>
    writesFrom (addrHt c t) (counts.map (fun v => v.setWidth 32)) ++
      writesFrom (addrHt c t + 0x100) (symbols.map (fun v => v.setWidth 32)) ++
      [cmdStmt (.buildHt c t), .wait]
  | .loadBs bytes =>
    writesFrom 0x1000000 (packWords bytes) ++ [.wr addrBsLen (BitVec.ofNat 32 bytes.length)]
  | .decodeImage => [cmdStmt .startScan, .wait, cmdStmt .run, .wait]
  | .cmdWait i => [cmdStmt i, .wait]

end Sys2Proof.Machine
end

