-- ==== Sys2Proof/Machine/Step.lean ====
section
/-! DEFINITION. One step: the completion of the latched command when its delay has passed, and else the
host's turn (spec/43_control.md R502, R504, spec/20_memory.md R114, spec/70_reset_and_hazards.md R720). -/

namespace Sys2Proof.Machine

/-- The completion of a command word (R502, R504). -/
def runWord (w : Word) (s : State) : Host.Outcome State Fault Refusal :=
  match decode w with
  | .ok i => exec i s
  | .error _ => execIllegal s

/-- One step. A latched command whose delay has passed completes; else the host takes a turn, which
leaves the state as it is when the host has nothing to do (R504, R720; log entry 2). -/
def step (s : State) : Host.Outcome State Fault Refusal :=
  match s.latch with
  | some l => if l.delay = 0 then runWord l.word s else .next (hostTurn (passTurn s))
  | none => .next (hostTurn s)

/-- The state with the command word accepted and about to complete: the very next step runs it (log
entry 11). -/
def State.withFetchWord (s : State) (nbits w : Nat) : State :=
  latchCommand (BitVec.ofNat 32 (w % 2 ^ nbits)) 0 s

end Sys2Proof.Machine
end

