-- ==== Sys2Proof/Safety.lean ====
section
/-! DEFINITION. What a safe state is: the invariant that reset meets and every step keeps, and in which no
step ends in a fault. -/

namespace Sys2Proof.Machine

/-- BS and OUT are in canonical form, inside their capacities. -/
def State.memoriesWf (s : State) : Prop :=
  memWf s.params.bsBytes s.bs = true ∧ memWf s.params.outBytes s.out = true

/-- The error registers hold the record of one error while ERR = 1 and zeros while ERR = 0 (R43, R57,
R601). -/
def State.errorWf (s : State) : Prop :=
  (s.err = true → s.errCode ∈ errorBytes) ∧
  (s.err = false → s.errCode = 0 ∧ s.errMcu = 0 ∧ s.errBitPos = 0 ∧ s.errComp = 0)

/-- The cursor stays within BS: BYTE_IDX is at most BS_BYTES, and below it inside a byte (R63, R301). -/
def State.cursorWf (s : State) : Prop :=
  s.byteIdx ≤ s.params.bsBytes ∧ (s.bitOff ≠ 0 → s.byteIdx < s.params.bsBytes)

/-- The offsets name existing slots, and a table that is set is the build of its counts (R200, R205). -/
def tableWf (h : HuffTable) : Prop :=
  (∀ l : Fin 17, h.offset[l].toNat ≤ 162) ∧
  (h.set = true →
    symbolCount h ≤ 162 ∧ h.offset = (buildTable h).offset ∧ h.code = (buildTable h).code)

/-- Every Huffman table is well formed. -/
def State.tablesWf (s : State) : Prop := ∀ (c : HuffClass) (t : TableId), tableWf (s.huff c t)

/-- What START_SCAN checked and computed still holds: the configuration is locked (R312, R714). -/
def State.scanConfigured (s : State) : Prop :=
  startScanError s = none ∧
  s.mcuCols.toNat = ceil8 s.width.toNat ∧
  s.mcuRows.toNat = ceil8 s.height.toNat ∧
  s.mcuTotal.toNat = ceil8 s.width.toNat * ceil8 s.height.toNat ∧
  s.mcuIdx.toNat ≤ s.mcuTotal.toNat

/-- The decode position: a pending MCU is the one before MCU_IDX in an active scan, and a scan with no
MCU pending has one left to decode (R503, R68). -/
def State.scanWf (s : State) : Prop :=
  (s.scanActive = true → s.scanConfigured) ∧
  (s.mcuPending = true → s.scanActive = true ∧ s.lastMcu.toNat + 1 = s.mcuIdx.toNat) ∧
  (s.scanActive = true → s.mcuPending = false → s.mcuIdx.toNat < s.mcuTotal.toNat)

/-- The invariant of the core. -/
structure State.Inv (s : State) : Prop where
  params : s.params.legal = true
  memories : s.memoriesWf
  errors : s.errorWf
  cursor : s.cursorWf
  tables : s.tablesWf
  scan : s.scanWf
  /-- While a command is in flight DONE is 0 (R504). -/
  latch : s.busy = true → s.done = false
  /-- While the reset input is asserted the core is in its reset state (R700, R701). -/
  held : s.resetIn = true → resetState s = s

/-- The MCU that RECON_MCU reconstructs is `m`, and pixel `p` of it is inside the image: the indexes of
OUT that pixel is written to (R413). -/
def pixelBytes (s : State) (m : Nat) (p : Fin 64) : List Nat :=
  if insideImage s m p then
    [pixelAddr s m p, pixelAddr s m p + 1, pixelAddr s m p + 2]
  else []

/-- The indexes of OUT in the cropped tile of MCU `m` (R413, R414). -/
def tileBytes (s : State) (m : Nat) : List Nat := (List.finRange 64).flatMap (pixelBytes s m)

/-- The bit of the payload at bit position `n`, most significant bit of each byte first (R300). -/
def payloadBit (s : State) (n : Nat) : Bool := (s.bsByte (n / 8)).getLsbD (7 - n % 8)

/-- The cursor as one bit position (R54). -/
def State.cursor (s : State) : Nat := 8 * s.byteIdx + s.bitOff.val

/-- The unsigned value of the `n` payload bits from position `start`, first bit most significant (R302). -/
def payloadField (s : State) (start n : Nat) : Nat :=
  match n with
  | 0 => 0
  | m + 1 => 2 * payloadField s start m + (payloadBit s (start + m)).toNat

end Sys2Proof.Machine
end

