-- ==== Sys2Proof/Certificates/Slice0/Obligations.lean ====
section
/-! DEFINITION. The statements about the model, each from the numbered rules of spec/. The helpers in
`Sys2Proof.Claims` restate, field by field, what the rules say, so that a statement does not rest on the
model's own name for it. -/

namespace Sys2Proof.Claims

open Sys2Proof.Machine

/-- The completion of R504: the latch empties and DONE rises; nothing else. -/
def completed (s : State) : State := { s with latch := none, done := true }

/-- The error entry of R603, field by field. -/
def raised (code : Byte) (comp : BitVec 2) (s : State) : State :=
  { s with
    err := true
    errCode := code
    errMcu := s.mcuIdx
    errBitPos := BitVec.ofNat 32 (8 * s.byteIdx + s.bitOff.val)
    errComp := comp
    latch := none
    done := true }

/-- `t` is the reset state of R700 for the core of `s`: what every register and window word reads as, the
latch, the cursor and the irq output; the parameters, BS and the host's side (log entries 1 and 2) are those
of `s`. -/
def isReset (s t : State) : Prop :=
  (∀ a, a % 4 = 0 → a < 0x1000000 →
    currentValue t (decodeAddr t.params a) =
      if a = 0x000 then 0x4A504744#32
      else if a = 0x060 then BitVec.ofNat 32 s.params.bsBytes
      else if a = 0x064 then BitVec.ofNat 32 s.params.outBytes
      else 0#32) ∧
  t.latch = none ∧ t.byteIdx = 0 ∧ t.bitOff = 0 ∧ t.irq = false ∧ t.params = s.params ∧
  (∀ a, t.bsByte a = s.bsByte a) ∧
  t.program = s.program ∧ t.responses = s.responses ∧ t.bindings = s.bindings ∧ t.delays = s.delays

/-- A bus transaction as the host sees it: its effect, and its answer recorded (log entry 1). -/
def answered (x : BusResponse × State) : State := { x.2 with responses := x.1 :: x.2.responses }

/-- `COUNT[l + 1]` as a number. -/
def count (h : HuffTable) (l : Fin 16) : Nat := h.count[l].toNat

/-- The sum of the counts (R203). -/
def total (h : HuffTable) : Nat := ((List.finRange 16).map (count h)).sum

/-- The running code before length class `l + 1` (R205). -/
def classCode (c : Nat → Nat) (l : Nat) : Nat :=
  match l with
  | 0 => 0
  | m + 1 => 2 * (classCode c m + c m)

/-- `COUNT[l + 1]` for any number l; 0 past the last class. -/
def countAt (h : HuffTable) (l : Nat) : Nat := if hl : l < 16 then count h ⟨l, hl⟩ else 0

/-- Slot `i` is of length class `l + 1`: it is one of `OFFSET[l] .. OFFSET[l+1]-1` (R205). -/
def inClass (h : HuffTable) (i : Fin 162) (l : Fin 16) : Prop :=
  h.offset[l.castSucc].toNat ≤ i.val ∧ i.val < h.offset[l.succ].toNat

/-- `k` is what R205 computes from the counts of `h`, marked set (R206). -/
def isBuilt (h k : HuffTable) : Prop :=
  k.count = h.count ∧ k.symbol = h.symbol ∧ k.set = true ∧
  k.offset[(0 : Fin 17)].toNat = 0 ∧
  (∀ l : Fin 16, k.offset[l.succ].toNat = k.offset[l.castSucc].toNat + count h l) ∧
  (∀ (l : Fin 16) (i : Fin 162), inClass k i l →
    k.code[i].toNat = classCode (countAt h) l.val + (i.val - k.offset[l.castSucc].toNat)) ∧
  (∀ i : Fin 162, k.offset[(16 : Fin 17)].toNat ≤ i.val → k.code[i] = 0)

/-- Only the bit cursor differs. -/
def cursorOnly (s t : State) : Prop := t = { s with byteIdx := t.byteIdx, bitOff := t.bitOff }

/-- The AC loop of R310 at zigzag position k. -/
def acFrom (c : Comp) (k : Nat) (s : State) : Res Unit := acLoop c (64 - k) k s

/-- The number of the first unset binding of a component, in the order of R312. -/
def unbound (s : State) (c : Comp) : Option Byte :=
  if s.qtSet (s.cfg c).qtId = false then some 0x06
  else if s.htSet .dc (s.cfg c).dcId = false then some 0x07
  else if s.htSet .ac (s.cfg c).acId = false then some 0x08
  else none

/-- The errors that decoding the blocks of an MCU can raise, with their numbers (R601). -/
def decodeErrors : List (ErrCode × Byte) :=
  [(.bsExhausted, 0x10), (.huffNoMatch, 0x11), (.dcCategory, 0x12), (.acOverrun, 0x13)]

/-- What a successful START_SCAN leaves (R312). -/
def scanBegun (s t : State) : Prop :=
  t = { s with
    mcuCols := t.mcuCols, mcuRows := t.mcuRows, mcuTotal := t.mcuTotal, mcuIdx := 0, lastMcu := 0,
    byteIdx := 0, bitOff := 0, pred := t.pred, coef := t.coef, mcuPending := false, scanActive := true,
    latch := none, done := true } ∧
  t.mcuCols.toNat = (s.width.toNat + 7) / 8 ∧
  t.mcuRows.toNat = (s.height.toNat + 7) / 8 ∧
  t.mcuTotal.toNat = (s.width.toNat + 7) / 8 * ((s.height.toNat + 7) / 8) ∧
  (∀ c : Comp, t.predOf c = 0) ∧
  (∀ (c : Comp) (i : Fin 64), (t.block c)[i] = 0)

/-- The state in which the MCU's bits are read: the restart boundary of R315 and R316, for the RST_ALIGN
that the command sampled. -/
def afterBoundary (align : Bool) (s : State) : State :=
  if s.restart ≠ 0 ∧ s.mcuIdx ≠ 0 ∧ s.mcuIdx.toNat % s.restart.toNat = 0 then
    if align = true ∧ s.bitOff ≠ 0 then
      { s with pred := Vector.replicate 3 0, byteIdx := s.byteIdx + 1, bitOff := 0 }
    else { s with pred := Vector.replicate 3 0 }
  else s

/-- The column X of pixel p of the MCU in the coefficient buffer (R413). -/
def pixX (s : State) (p : Fin 64) : Nat := 8 * (s.lastMcu.toNat % s.mcuCols.toNat) + p.val % 8

/-- The row Y of pixel p of the MCU in the coefficient buffer (R413). -/
def pixY (s : State) (p : Fin 64) : Nat := 8 * (s.lastMcu.toNat / s.mcuCols.toNat) + p.val / 8

/-- Pixel p is inside the image (R414). -/
def pixInside (s : State) (p : Fin 64) : Prop := pixX s p < s.width.toNat ∧ pixY s p < s.height.toNat

/-- The OUT index `3*(Y*WIDTH + X)` (R413). -/
def pixAddr (s : State) (p : Fin 64) : Nat := 3 * (pixY s p * s.width.toNat + pixX s p)

/-- The sample of component c at pixel p (R409). -/
def sample (s : State) (c : Comp) (p : Fin 64) : Byte :=
  reconBlock (s.block c) s.qt[(s.cfg c).qtId].entry p

/-- The three bytes of a pixel at OUT index a. -/
def pixelIs (t : State) (a : Nat) (r g b : Byte) : Prop :=
  t.outByte a = r ∧ t.outByte (a + 1) = g ∧ t.outByte (a + 2) = b

/-- The clamp to 0..255 as a number (R13). -/
def clamped (v : Int) : Int := max 0 (min 255 v)

/-- A data write to something other than OUT is applied: not busy, not frozen, no scan (R106). -/
def writable (s : State) : Prop :=
  s.resetIn = false ∧ s.busy = false ∧ s.err = false ∧ s.scanActive = false

/-- The words of R106 point 4 that are read only. -/
def readOnly (t : Target) : Prop :=
  t = .id ∨ t = .mcuIdx ∨ t = .mcuTotal ∨ t = .mcuGeom ∨ t = .bitPos ∨ (∃ c, t = .pred c) ∨ t = .tableSet ∨
  t = .errMcu ∨ t = .errBitPos ∨ t = .errComp ∨ t = .lastMcu ∨ t = .paramBs ∨ t = .paramOut ∨
  (∃ c i l, t = .htOffset c i l) ∨ (∃ c i k, t = .htCode c i k) ∨ (∃ c i, t = .coefEntry c i) ∨ t = .reserved

/-- The data-write targets of R106 point 5 other than an OUT word. -/
def dataTarget (t : Target) : Prop :=
  t = .frameSize ∨ t = .frameNcomp ∨ (∃ c, t = .compCfg c) ∨ t = .scanCfg ∨ t = .restart ∨ t = .bsLen ∨
  (∃ i k, t = .qtEntry i k) ∨ (∃ c i l, t = .htCount c i l) ∨ (∃ c i k, t = .htSymbol c i k) ∨
  (∃ w, t = .bsWord w)

/-- The next step completes the command word w. -/
def completesNext (s : State) (w : Word) : Prop := ∃ l, s.latch = some l ∧ l.delay = 0 ∧ l.word = w

/-- No command completes in the next step: it is the host's turn (R504, R720). -/
def hostMoves (s : State) : Prop := ∀ l, s.latch = some l → l.delay ≠ 0

/-- The host's next statement is a write of v to the word at a that the core decides on (R100, R701). -/
def writesNext (s : State) (a : Nat) (v : Word) : Prop :=
  hostMoves s ∧ s.resetIn = false ∧ a % 4 = 0 ∧
  ∃ rest, s.program = .wr a v :: rest ∨ s.program = .writeAccess a 4 v :: rest

/-- The next step resets the core: a latched RESET completes, the host writes RESET to CMD, or the reset
input is asserted (R501, R504, R700). -/
def resetsNext (s : State) : Prop :=
  completesNext s 0x00000001#32 ∨ writesNext s 0x00C 0x00000001#32 ∨
  (hostMoves s ∧ ∃ rest, s.program = .resetPin true :: rest)

/-- The OUT bytes of the tiles a RUN from s to r reconstructs: that of the MCU pending, and those from
MCU_IDX before it up to MCU_IDX after it (R503, R705). -/
def runWrites (s r : State) (a : Nat) : Prop :=
  (s.mcuPending = true ∧ a ∈ tileBytes s s.lastMcu.toNat) ∨
  ∃ m, s.mcuIdx.toNat ≤ m ∧ m < r.mcuIdx.toNat ∧ a ∈ tileBytes s m

/-- The values of the cosine table, one row per x, u = 0..7 from left to right (R406). -/
def cosines : List (List Int) :=
  [[5793, 8035, 7568, 6811, 5793, 4551, 3135, 1598],
   [5793, 6811, 3135, -1598, -5793, -8035, -7568, -4551],
   [5793, 4551, -3135, -8035, -5793, 1598, 7568, 6811],
   [5793, 1598, -7568, -4551, 5793, 6811, -3135, -8035],
   [5793, -1598, -7568, 4551, 5793, -6811, -3135, 8035],
   [5793, -4551, -3135, 8035, -5793, -1598, 7568, -6811],
   [5793, -6811, 3135, 1598, -5793, 8035, -7568, 4551],
   [5793, -8035, 7568, -6811, 5793, -4551, 3135, -1598]]

/-- `G[x][u]` by its value (R406). -/
def cosineAt (x u : Nat) : Int := (cosines.getD x []).getD u 0

/-- `Wt(x, y, u, v)` (R407). -/
def weightAt (x y u v : Nat) : Int := if u = 0 ∧ v = 0 then 2 ^ 25 else cosineAt x u * cosineAt y v

/-- A flag as a number. -/
def bit (b : Bool) : Nat := if b then 1 else 0

/-- Four set flags as a number, table 0 in the lowest bit (R56). -/
def fourBits (f : TableId → Bool) : Nat := bit (f 0) + 2 * bit (f 1) + 4 * bit (f 2) + 8 * bit (f 3)

/-- The registers that read as their value even while BUSY, each with its offset and its fields at their
places (R41, R42, R43, R59). -/
def alwaysReadable (s : State) : List (Nat × Nat) :=
  [(0x000, 0x4A504744),
   (0x004, bit s.ctrl.irqDoneEn + 2 * bit s.ctrl.irqErrEn + 4 * bit s.ctrl.rstAlign),
   (0x008, bit s.latch.isSome + 2 * bit s.done + 4 * bit s.err + 8 * bit s.hostViol +
     16 * bit s.scanActive + 32 * bit s.mcuPending + 256 * s.errCode.toNat),
   (0x060, s.params.bsBytes),
   (0x064, s.params.outBytes)]

/-- The fields of a COMPid_CFG at their places (R47). -/
def compCfgNumber (c : CompCfg) : Nat := c.qtId.val + 16 * c.dcId.val + 256 * c.acId.val

/-- The other registers, each with its offset and its fields at their places (R44 to R58); the predictors
are those of `SignedWindowsRule`. -/
def idleReadable (s : State) : List (Nat × Nat) :=
  [(0x00C, 0),
   (0x010, s.width.toNat + 65536 * s.height.toNat),
   (0x014, s.ncomp.toNat),
   (0x018, compCfgNumber (s.cfg .c1)),
   (0x01C, compCfgNumber (s.cfg .c2)),
   (0x020, compCfgNumber (s.cfg .c3)),
   (0x024, s.scanCfg.n.toNat + 16 * s.scanCfg.id0.toNat + 256 * s.scanCfg.id1.toNat +
     4096 * s.scanCfg.id2.toNat),
   (0x028, s.restart.toNat),
   (0x02C, s.bsLen.toNat),
   (0x030, s.mcuIdx.toNat),
   (0x034, s.mcuTotal.toNat),
   (0x038, s.mcuCols.toNat + 65536 * s.mcuRows.toNat),
   (0x03C, 8 * s.byteIdx + s.bitOff.val),
   (0x04C, fourBits s.qtSet + 16 * fourBits (s.htSet .dc) + 256 * fourBits (s.htSet .ac)),
   (0x050, s.errMcu.toNat),
   (0x054, s.errBitPos.toNat),
   (0x058, s.errComp.toNat),
   (0x05C, s.lastMcu.toNat)]

/-- Everything the configuration lock protects (R714, R116). -/
def sameScanInputs (s t : State) : Prop :=
  t.width = s.width ∧ t.height = s.height ∧ t.ncomp = s.ncomp ∧ t.compCfg = s.compCfg ∧
  t.scanCfg = s.scanCfg ∧ t.restart = s.restart ∧ t.bsLen = s.bsLen ∧ t.qt = s.qt ∧ t.dcHt = s.dcHt ∧
  t.acHt = s.acHt ∧ t.bs = s.bs

end Sys2Proof.Claims

open Sys2Proof Sys2Proof.Machine Sys2Proof.Claims

/-! ## Encoding -/

/-- R141 to R143: decoding and encoding are inverse. Decoding the encoding of a well-formed instruction
gives it back, and a word decodes to an instruction only if it is that instruction's encoding, so every
legal word has one meaning and no bit of it is dropped. -/
def Obligations.DecodeEncodeAgree : Prop :=
  (∀ i : Instr, i.wf = true → decode (encode i) = .ok i) ∧
  (∀ (w : Word) (i : Instr), decode w = .ok i → w = encode i ∧ i.wf = true)

/-- R144: a word with OP in 0x08..0xFF, and a word with a known OP whose reserved bits are not zero or
whose T or C is nonzero where the opcode does not use it, is illegal; every other word is legal. -/
def Obligations.IllegalWordsRejected : Prop :=
  ∀ w : Word,
    (8 ≤ (w.extractLsb' 0 8).toNat → decode w = .error .reservedOpcode) ∧
    ((w.extractLsb' 0 8).toNat < 8 → w.legal = false → decode w = .error .reservedBits) ∧
    (w.legal = true → ∃ i, decode w = .ok i)

/-- R143 and R145: the words of the opcode table's rows and of the assembler's examples decode to the
instructions they stand for. -/
def Obligations.KnownWordsDecode : Prop :=
  decode 0x00000000#32 = .ok .nop ∧ decode 0x00000001#32 = .ok .reset ∧
  decode 0x00000202#32 = .ok (.setQt 2) ∧ decode 0x00001103#32 = .ok (.buildHt .ac 1) ∧
  decode 0x00000303#32 = .ok (.buildHt .dc 3) ∧ decode 0x00000004#32 = .ok .startScan ∧
  decode 0x00000005#32 = .ok .decodeMcu ∧ decode 0x00000006#32 = .ok .reconMcu ∧
  decode 0x00000007#32 = .ok .run ∧
  decode 0x00000101#32 = .error .reservedBits ∧ decode 0x00001002#32 = .error .reservedBits

/-! ## Steps and the command life cycle -/

/-- R502: how the engine executes a latched command word when its delay has passed; a word that decodes to
a well-formed instruction runs exactly that instruction. -/
def Obligations.LatchedWordRuns : Prop :=
  ∀ (s : State) (l : Latch), s.latch = some l → l.delay = 0 →
    (∀ i : Instr, decode l.word = .ok i → i.wf = true → step s = exec i s) ∧
    (l.word = 0x00000001#32 → step s = exec .reset s) ∧
    (l.word ≠ 0x00000001#32 → s.err = true → step s = .next (completed s)) ∧
    (s.err = false → (∀ i : Instr, decode l.word ≠ .ok i) → step s = .next (raised 0x01 0 s))

/-- R100, R114, R146, R504, R700, R720: while the latched command's delay has not passed, and while the latch
is empty, the step is the host's turn; a host with no statement leaves the state as it is. WR and a write of
any width do the bus write, RD and a read of any width the bus read, and the answer is recorded; RD binds the
data, and nothing on a bus error (log entries 1 and 22). WAIT ends exactly when BUSY is 0, and with the bus
error under the reset input (log entry 14). The reset input's change does what `BothResetsLeaveResetState`
says of it, and its release changes nothing else. -/
def Obligations.HostTakesTurns : Prop :=
  ∀ s : State,
    (s.latch = none → step s = .next (hostTurn s)) ∧
    (∀ l, s.latch = some l → l.delay ≠ 0 →
      step s = .next (hostTurn { s with latch := some { l with delay := l.delay - 1 } })) ∧
    (s.program = [] → hostTurn s = s) ∧
    (∀ rest, s.program = .wait :: rest →
      hostTurn s =
        if s.resetIn then { s with program := rest, responses := .busError :: s.responses }
        else if s.busy then s
        else { s with program := rest }) ∧
    (∀ a v rest, s.program = .wr a v :: rest →
      hostTurn s = answered (busWrite a 4 v { s with program := rest })) ∧
    (∀ a n v rest, s.program = .writeAccess a n v :: rest →
      hostTurn s = answered (busWrite a n v { s with program := rest })) ∧
    (∀ a n rest, s.program = .readAccess a n :: rest →
      hostTurn s = answered (busRead a n { s with program := rest })) ∧
    (∀ a name rest, s.program = .rd a name :: rest →
      (∀ w, (busRead a 4 { s with program := rest }).1 = .data w →
        hostTurn s =
          { answered (busRead a 4 { s with program := rest }) with bindings := (name, w) :: s.bindings }) ∧
      ((busRead a 4 { s with program := rest }).1 = .busError →
        hostTurn s = answered (busRead a 4 { s with program := rest }))) ∧
    (∀ b rest, s.program = .resetPin b :: rest → hostTurn s = setResetPin b { s with program := rest }) ∧
    setResetPin false s = { s with resetIn := false }

/-- R500: NOP, the word 0x00000000, changes no state besides the life-cycle flags, on a frozen core
too. -/
def Obligations.NopOnlyLifeCycle : Prop :=
  decode 0x00000000#32 = .ok .nop ∧ ∀ s : State, exec .nop s = .next (completed s)

/-- R604, first point: while ERR = 1 every command but RESET completes as a no-op. -/
def Obligations.FrozenCommandIsNoOp : Prop :=
  ∀ (i : Instr) (s : State), s.err = true → i ≠ .reset → exec i s = .next (completed s)

/-- R504: every completion but RESET's leaves the latch empty, BUSY 0 and DONE 1, and raises the done
interrupt if it is enabled (R620); no command touches CTRL, HOST_VIOL, the parameters or BS (R113). -/
def Obligations.CompletionFlags : Prop :=
  ∀ (i : Instr) (s t : State), i ≠ .reset → exec i s = .next t →
    t.latch = none ∧ t.busy = false ∧ t.done = true ∧ t.ctrl = s.ctrl ∧ t.hostViol = s.hostViol ∧
    t.params = s.params ∧ (∀ a, t.bsByte a = s.bsByte a) ∧ (s.ctrl.irqDoneEn = true → t.irq = true)

/-- R504 points 1 to 3: what a host write of a word to CMD does. -/
def Obligations.AcceptanceRule : Prop :=
  ∀ (s : State) (w : Word), s.resetIn = false →
    (w = 0x00000001#32 → exec .reset s = .next (busWrite 0x00C 4 w s).2) ∧
    (w ≠ 0x00000001#32 → s.busy = true →
      busWrite 0x00C 4 w s = (.completed, { s with hostViol := true })) ∧
    (w ≠ 0x00000001#32 → s.busy = false →
      ∃ d, busWrite 0x00C 4 w s =
        (.completed,
          { s with
            latch := some { word := w, rstAlign := s.ctrl.rstAlign, delay := d }
            done := false
            delays := s.delays.tail }))

/-- R505, R716: a change of CTRL while a command is in flight does not change what the command does. -/
def Obligations.InFlightCommandIgnoresCtrl : Prop :=
  ∀ (i : Instr) (s t : State) (l : Latch) (c : Ctrl), i ≠ .reset → s.latch = some l →
    exec i s = .next t → exec i { s with ctrl := c } = .next { t with ctrl := c }

/-- R504, R720, R721: with no host statement to come, a latched command completes after its delay, and
from a state that meets the invariant the completion is a next state with BUSY 0. -/
def Obligations.CommandCompletesAfterDelay : Prop :=
  ∀ (s : State) (l : Latch), s.latch = some l → s.program = [] →
    Host.Core.run Sys2Proof.core (l.delay + 1) s =
      runWord l.word { s with latch := some { l with delay := 0 } } ∧
    (s.Inv → ∃ t : State, Host.Core.run Sys2Proof.core (l.delay + 1) s = .next t ∧ t.busy = false)

/-! ## Reset -/

/-- R700: the state right after power-on, and both reset forms from any state, leave every register and
table at its reset value, the latch empty and irq low, and keep BS; OUT is kept by RESET when no command is
in flight, and by the reset input (that it is kept when the input aborts a command is the model's reading,
log entry 8). The reset input is asserted after its assertion and as before after RESET; the host's side stays
(log entries 1 and 2). -/
def Obligations.BothResetsLeaveResetState : Prop :=
  isReset State.reset State.reset ∧ State.reset.bs = [] ∧ State.reset.out = [] ∧
  ∀ s : State,
    (∃ t, exec .reset s = .next t ∧ isReset s t ∧ t.resetIn = s.resetIn ∧
      (s.busy = false → ∀ a, t.outByte a = s.outByte a)) ∧
    isReset s (setResetPin true s) ∧ (setResetPin true s).resetIn = true ∧
    (∀ a, (setResetPin true s).outByte a = s.outByte a)

/-- R705: RESET during a command leaves no error and no DONE; OUT bytes at and above 3*WIDTH*HEIGHT are
unchanged, and every OUT byte is when the command is neither RECON_MCU nor RUN, or would write none (a frozen
core, no MCU pending, no scan active); for RECON_MCU the bytes outside its tile are unchanged, and for RUN
those outside the tiles of the MCUs it would have reconstructed (log entry 19); the bytes of these tiles are
free draws (a statement for every value of them). -/
def Obligations.ResetAbortsCommand : Prop :=
  ∀ s : State, ∃ t, exec .reset s = .next t ∧ t.err = false ∧ t.done = false ∧
    (∀ a, 3 * s.width.toNat * s.height.toNat ≤ a → t.outByte a = s.outByte a) ∧
    (s.err = true → ∀ a, t.outByte a = s.outByte a) ∧
    (∀ l, s.latch = some l → l.word ≠ 0x00000006#32 → l.word ≠ 0x00000007#32 →
      ∀ a, t.outByte a = s.outByte a) ∧
    (∀ l, s.latch = some l → l.word = 0x00000006#32 →
      (s.mcuPending = false → ∀ a, t.outByte a = s.outByte a) ∧
      (∀ a, a ∉ tileBytes s s.lastMcu.toNat → t.outByte a = s.outByte a) ∧
      (s.Inv → s.err = false → s.mcuPending = true → ∀ a ∈ tileBytes s s.lastMcu.toNat,
        ∃ n, s.draws ≤ n ∧ t.outByte a = Config.freeByte n)) ∧
    (∀ l, s.latch = some l → l.word = 0x00000007#32 →
      (s.scanActive = false → ∀ a, t.outByte a = s.outByte a) ∧
      ∀ r, exec .run s = .next r →
        (∀ a, ¬runWrites s r a → t.outByte a = s.outByte a) ∧
        (s.Inv → s.err = false → ∀ a, runWrites s r a →
          ∃ n, s.draws ≤ n ∧ t.outByte a = Config.freeByte n))

/-- R702: after RESET, and after the reset input is asserted and released, no table is set and START_SCAN
raises BAD_DIMENSIONS. -/
def Obligations.ResetIsNotDecodable : Prop :=
  ∀ s t : State, (exec .reset s = .next t ∨ t = setResetPin false (setResetPin true s)) →
    tableSetWord t = 0 ∧ exec .startScan t = .next (raised 0x03 0 t)

/-! ## Table commands -/

/-- R202: SET_QT sets the flag of its table and changes no entry and nothing else; it raises SEQUENCE
during a scan. -/
def Obligations.SetQtRule : Prop :=
  (∀ w : Word, w &&& 0xFFFFFCFF#32 = 0x00000002#32 →
    decode w = .ok (.setQt (w.extractLsb' 8 2).toFin)) ∧
  ∀ (k : TableId) (s : State),
    (s.err = true → exec (.setQt k) s = .next (completed s)) ∧
    (s.err = false → s.scanActive = true → exec (.setQt k) s = .next (raised 0x0B 0 s)) ∧
    (s.err = false → s.scanActive = false →
      ∃ t, exec (.setQt k) s = .next t ∧
        t = { s with qt := t.qt, latch := none, done := true } ∧
        t.qtSet k = true ∧ t.qt[k].entry = s.qt[k].entry ∧ ∀ j, j ≠ k → t.qt[j] = s.qt[j])

/-- R204, R205, R206: BUILD_HT raises SEQUENCE during a scan and HT_OVERFLOW above 162 symbols, changing
no table; else it writes the offsets and the canonical codes of the counts, marks the table set, and
changes no other table and nothing else. -/
def Obligations.BuildHtRule : Prop :=
  (∀ w : Word, w &&& 0xFFFFECFF#32 = 0x00000003#32 →
    decode w = .ok (.buildHt (if w.getLsbD 12 then .ac else .dc) (w.extractLsb' 8 2).toFin)) ∧
  ∀ (c : HuffClass) (k : TableId) (s : State),
    (s.err = true → exec (.buildHt c k) s = .next (completed s)) ∧
    (s.err = false → s.scanActive = true → exec (.buildHt c k) s = .next (raised 0x0B 0 s)) ∧
    (s.err = false → s.scanActive = false → 162 < total (s.huff c k) →
      exec (.buildHt c k) s = .next (raised 0x02 0 s)) ∧
    (s.err = false → s.scanActive = false → total (s.huff c k) ≤ 162 →
      ∃ t, exec (.buildHt c k) s = .next t ∧
        t = { s with dcHt := t.dcHt, acHt := t.acHt, latch := none, done := true } ∧
        isBuilt (s.huff c k) (t.huff c k) ∧
        ∀ d j, (d, j) ≠ (c, k) → t.huff d j = s.huff d j)

/-- R208: every code a build of at most 162 symbols writes is at most 5275648, below 2^23, and that value
arises with 161 symbols at length 1 and one at length 16. -/
def Obligations.CodesBelowTwoPow23 : Prop :=
  (∀ h : HuffTable, total h ≤ 162 → ∀ i : Fin 162, (buildTable h).code[i].toNat ≤ 5275648) ∧
  (5275648 < 2 ^ 23) ∧
  (∃ h : HuffTable, total h = 162 ∧ count h 0 = 161 ∧ count h 15 = 1 ∧
    (buildTable h).code[(161 : Fin 162)].toNat = 5275648)

/-- R207: when the counts satisfy the Kraft inequality, every code of length L is below 2^L and no code
is a prefix of another. -/
def Obligations.CanonicalCodesPrefixFree : Prop :=
  ∀ h : HuffTable, total h ≤ 162 →
    ((List.finRange 16).map (fun l => count h l * 2 ^ (15 - l.val))).sum ≤ 2 ^ 16 →
    ∀ (i j : Fin 162) (l m : Fin 16), inClass (buildTable h) i l → inClass (buildTable h) j m →
      (buildTable h).code[i].toNat < 2 ^ (l.val + 1) ∧
      (i ≠ j → l ≤ m →
        (buildTable h).code[j].toNat / 2 ^ (m.val - l.val) ≠ (buildTable h).code[i].toNat)

/-! ## Entropy decoder -/

/-- R300, R303: ReadBit returns the next bit, most significant first in its byte, and moves the cursor on
by one bit; at BS_LEN it raises BS_EXHAUSTED and changes nothing. Align moves to the next byte boundary,
and does nothing at one. -/
def Obligations.ReadBitAndAlignRule : Prop :=
  ∀ (comp : BitVec 2) (s : State),
    (s.bsLen.toNat ≤ s.byteIdx → readBit comp s = .stop (.error .bsExhausted comp) s) ∧
    (s.byteIdx < s.bsLen.toNat → s.byteIdx < s.params.bsBytes →
      ∃ t, readBit comp s = .done ((s.bsByte s.byteIdx).getLsbD (7 - s.bitOff.val)) t ∧
        cursorOnly s t ∧
        (s.bitOff.val = 7 → t.byteIdx = s.byteIdx + 1 ∧ t.bitOff.val = 0) ∧
        (s.bitOff.val ≠ 7 → t.byteIdx = s.byteIdx ∧ t.bitOff.val = s.bitOff.val + 1)) ∧
    (s.bitOff = 0 → alignCursor s = s) ∧
    (s.bitOff ≠ 0 → alignCursor s = { s with bitOff := 0, byteIdx := s.byteIdx + 1 })

/-- R301, R302: ReadBits gives the next n payload bits as a number below 2^n, first bit most significant,
and moves the cursor past them; when fewer are left it raises BS_EXHAUSTED with every bit consumed. -/
def Obligations.ReadBitsRule : Prop :=
  ∀ (comp : BitVec 2) (n : Nat) (s : State), s.bsLen.toNat ≤ s.params.bsBytes →
    payloadField s s.cursor n < 2 ^ n ∧
    readBits comp 0 s = .done 0 s ∧
    (s.cursor + n ≤ 8 * s.bsLen.toNat →
      ∃ t, readBits comp n s = .done (payloadField s s.cursor n) t ∧ t.cursor = s.cursor + n ∧
        cursorOnly s t) ∧
    (0 < n → 8 * s.bsLen.toNat < s.cursor + n →
      ∃ t, readBits comp n s = .stop (.error .bsExhausted comp) t ∧
        t.cursor = max s.cursor (8 * s.bsLen.toNat) ∧ cursorOnly s t)

/-- R306: Extend, its two ranges, its fit in 16 bits, and that it is a bijection from the n-bit fields
onto the two ranges. -/
def Obligations.ExtendRule : Prop :=
  ∀ n v : Nat, v < 2 ^ n →
    (n = 0 → extend v n = 0) ∧
    (1 ≤ n → v < 2 ^ (n - 1) →
      extend v n = (v : Int) - (2 ^ n - 1) ∧ -(2 ^ n - 1) ≤ extend v n ∧ extend v n ≤ -(2 ^ (n - 1))) ∧
    (1 ≤ n → 2 ^ (n - 1) ≤ v →
      extend v n = (v : Int) ∧ 2 ^ (n - 1) ≤ extend v n ∧ extend v n ≤ 2 ^ n - 1) ∧
    (n ≤ 15 → (wrap16 (extend v n)).toInt = extend v n) ∧
    (∀ u, u < 2 ^ n → extend u n = extend v n → u = v) ∧
    (1 ≤ n → ∀ x : Int,
      ((-(2 ^ n - 1) ≤ x ∧ x ≤ -(2 ^ (n - 1))) ∨ (2 ^ (n - 1) ≤ x ∧ x ≤ 2 ^ n - 1)) →
      ∃ u, u < 2 ^ n ∧ extend u n = x)

/-- R307: with a built table, if the next L payload bits are the code of a slot of length L, HuffDecode
gives that slot's symbol and consumes exactly L bits. It holds for over-subscribed tables too. -/
def Obligations.HuffDecodeFindsCode : Prop :=
  ∀ (h : HuffTable) (comp : BitVec 2) (s : State) (i : Fin 162) (l : Fin 16),
    tableWf h → h.set = true → s.bsLen.toNat ≤ s.params.bsBytes →
    inClass h i l → payloadField s s.cursor (l.val + 1) = h.code[i].toNat →
    s.cursor + (l.val + 1) ≤ 8 * s.bsLen.toNat →
    ∃ t, huffDecode h comp s = .done h.symbol[i] t ∧ t.cursor = s.cursor + (l.val + 1) ∧ cursorOnly s t

/-- R307, R301, R602: when no code matches, HuffDecode raises HUFF_NO_MATCH after the 16th bit; if fewer
than 16 bits are left and no code of those bits matches, it raises BS_EXHAUSTED instead, with every bit
consumed. -/
def Obligations.HuffDecodeNoMatch : Prop :=
  ∀ (h : HuffTable) (comp : BitVec 2) (s : State), tableWf h → s.bsLen.toNat ≤ s.params.bsBytes →
    (∀ (i : Fin 162) (l : Fin 16), inClass h i l → s.cursor + (l.val + 1) ≤ 8 * s.bsLen.toNat →
      payloadField s s.cursor (l.val + 1) ≠ h.code[i].toNat) →
    (s.cursor + 16 ≤ 8 * s.bsLen.toNat →
      ∃ t, huffDecode h comp s = .stop (.error .huffNoMatch comp) t ∧ t.cursor = s.cursor + 16 ∧
        cursorOnly s t) ∧
    (8 * s.bsLen.toNat < s.cursor + 16 →
      ∃ t, huffDecode h comp s = .stop (.error .bsExhausted comp) t ∧
        t.cursor = max s.cursor (8 * s.bsLen.toNat) ∧ cursorOnly s t)

/-- R308, R309: a DC code that does not decode stops the block; a DC category above 15 raises DC_CATEGORY
before any magnitude bit is read; else the predictor takes the sum with the difference, wrapped to 16 bits,
and is stored at natural index 0; no other predictor or coefficient changes. -/
def Obligations.DcCoefficientRule : Prop :=
  ∀ (c : Comp) (s : State),
    (∀ e t, huffDecode (s.huff .dc (s.cfg c).dcId) c.bits s = .stop e t → decodeDc c s = .stop e t) ∧
    ∀ (t : State) (n : Byte), huffDecode (s.huff .dc (s.cfg c).dcId) c.bits s = .done n t →
      (15 < n.toNat → decodeDc c s = .stop (.error .dcCategory c.bits) t) ∧
      (n.toNat ≤ 15 → ∀ v u, readBits c.bits n.toNat t = .done v u →
        ∃ w, decodeDc c s = .done () w ∧
          w = { u with pred := w.pred, coef := w.coef } ∧
          w.predOf c = BitVec.ofInt 16 ((u.predOf c).toInt + extend v n.toNat) ∧
          (w.block c)[(0 : Fin 64)] = w.predOf c ∧
          (∀ i : Fin 64, i ≠ 0 → (w.block c)[i] = (u.block c)[i]) ∧
          ∀ d, d ≠ c → w.predOf d = u.predOf d ∧ w.block d = u.block d) ∧
      (n.toNat ≤ 15 → ∀ e u, readBits c.bits n.toNat t = .stop e u → decodeDc c s = .stop e u)

/-- R310: AC decoding from position 1, symbol by symbol: end of block, a run of 16 zeros, a run and a
coefficient at its zigzag position, the two overruns, and a full block. -/
def Obligations.AcCoefficientRule : Prop :=
  ∀ (c : Comp) (s : State),
    decodeAc c s = acFrom c 1 s ∧
    (∀ k, 64 ≤ k → acFrom c k s = .done () s) ∧
    (∀ k e t, k < 64 → huffDecode (s.huff .ac (s.cfg c).acId) c.bits s = .stop e t →
      acFrom c k s = .stop e t) ∧
    (∀ k y t, k < 64 → huffDecode (s.huff .ac (s.cfg c).acId) c.bits s = .done y t →
      (y = 0x00 → acFrom c k s = .done () t) ∧
      (y = 0xF0 → 64 < k + 16 → acFrom c k s = .stop (.error .acOverrun c.bits) t) ∧
      (y = 0xF0 → k + 16 ≤ 64 → acFrom c k s = acFrom c (k + 16) t) ∧
      (y ≠ 0x00 → y ≠ 0xF0 → 63 < k + (y.extractLsb' 4 4).toNat →
        acFrom c k s = .stop (.error .acOverrun c.bits) t) ∧
      (y ≠ 0x00 → y ≠ 0xF0 → ∀ hk : k + (y.extractLsb' 4 4).toNat < 64,
        (∀ e u, readBits c.bits (y.extractLsb' 0 4).toNat t = .stop e u → acFrom c k s = .stop e u) ∧
        (∀ v u, readBits c.bits (y.extractLsb' 0 4).toNat t = .done v u →
          acFrom c k s =
            acFrom c (k + (y.extractLsb' 4 4).toNat + 1)
              (u.withCoef c (zz ⟨k + (y.extractLsb' 4 4).toNat, hk⟩)
                (BitVec.ofInt 16 (extend v (y.extractLsb' 0 4).toNat))))))

/-- R312: START_SCAN's checks in their order, each with its error and component, and the scan it begins
when none fails. -/
def Obligations.StartScanRule : Prop :=
  decode 0x00000004#32 = .ok .startScan ∧
  ∀ s : State,
    (s.err = true → exec .startScan s = .next (completed s)) ∧
    (s.err = false →
      let ids := [s.scanCfg.id0, s.scanCfg.id1, s.scanCfg.id2].take s.scanCfg.n.toNat
      if s.width = 0 ∨ s.height = 0 then exec .startScan s = .next (raised 0x03 0 s)
      else if ¬(s.ncomp.toNat = 1 ∨ s.ncomp.toNat = 3) then exec .startScan s = .next (raised 0x04 0 s)
      else if s.scanCfg.n ≠ s.ncomp then exec .startScan s = .next (raised 0x05 0 s)
      else if 0 ∈ ids ∨ ¬ids.Nodup then exec .startScan s = .next (raised 0x05 0 s)
      else
        match (ids.filterMap Comp.ofBits).find? (fun c => (unbound s c).isSome) with
        | some c => exec .startScan s = .next (raised ((unbound s c).getD 0) c.bits s)
        | none =>
          if s.params.bsBytes < s.bsLen.toNat then exec .startScan s = .next (raised 0x09 0 s)
          else if s.params.outBytes < 3 * s.width.toNat * s.height.toNat then
            exec .startScan s = .next (raised 0x0A 0 s)
          else ∃ t, exec .startScan s = .next t ∧ scanBegun s t)

/-- R313, R311, R315, R316: DECODE_MCU raises SEQUENCE with no scan active or every MCU decoded; else it
passes the restart boundary, with the RST_ALIGN in the latch, and decodes one block per scan component in
scan order; on success LAST_MCU, MCU_IDX and MCU_PENDING move on, and on an error they do not. The error is
one of BS_EXHAUSTED 0x10, HUFF_NO_MATCH 0x11, DC_CATEGORY 0x12 and AC_OVERRUN 0x13, with the number of R601. A
block is cleared, and then its DC and its AC coefficients are decoded. -/
def Obligations.DecodeMcuRule : Prop :=
  decode 0x00000005#32 = .ok .decodeMcu ∧
  (∀ u, decodeBlocks [] u = .done () u) ∧
  (∀ (c : Comp) (rest : List (BitVec 2)) (u z : State),
    z = { u with coef := u.coef.set c.idx (Vector.replicate 64 0) } →
    (∀ e v, decodeDc c z = .stop e v → decodeBlocks (c.bits :: rest) u = .stop e v) ∧
    (∀ v e x, decodeDc c z = .done () v → decodeAc c v = .stop e x →
      decodeBlocks (c.bits :: rest) u = .stop e x) ∧
    (∀ v x, decodeDc c z = .done () v → decodeAc c v = .done () x →
      decodeBlocks (c.bits :: rest) u = decodeBlocks rest x)) ∧
  ∀ s : State,
    (s.err = true → exec .decodeMcu s = .next (completed s)) ∧
    (s.err = false → (s.scanActive = false ∨ s.mcuTotal.toNat ≤ s.mcuIdx.toNat) →
      exec .decodeMcu s = .next (raised 0x0B 0 s)) ∧
    (s.err = false → s.scanActive = true → s.mcuIdx.toNat < s.mcuTotal.toNat →
      ∀ l, s.latch = some l →
        (∀ t, decodeBlocks (scanIds s.scanCfg) (afterBoundary l.rstAlign s) = .done () t →
          exec .decodeMcu s =
            .next { t with
              lastMcu := s.mcuIdx, mcuIdx := s.mcuIdx + 1, mcuPending := true, latch := none,
              done := true }) ∧
        (∀ code comp t,
          decodeBlocks (scanIds s.scanCfg) (afterBoundary l.rstAlign s) = .stop (.error code comp) t →
          ∃ number, (code, number) ∈ decodeErrors ∧ exec .decodeMcu s = .next (raised number comp t)))

/-- R313, R315, R308, R309, R310: an MCU of one component whose payload bits, from the cursor that the
restart boundary leaves, are a DC code of category n ≤ 15, its n magnitude bits and the code of end of block
decodes: DC is the wrapped sum with the predictor that the boundary leaves, the other coefficients are 0, the
cursor moves past exactly these bits, and the MCU is pending. It holds with and without a restart interval;
with an empty latch RST_ALIGN is the model's choice (log entry 12). -/
def Obligations.DcOnlyMcuDecodes : Prop :=
  ∀ (s u : State) (c : Comp) (i j : Fin 162) (l m : Fin 16),
    s.Inv → s.err = false → s.scanActive = true → s.mcuIdx.toNat < s.mcuTotal.toNat →
    u = afterBoundary s.sampledAlign s → scanIds s.scanCfg = [c.bits] →
    inClass (s.huff .dc (s.cfg c).dcId) i l → inClass (s.huff .ac (s.cfg c).acId) j m →
    (s.huff .dc (s.cfg c).dcId).symbol[i].toNat ≤ 15 → (s.huff .ac (s.cfg c).acId).symbol[j] = 0 →
    payloadField s u.cursor (l.val + 1) = (s.huff .dc (s.cfg c).dcId).code[i].toNat →
    payloadField s (u.cursor + (l.val + 1) + (s.huff .dc (s.cfg c).dcId).symbol[i].toNat) (m.val + 1) =
      (s.huff .ac (s.cfg c).acId).code[j].toNat →
    u.cursor + (l.val + 1) + (s.huff .dc (s.cfg c).dcId).symbol[i].toNat + (m.val + 1) ≤
      8 * s.bsLen.toNat →
    ∃ t, exec .decodeMcu s = .next t ∧ t.err = false ∧
      t.cursor =
        u.cursor + (l.val + 1) + (s.huff .dc (s.cfg c).dcId).symbol[i].toNat + (m.val + 1) ∧
      t.predOf c =
        BitVec.ofInt 16 ((u.predOf c).toInt +
          extend (payloadField s (u.cursor + (l.val + 1)) (s.huff .dc (s.cfg c).dcId).symbol[i].toNat)
            (s.huff .dc (s.cfg c).dcId).symbol[i].toNat) ∧
      (t.block c)[(0 : Fin 64)] = t.predOf c ∧ (∀ k : Fin 64, k ≠ 0 → (t.block c)[k] = 0) ∧
      t.mcuIdx = s.mcuIdx + 1 ∧ t.lastMcu = s.mcuIdx ∧ t.mcuPending = true

/-- R315, R318: at a restart boundary what DECODE_MCU does does not depend on the predictors before it. -/
def Obligations.RestartForgetsPredictors : Prop :=
  ∀ (s : State) (p : Vector Half 3), s.err = false → s.scanActive = true →
    s.mcuIdx.toNat < s.mcuTotal.toNat → s.restart ≠ 0 → s.mcuIdx ≠ 0 →
    s.mcuIdx.toNat % s.restart.toNat = 0 →
    exec .decodeMcu { s with pred := p } = exec .decodeMcu s

/-- R313, R603: DECODE_MCU changes only the decode position, the predictors, the coefficients, and at its
completion the error registers, the latch and DONE; on an error MCU_IDX, LAST_MCU and MCU_PENDING keep
their values, the error registers hold the position and the code is one of its five. -/
def Obligations.DecodeMcuFrame : Prop :=
  ∀ s t : State, exec .decodeMcu s = .next t →
    t = { s with
      byteIdx := t.byteIdx, bitOff := t.bitOff, pred := t.pred, coef := t.coef, mcuIdx := t.mcuIdx,
      lastMcu := t.lastMcu, mcuPending := t.mcuPending, err := t.err, errCode := t.errCode,
      errMcu := t.errMcu, errBitPos := t.errBitPos, errComp := t.errComp, latch := none, done := true } ∧
    (∀ a, t.bsByte a = s.bsByte a ∧ t.outByte a = s.outByte a) ∧
    (s.err = false → t.err = true →
      t.mcuIdx = s.mcuIdx ∧ t.lastMcu = s.lastMcu ∧ t.mcuPending = s.mcuPending ∧
      t.errMcu = s.mcuIdx ∧ t.errBitPos = BitVec.ofNat 32 (8 * t.byteIdx + t.bitOff.val) ∧
      t.errCode ∈ [(0x0B : Byte), 0x10, 0x11, 0x12, 0x13])

/-- R304: no command but START_SCAN and RESET moves the bit cursor back. -/
def Obligations.CursorNeverGoesBack : Prop :=
  ∀ (i : Instr) (s t : State), i ≠ .startScan → i ≠ .reset → exec i s = .next t →
    8 * s.byteIdx + s.bitOff.val ≤ 8 * t.byteIdx + t.bitOff.val

/-! ## Reconstruction -/

/-- R402, R403: ZZ is a permutation with ZZ[0] = 0 and ZZ[63] = 63, and it is the walk over the
anti-diagonals, up on even ones and down on odd ones. -/
def Obligations.ZigzagIsTheDiagonalWalk : Prop :=
  Function.Bijective zz ∧ zz 0 = 0 ∧ zz 63 = 63 ∧
  ∀ k : Fin 63,
    let r := (zz k.castSucc).val / 8
    let c := (zz k.castSucc).val % 8
    (zz k.succ).val =
      if (r + c) % 2 = 0 then
        if c = 7 then 8 * (r + 1) + c else if r = 0 then c + 1 else 8 * (r - 1) + (c + 1)
      else
        if r = 7 then 8 * r + (c + 1) else if c = 0 then 8 * (r + 1) else 8 * (r + 1) + (c - 1)

/-- R404, R407: a dequantized coefficient fits 32 bits, and the accumulator of the inverse DCT stays below
2^62 in magnitude, for every block and table. -/
def Obligations.ReconArithmeticFits : Prop :=
  ∀ (coef q : Vector Half 64) (x y : Fin 8),
    (∀ i : Fin 64, -2147450880 ≤ dequant coef q i ∧ dequant coef q i ≤ 2147385345) ∧
    -(2 ^ 62) < idctAcc coef q x y ∧ idctAcc coef q x y < 2 ^ 62

/-- R404, R406 to R409: the sample of every pixel of a block, from the weights with R406's values written
out: the weighted sum of the dequantized coefficients plus 2^27, floored after division by 2^28, plus 128,
clamped. A block whose only nonzero dequantized coefficient is D[0] has every sample
clamp8(128 + floor(D[0]/8 + 1/2)); an all-zero block has every sample 128, whatever the table is. -/
def Obligations.BlockSamplesRule : Prop :=
  (∀ (coef q : Vector Half 64) (p : Fin 64),
    ((reconBlock coef q p).toNat : Int) =
      clamped (((∑ v : Fin 8, ∑ u : Fin 8, weightAt (p.val % 8) (p.val / 8) u.val v.val *
        (coef[8 * v.val + u.val].toInt * (q[8 * v.val + u.val].toNat : Int))) + 2 ^ 27) / 2 ^ 28 + 128)) ∧
  (∀ (coef q : Vector Half 64), (∀ i : Fin 64, i ≠ 0 → coef[i].toInt * (q[i].toNat : Int) = 0) →
    ∀ p : Fin 64,
      ((reconBlock coef q p).toNat : Int) =
        clamped (128 + (coef[(0 : Fin 64)].toInt * (q[(0 : Fin 64)].toNat : Int) + 4) / 8)) ∧
  (∀ (q : Vector Half 64) (p : Fin 64), reconBlock (Vector.replicate 64 0) q p = 128)

/-- R410: the colour conversion, channel by channel, with floor division for the shift; neutral chroma
gives gray. -/
def Obligations.ColourConversionRule : Prop :=
  ∀ y cb cr : Byte,
    ((ycc y cb cr).r.toNat : Int) =
      clamped (y.toNat + (91881 * ((cr.toNat : Int) - 128) + 32768) / 65536) ∧
    ((ycc y cb cr).g.toNat : Int) =
      clamped (y.toNat +
        (-22554 * ((cb.toNat : Int) - 128) - 46802 * ((cr.toNat : Int) - 128) + 32768) / 65536) ∧
    ((ycc y cb cr).b.toNat : Int) =
      clamped (y.toNat + (116130 * ((cb.toNat : Int) - 128) + 32768) / 65536) ∧
    ycc y 128 128 = { r := y, g := y, b := y }

/-- R413: RECON_MCU raises SEQUENCE with no MCU pending. With one pending, in a state that meets the
invariant, it completes: every pixel of the tile inside the image has its colour in its three OUT bytes,
every other OUT byte is as before, MCU_PENDING falls, SCAN_ACTIVE falls after the last MCU, and nothing
else changes. -/
def Obligations.ReconMcuRule : Prop :=
  decode 0x00000006#32 = .ok .reconMcu ∧
  ∀ s : State,
    (s.err = true → exec .reconMcu s = .next (completed s)) ∧
    (s.err = false → s.mcuPending = false → exec .reconMcu s = .next (raised 0x0B 0 s)) ∧
    (s.Inv → s.err = false → s.mcuPending = true →
      ∃ t, exec .reconMcu s = .next t ∧
        t = { s with
          out := t.out, mcuPending := false,
          scanActive := if s.mcuIdx = s.mcuTotal then false else s.scanActive,
          latch := none, done := true } ∧
        (∀ p, pixInside s p → s.ncomp.toNat = 3 →
          pixelIs t (pixAddr s p)
            (ycc (sample s .c1 p) (sample s .c2 p) (sample s .c3 p)).r
            (ycc (sample s .c1 p) (sample s .c2 p) (sample s .c3 p)).g
            (ycc (sample s .c1 p) (sample s .c2 p) (sample s .c3 p)).b) ∧
        (∀ p c, pixInside s p → s.ncomp.toNat ≠ 3 → c.bits = s.scanCfg.id0 →
          pixelIs t (pixAddr s p) (sample s c p) (sample s c p) (sample s c p)) ∧
        (∀ a, (∀ p, pixInside s p → a ≠ pixAddr s p ∧ a ≠ pixAddr s p + 1 ∧ a ≠ pixAddr s p + 2) →
          t.outByte a = s.outByte a))

/-- R113, R413: RECON_MCU and RUN leave every OUT byte at and above 3*WIDTH*HEIGHT as it was. -/
def Obligations.OutsideImageNeverWritten : Prop :=
  ∀ (s t : State) (a : Nat), (exec .reconMcu s = .next t ∨ exec .run s = .next t) →
    3 * s.width.toNat * s.height.toNat ≤ a → t.outByte a = s.outByte a

/-- R414, R314: in a configured scan every pixel of the image lies in exactly one place of exactly one
MCU. -/
def Obligations.EachPixelInOneTile : Prop :=
  ∀ (s : State) (x y : Nat), s.scanConfigured → x < s.width.toNat → y < s.height.toNat →
    ∃! mp : Nat × Fin 64,
      mp.1 < s.mcuTotal.toNat ∧ imageX s mp.1 mp.2 = x ∧ imageY s mp.1 mp.2 = y

/-! ## RUN -/

/-- R503: RUN raises SEQUENCE with no scan active, and completes with no MCU pending and none left. With an
MCU pending it is a RECON_MCU, and then RUN
again unless the scan is over. With none pending it is a DECODE_MCU, and unless that raises an error a
RECON_MCU, and then RUN again unless the scan is over. -/
def Obligations.RunIsRepeatedStepping : Prop :=
  decode 0x00000007#32 = .ok .run ∧
  ∀ s : State,
    (s.err = true → exec .run s = .next (completed s)) ∧
    (s.err = false → s.scanActive = false → exec .run s = .next (raised 0x0B 0 s)) ∧
    (s.err = false → s.scanActive = true → s.mcuPending = false → s.mcuTotal.toNat ≤ s.mcuIdx.toNat →
      exec .run s = .next (completed s)) ∧
    (∀ s2, s.err = false → s.scanActive = true → s.mcuPending = true → exec .reconMcu s = .next s2 →
      exec .run s = if s2.scanActive then exec .run { s2 with latch := s.latch } else .next s2) ∧
    (∀ s1, s.err = false → s.scanActive = true → s.mcuPending = false →
      s.mcuIdx.toNat < s.mcuTotal.toNat → exec .decodeMcu s = .next s1 →
      (s1.err = true → exec .run s = .next s1) ∧
      (s1.err = false → ∀ s2, exec .reconMcu s1 = .next s2 →
        exec .run s =
          if s2.scanActive then exec .run { s2 with latch := s.latch } else .next s2))

/-- R503: from a state that meets the invariant RUN completes; if no error was raised no MCU is
left to decode, none is pending and the scan is over, and if one was, the error registers hold the MCU and the
bit position at which it stopped. -/
def Obligations.RunCompletes : Prop :=
  ∀ s : State, s.Inv → s.err = false → s.scanActive = true →
    ∃ t, exec .run s = .next t ∧
      (t.err = false → t.scanActive = false ∧ t.mcuPending = false ∧ t.mcuIdx = s.mcuTotal) ∧
      (t.err = true →
        t.errMcu = t.mcuIdx ∧ t.mcuIdx.toNat < s.mcuTotal.toNat ∧
        t.errBitPos = BitVec.ofNat 32 (8 * t.byteIdx + t.bitOff.val))

/-- R503, corner case: with every MCU decoded and one pending, RUN only reconstructs it and ends the
scan. -/
def Obligations.RunReconstructsLastMcu : Prop :=
  ∀ s : State, s.Inv → s.err = false → s.mcuPending = true → s.mcuIdx = s.mcuTotal →
    exec .run s = exec .reconMcu s ∧
    ∃ t, exec .run s = .next t ∧ t.scanActive = false ∧ t.mcuPending = false ∧ t.err = false ∧
      t.mcuIdx = s.mcuIdx ∧ t.coef = s.coef

/-- R503, R413: RUN changes only what its bodies change; tables, configuration, CTRL and BS stay, and so
does every OUT byte outside the tiles of the MCUs it reconstructs: the one pending, and those from MCU_IDX
before it up to MCU_IDX after it. -/
def Obligations.RunFrame : Prop :=
  ∀ s t : State, exec .run s = .next t →
    t = { s with
      byteIdx := t.byteIdx, bitOff := t.bitOff, pred := t.pred, coef := t.coef, mcuIdx := t.mcuIdx,
      lastMcu := t.lastMcu, mcuPending := t.mcuPending, scanActive := t.scanActive, out := t.out,
      err := t.err, errCode := t.errCode, errMcu := t.errMcu, errBitPos := t.errBitPos,
      errComp := t.errComp, latch := none, done := true } ∧
    (∀ a, t.bsByte a = s.bsByte a) ∧
    (∀ a, (s.mcuPending = true → a ∉ tileBytes s s.lastMcu.toNat) →
      (∀ m, s.mcuIdx.toNat ≤ m → m < t.mcuIdx.toNat → a ∉ tileBytes s m) →
      t.outByte a = s.outByte a)

/-! ## The slave port -/

/-- R100, R701: an access of another width than 4 bytes, a misaligned one, and any access under the reset
input answers a bus error and has no effect; every other access to the window (R101) completes. -/
def Obligations.UnsupportedAccessHasNoEffect : Prop :=
  ∀ (a n : Nat) (v : Word) (s : State),
    ((n ≠ 4 ∨ a % 4 ≠ 0 ∨ s.resetIn = true) →
      busRead a n s = (.busError, s) ∧ busWrite a n v s = (.busError, s)) ∧
    (n = 4 → a % 4 = 0 → a < 0x3000000 → s.resetIn = false →
      (∃ w, (busRead a n s).1 = .data w) ∧ (busWrite a n v s).1 = .completed)

/-- R102, R108 to R111: the address map, word by word, for legal parameters. -/
def Obligations.AddressMapRule : Prop :=
  ∀ p : Params, p.legal = true →
    ([0x000, 0x004, 0x008, 0x00C, 0x010, 0x014, 0x018, 0x01C, 0x020, 0x024, 0x028, 0x02C, 0x030, 0x034,
      0x038, 0x03C, 0x040, 0x044, 0x048, 0x04C, 0x050, 0x054, 0x058, 0x05C, 0x060, 0x064].map
        (decodeAddr p) =
      [.id, .ctrl, .status, .cmd, .frameSize, .frameNcomp, .compCfg .c1, .compCfg .c2, .compCfg .c3,
       .scanCfg, .restart, .bsLen, .mcuIdx, .mcuTotal, .mcuGeom, .bitPos, .pred .c1, .pred .c2, .pred .c3,
       .tableSet, .errMcu, .errBitPos, .errComp, .lastMcu, .paramBs, .paramOut]) ∧
    (∀ (t : TableId) (k : Fin 64), decodeAddr p (0x400 + 0x100 * t.val + 4 * k.val) = .qtEntry t k) ∧
    (∀ (c : HuffClass) (t : TableId) (l : Fin 16),
      decodeAddr p (0x1000 + 0x800 * (4 * c.bit.toNat + t.val) + 4 * l.val) = .htCount c t l) ∧
    (∀ (c : HuffClass) (t : TableId) (l : Fin 17),
      decodeAddr p (0x1000 + 0x800 * (4 * c.bit.toNat + t.val) + 0x040 + 4 * l.val) = .htOffset c t l) ∧
    (∀ (c : HuffClass) (t : TableId) (i : Fin 162),
      decodeAddr p (0x1000 + 0x800 * (4 * c.bit.toNat + t.val) + 0x100 + 4 * i.val) = .htSymbol c t i) ∧
    (∀ (c : HuffClass) (t : TableId) (i : Fin 162),
      decodeAddr p (0x1000 + 0x800 * (4 * c.bit.toNat + t.val) + 0x400 + 4 * i.val) = .htCode c t i) ∧
    (∀ (c : Comp) (i : Fin 64), decodeAddr p (0x5000 + 0x100 * c.idx.val + 4 * i.val) = .coefEntry c i) ∧
    (∀ w, 4 * w < p.bsBytes → decodeAddr p (0x1000000 + 4 * w) = .bsWord w) ∧
    (∀ w, 4 * w < p.outBytes → decodeAddr p (0x2000000 + 4 * w) = .outWord w)

/-- R103, 93 I14: the reserved ranges of the map, the unassigned words of the HT window and the rest of the
window past OUT read as 0, and a write to them changes nothing; while BUSY too, which is the model's reading
(log entry 15). -/
def Obligations.ReservedWordsRule : Prop :=
  ∀ (s : State) (a : Nat) (v : Word), s.params.legal = true → s.resetIn = false → a % 4 = 0 →
    ((0x068 ≤ a ∧ a < 0x400) ∨ (0x800 ≤ a ∧ a < 0x1000) ∨ (0x5300 ≤ a ∧ a < 0x1000000) ∨
      (0x1000000 + s.params.bsBytes ≤ a ∧ a < 0x2000000) ∨ (0x2000000 + s.params.outBytes ≤ a ∧ a < 0x3000000) ∨
      (0x1000 ≤ a ∧ a < 0x5000 ∧
        ((0x084 ≤ a % 0x800 ∧ a % 0x800 < 0x100) ∨ (0x388 ≤ a % 0x800 ∧ a % 0x800 < 0x400) ∨
          0x688 ≤ a % 0x800))) →
    busRead a 4 s = (.data 0, s) ∧ busWrite a 4 v s = (.completed, s)

/-- R106: the order in which the effect of a host write to a word of the window is decided. -/
def Obligations.HostWriteOrder : Prop :=
  ∀ (s : State) (a : Nat) (v : Word), s.resetIn = false → a % 4 = 0 → a < 0x3000000 →
    (decodeAddr s.params a = .ctrl →
      busWrite a 4 v s = (.completed, { s with
        ctrl := { irqDoneEn := v.getLsbD 0, irqErrEn := v.getLsbD 1, rstAlign := v.getLsbD 2 } })) ∧
    (decodeAddr s.params a = .status →
      busWrite a 4 v s = (.completed, { s with
        done := if v.getLsbD 1 then false else s.done,
        hostViol := if v.getLsbD 3 then false else s.hostViol })) ∧
    (decodeAddr s.params a = .cmd → busWrite a 4 v s = (.completed, acceptCommand v s)) ∧
    (readOnly (decodeAddr s.params a) → busWrite a 4 v s = (.completed, s)) ∧
    (∀ w, decodeAddr s.params a = .outWord w →
      busWrite a 4 v s =
        (.completed,
          if s.busy then { s with hostViol := true } else applyData (.outWord w) v s)) ∧
    (dataTarget (decodeAddr s.params a) →
      busWrite a 4 v s =
        (.completed,
          if s.busy then { s with hostViol := true }
          else if s.err then s
          else if s.scanActive then { s with hostViol := true }
          else applyData (decodeAddr s.params a) v s))

/-- R107, R41 to R59, R108 to R110: the value of a host read of a word of the window, in the rule's order and
field by field, and that a read changes no state but the model's draw counter; on a frozen core and during a
scan too (the COEF window and the predictors are in `SignedWindowsRule`). While BUSY every word but ID,
CTRL, STATUS, PARAM_BS, PARAM_OUT and the reserved ones is a free draw (a statement for every value of it):
for CMD and the reserved words that is the model's reading (log entries 4 and 15). -/
def Obligations.HostReadRule : Prop :=
  ∀ s : State, s.resetIn = false →
    (∀ r ∈ alwaysReadable s, busRead r.1 4 s = (.data (BitVec.ofNat 32 r.2), s)) ∧
    (∀ a, a % 4 = 0 → a < 0x3000000 → decodeAddr s.params a = .reserved →
      busRead a 4 s = (.data 0, s)) ∧
    (s.busy = true → ∀ a, a % 4 = 0 → a < 0x3000000 →
      decodeAddr s.params a ∉ [.id, .ctrl, .status, .paramBs, .paramOut, .reserved] →
      busRead a 4 s = (.data (Config.freeWord s.draws), { s with draws := s.draws + 1 })) ∧
    (s.busy = false →
      (∀ r ∈ idleReadable s, busRead r.1 4 s = (.data (BitVec.ofNat 32 r.2), s)) ∧
      (∀ (t : TableId) (k : Fin 64),
        busRead (0x400 + 0x100 * t.val + 4 * k.val) 4 s =
          (.data (BitVec.ofNat 32 (s.qt[t].entry[zz k]).toNat), s)) ∧
      (∀ (c : HuffClass) (t : TableId) (l : Fin 16),
        busRead (0x1000 + 0x800 * (4 * c.bit.toNat + t.val) + 4 * l.val) 4 s =
          (.data (BitVec.ofNat 32 ((s.huff c t).count[l]).toNat), s)) ∧
      (∀ (c : HuffClass) (t : TableId) (i : Fin 162),
        busRead (0x1000 + 0x800 * (4 * c.bit.toNat + t.val) + 0x100 + 4 * i.val) 4 s =
          (.data (BitVec.ofNat 32 ((s.huff c t).symbol[i]).toNat), s)) ∧
      (∀ (c : HuffClass) (t : TableId) (l : Fin 17),
        busRead (0x1000 + 0x800 * (4 * c.bit.toNat + t.val) + 0x040 + 4 * l.val) 4 s =
          (.data (BitVec.ofNat 32 ((s.huff c t).offset[l]).toNat), s)) ∧
      (∀ (c : HuffClass) (t : TableId) (i : Fin 162),
        busRead (0x1000 + 0x800 * (4 * c.bit.toNat + t.val) + 0x400 + 4 * i.val) 4 s =
          (.data (BitVec.ofNat 32 ((s.huff c t).code[i]).toNat), s)) ∧
      (s.params.legal = true → ∀ w,
        (4 * w < s.params.bsBytes → ∃ r, busRead (0x1000000 + 4 * w) 4 s = (.data r, s) ∧
          ∀ j, j < 4 → r.extractLsb' (8 * j) 8 = s.bsByte (4 * w + j)) ∧
        (4 * w < s.params.outBytes → ∃ r, busRead (0x2000000 + 4 * w) 4 s = (.data r, s) ∧
          ∀ j, j < 4 → r.extractLsb' (8 * j) 8 = s.outByte (4 * w + j))))

/-- R42, R45 to R50, R106, R112: a write of a configuration register that is applied stores the word's
fields, changes nothing else, and reads back as the word masked to the fields. -/
def Obligations.ConfigReadBack : Prop :=
  ∀ (s : State) (v : Word), s.resetIn = false →
    busWrite 0x004 4 v s =
      (.completed, { s with
        ctrl := { irqDoneEn := v.getLsbD 0, irqErrEn := v.getLsbD 1, rstAlign := v.getLsbD 2 } }) ∧
    (busRead 0x004 4 (busWrite 0x004 4 v s).2).1 = .data (v &&& 0x00000007#32) ∧
    (writable s →
      busWrite 0x010 4 v s =
        (.completed, { s with width := v.extractLsb' 0 16, height := v.extractLsb' 16 16 }) ∧
      busWrite 0x014 4 v s = (.completed, { s with ncomp := v.extractLsb' 0 3 }) ∧
      (∀ c : Comp, ∃ u, busWrite (0x018 + 4 * c.idx.val) 4 v s = (.completed, u) ∧
        u = { s with compCfg := u.compCfg } ∧ (∀ d, d ≠ c → u.cfg d = s.cfg d) ∧
        (u.cfg c).qtId.val = (v.extractLsb' 0 2).toNat ∧ (u.cfg c).dcId.val = (v.extractLsb' 4 2).toNat ∧
        (u.cfg c).acId.val = (v.extractLsb' 8 2).toNat) ∧
      busWrite 0x024 4 v s =
        (.completed, { s with
          scanCfg := { n := v.extractLsb' 0 3, id0 := v.extractLsb' 4 2, id1 := v.extractLsb' 8 2,
                       id2 := v.extractLsb' 12 2 } }) ∧
      busWrite 0x028 4 v s = (.completed, { s with restart := v.extractLsb' 0 16 }) ∧
      busWrite 0x02C 4 v s = (.completed, { s with bsLen := v }) ∧
      ∀ am ∈ [((0x010 : Nat), 0xFFFFFFFF#32), (0x014, 0x00000007#32), (0x018, 0x00000333#32),
          (0x01C, 0x00000333#32), (0x020, 0x00000333#32), (0x024, 0x00003337#32), (0x028, 0x0000FFFF#32),
          (0x02C, 0xFFFFFFFF#32)],
        (busRead am.1 4 (busWrite am.1 4 v s).2).1 = .data (v &&& am.2))

/-- R108: a write of the QT window at zigzag position k stores 16 bits at natural index ZZ[k], clears the
table's set flag and changes nothing else; the word reads back zero-extended. -/
def Obligations.QtWindowRule : Prop :=
  ∀ (s : State) (v : Word) (t : TableId) (k : Fin 64), writable s →
    ∃ u, busWrite (0x400 + 0x100 * t.val + 4 * k.val) 4 v s = (.completed, u) ∧
      u = { s with qt := u.qt } ∧ u.qtSet t = false ∧
      u.qt[t].entry[zz k] = v.extractLsb' 0 16 ∧
      (∀ i, i ≠ zz k → u.qt[t].entry[i] = s.qt[t].entry[i]) ∧
      (∀ j, j ≠ t → u.qt[j] = s.qt[j]) ∧
      busRead (0x400 + 0x100 * t.val + 4 * k.val) 4 u = (.data ((v.extractLsb' 0 16).setWidth 32), u)

/-- R109: writes of COUNT and SYMBOL store 8 bits and clear the table's set flag; OFFSET and CODE ignore
writes; all four read zero-extended; the rest of the table's region is reserved. -/
def Obligations.HtWindowRule : Prop :=
  ∀ (s : State) (v : Word) (c : HuffClass) (t : TableId), writable s →
    (∀ l : Fin 16, ∃ u,
      busWrite (0x1000 + 0x800 * (4 * c.bit.toNat + t.val) + 4 * l.val) 4 v s = (.completed, u) ∧
      u = { s with dcHt := u.dcHt, acHt := u.acHt } ∧
      u.huff c t =
        { s.huff c t with count := (s.huff c t).count.set l (v.extractLsb' 0 8), set := false } ∧
      (∀ d j, (d, j) ≠ (c, t) → u.huff d j = s.huff d j) ∧
      busRead (0x1000 + 0x800 * (4 * c.bit.toNat + t.val) + 4 * l.val) 4 u =
        (.data ((v.extractLsb' 0 8).setWidth 32), u)) ∧
    (∀ i : Fin 162, ∃ u,
      busWrite (0x1000 + 0x800 * (4 * c.bit.toNat + t.val) + 0x100 + 4 * i.val) 4 v s = (.completed, u) ∧
      u = { s with dcHt := u.dcHt, acHt := u.acHt } ∧
      u.huff c t =
        { s.huff c t with symbol := (s.huff c t).symbol.set i (v.extractLsb' 0 8), set := false } ∧
      (∀ d j, (d, j) ≠ (c, t) → u.huff d j = s.huff d j) ∧
      busRead (0x1000 + 0x800 * (4 * c.bit.toNat + t.val) + 0x100 + 4 * i.val) 4 u =
        (.data ((v.extractLsb' 0 8).setWidth 32), u)) ∧
    (∀ l : Fin 17,
      busWrite (0x1000 + 0x800 * (4 * c.bit.toNat + t.val) + 0x040 + 4 * l.val) 4 v s = (.completed, s) ∧
      busRead (0x1000 + 0x800 * (4 * c.bit.toNat + t.val) + 0x040 + 4 * l.val) 4 s =
        (.data ((s.huff c t).offset[l].setWidth 32), s)) ∧
    (∀ i : Fin 162,
      busWrite (0x1000 + 0x800 * (4 * c.bit.toNat + t.val) + 0x400 + 4 * i.val) 4 v s = (.completed, s) ∧
      busRead (0x1000 + 0x800 * (4 * c.bit.toNat + t.val) + 0x400 + 4 * i.val) 4 s =
        (.data ((s.huff c t).code[i].setWidth 32), s)) ∧
    (∀ o, o % 4 = 0 → o < 0x800 →
      ((0x084 ≤ o ∧ o < 0x100) ∨ (0x388 ≤ o ∧ o < 0x400) ∨ 0x688 ≤ o) →
      decodeAddr s.params (0x1000 + 0x800 * (4 * c.bit.toNat + t.val) + o) = .reserved)

/-- R104, R110: a word written to the BS or the OUT window is four bytes, the first in bits [7:0]; the
word reads back, and every other byte of both memories is as before. OUT can be written on a frozen core
and during a scan. -/
def Obligations.MemoryWindowRule : Prop :=
  ∀ (s : State) (v : Word) (w : Nat), s.params.legal = true →
    (writable s → 4 * w < s.params.bsBytes →
      ∃ u, busWrite (0x1000000 + 4 * w) 4 v s = (.completed, u) ∧ u = { s with bs := u.bs } ∧
        (∀ j, j < 4 → u.bsByte (4 * w + j) = v.extractLsb' (8 * j) 8) ∧
        (∀ a, a / 4 ≠ w → u.bsByte a = s.bsByte a) ∧
        busRead (0x1000000 + 4 * w) 4 u = (.data v, u)) ∧
    (s.resetIn = false → s.busy = false → 4 * w < s.params.outBytes →
      ∃ u, busWrite (0x2000000 + 4 * w) 4 v s = (.completed, u) ∧ u = { s with out := u.out } ∧
        (∀ j, j < 4 → u.outByte (4 * w + j) = v.extractLsb' (8 * j) 8) ∧
        (∀ a, a / 4 ≠ w → u.outByte a = s.outByte a) ∧
        busRead (0x2000000 + 4 * w) 4 u = (.data v, u))

/-- R111, R55: the COEF window reads a coefficient, and PREDid a predictor, sign-extended to 32 bits, and
both ignore writes. -/
def Obligations.SignedWindowsRule : Prop :=
  ∀ (s : State) (v : Word) (c : Comp), s.resetIn = false → s.busy = false →
    (∀ i : Fin 64,
      busWrite (0x5000 + 0x100 * c.idx.val + 4 * i.val) 4 v s = (.completed, s) ∧
      ∃ r, busRead (0x5000 + 0x100 * c.idx.val + 4 * i.val) 4 s = (.data r, s) ∧
        r.toInt = (s.block c)[i].toInt) ∧
    busWrite (0x040 + 4 * c.idx.val) 4 v s = (.completed, s) ∧
    ∃ r, busRead (0x040 + 4 * c.idx.val) 4 s = (.data r, s) ∧ r.toInt = (s.predOf c).toInt

/-- R620: the interrupt output as a function of the words of CTRL and STATUS. -/
def Obligations.InterruptRule : Prop :=
  ∀ s : State,
    s.irq =
      (((ctrlWord s.ctrl).getLsbD 0 && (statusWord s).getLsbD 1) ||
        ((ctrlWord s.ctrl).getLsbD 1 && (statusWord s).getLsbD 2))

/-- R147: the exact expansions of the pseudo-instructions. -/
def Obligations.PseudoExpansions : Prop :=
  (∀ (t : TableId) (q : List Half), q.length = 64 →
    expand (.loadQt t q) =
      (List.range 64).map (fun k => .wr (0x400 + 0x100 * t.val + 4 * k) ((q.getD k 0).setWidth 32)) ++
        [.wr 0x00C (encode (.setQt t)), .wait]) ∧
  (∀ (c : HuffClass) (t : TableId) (n y : List Byte), n.length = 16 →
    expand (.loadHt c t n y) =
      (List.range 16).map (fun l =>
        .wr (0x1000 + 0x800 * (4 * c.bit.toNat + t.val) + 4 * l) ((n.getD l 0).setWidth 32)) ++
      (List.range y.length).map (fun i =>
        .wr (0x1000 + 0x800 * (4 * c.bit.toNat + t.val) + 0x100 + 4 * i) ((y.getD i 0).setWidth 32)) ++
      [.wr 0x00C (encode (.buildHt c t)), .wait]) ∧
  (∀ b : List Byte,
    expand (.loadBs b) =
      (List.range ((b.length + 3) / 4)).map (fun w =>
        .wr (0x1000000 + 4 * w)
          (b.getD (4 * w + 3) 0 ++ b.getD (4 * w + 2) 0 ++ b.getD (4 * w + 1) 0 ++ b.getD (4 * w) 0 :
            BitVec (8 + 8 + 8 + 8))) ++
        [.wr 0x02C (BitVec.ofNat 32 b.length)]) ∧
  expand .decodeImage = [.wr 0x00C 0x00000004#32, .wait, .wr 0x00C 0x00000007#32, .wait] ∧
  (∀ i : Instr, expand (.cmdWait i) = [.wr 0x00C (encode i), .wait])

/-! ## Whole-machine rules -/

/-- R604, R605: once ERR is 1 it stays, with its code and context, until a reset; and while it stays every
register, table, coefficient and BS byte stays too: only CTRL, DONE, HOST_VIOL, the latch, OUT and the
host's side can change. -/
def Obligations.FrozenUntilReset : Prop :=
  ∀ s t : State, s.err = true → step s = .next t → ¬resetsNext s →
    t = { s with
      ctrl := t.ctrl, done := t.done, hostViol := t.hostViol, latch := t.latch, out := t.out,
      resetIn := t.resetIn, program := t.program, responses := t.responses, bindings := t.bindings,
      delays := t.delays, draws := t.draws }

/-- R714, R116: while a scan stays active no step changes the frame, component, scan and restart
registers, BS_LEN, the tables or BS. -/
def Obligations.ConfigLockedDuringScan : Prop :=
  ∀ s t : State, s.scanActive = true → step s = .next t → t.scanActive = true → sameScanInputs s t

/-- R68: each flag rises only by the operations of the table's first column: a table's flag by its SET_QT or
BUILD_HT, SCAN_ACTIVE by START_SCAN, MCU_PENDING by DECODE_MCU, ERR by an error entry at a completion (R603),
DONE by the completion of a command other than RESET, BUSY by the acceptance of such a command (R504),
HOST_VIOL by a host write that R106 or R504 ignores as a violation. And each falls only by those of the second:
BUSY at a completion, DONE by an acceptance or by writing 1 to it, HOST_VIOL by writing 1 to it, SCAN_ACTIVE by
the RECON_MCU of the last MCU, MCU_PENDING by RECON_MCU or a successful START_SCAN (RUN runs RECON_MCU's body,
R503), a table's flag by a write of its QT, COUNT or SYMBOL entries that is applied, and every one by a reset,
which alone clears ERR. -/
def Obligations.FlagsChangeOnlyByTheirOperations : Prop :=
  ∀ s t : State, step s = .next t →
    (∀ k, s.qtSet k = false → t.qtSet k = true → completesNext s (encode (.setQt k))) ∧
    (∀ c k, s.htSet c k = false → t.htSet c k = true → completesNext s (encode (.buildHt c k))) ∧
    (s.scanActive = false → t.scanActive = true → completesNext s 0x00000004#32) ∧
    (s.mcuPending = false → t.mcuPending = true → completesNext s 0x00000005#32) ∧
    (s.err = false → t.err = true →
      (∃ w, completesNext s w ∧ w ≠ 0x00000001#32) ∧ t.errCode ∈ errorBytes ∧
      t = raised t.errCode t.errComp t) ∧
    (s.done = false → t.done = true → ∃ w, completesNext s w ∧ w ≠ 0x00000001#32) ∧
    (s.busy = false → t.busy = true → ∃ w, writesNext s 0x00C w ∧ w ≠ 0x00000001#32) ∧
    (s.hostViol = false → t.hostViol = true → ∃ a v, writesNext s a v ∧
      ((a = 0x00C ∧ v ≠ 0x00000001#32 ∧ s.busy = true) ∨
        ((dataTarget (decodeAddr s.params a) ∨ ∃ w, decodeAddr s.params a = .outWord w) ∧
          s.busy = true) ∨
        (dataTarget (decodeAddr s.params a) ∧ s.busy = false ∧ s.err = false ∧ s.scanActive = true))) ∧
    (s.busy = true → t.busy = false → (∃ w, completesNext s w) ∨ resetsNext s) ∧
    (s.done = true → t.done = false →
      (∃ w, writesNext s 0x00C w ∧ w ≠ 0x00000001#32 ∧ s.busy = false) ∨
      (∃ v, writesNext s 0x008 v ∧ v.getLsbD 1 = true) ∨ resetsNext s) ∧
    (s.err = true → t.err = false → resetsNext s) ∧
    (s.hostViol = true → t.hostViol = false →
      (∃ v, writesNext s 0x008 v ∧ v.getLsbD 3 = true) ∨ resetsNext s) ∧
    (s.scanActive = true → t.scanActive = false →
      ((completesNext s 0x00000006#32 ∨ completesNext s 0x00000007#32) ∧ s.err = false ∧
        t.mcuIdx = t.mcuTotal ∧ t.mcuPending = false) ∨ resetsNext s) ∧
    (s.mcuPending = true → t.mcuPending = false →
      completesNext s 0x00000006#32 ∨ completesNext s 0x00000007#32 ∨
      (completesNext s 0x00000004#32 ∧ t.err = false ∧ t.scanActive = true) ∨ resetsNext s) ∧
    (∀ k, s.qtSet k = true → t.qtSet k = false →
      (∃ a v j, writesNext s a v ∧ writable s ∧ decodeAddr s.params a = .qtEntry k j) ∨ resetsNext s) ∧
    (∀ c k, s.htSet c k = true → t.htSet c k = false →
      (∃ a v, writesNext s a v ∧ writable s ∧
        ((∃ l, decodeAddr s.params a = .htCount c k l) ∨ ∃ i, decodeAddr s.params a = .htSymbol c k i)) ∨
      resetsNext s)

/-- The state after reset meets the invariant `State.Inv` of Safety.lean. -/
def Obligations.ResetMeetsInvariant : Prop := State.reset.Inv

/-- Every step keeps the invariant: the memories' canonical form, the error record, the cursor's bounds,
that a set table is the build of its counts, the configuration a scan was started with, and the decode
position. -/
def Obligations.StepKeepsInvariant : Prop :=
  ∀ s t : State, s.Inv → step s = .next t → t.Inv

/-- R113: from a state that meets the invariant no step ends in a model fault, so the engine never uses an
index that names nothing; and no step of any state is refused. -/
def Obligations.NoFaultNoRefusal : Prop :=
  ∀ s : State, (s.Inv → ∃ t, step s = .next t) ∧ (∀ r, step s ≠ .refused r)
end

