-- ==== Sys2Proof/Laws/State.lean ====
section
/-! SUPPORT. What each named update of the state does to each field: one lemma per field per update, true by
rfl, so that no proof unfolds a record update. -/

namespace Sys2Proof.Machine

/-! ## `complete` -/

@[simp] theorem complete_params (s : State) : (complete s).params = s.params := rfl
@[simp] theorem complete_ctrl (s : State) : (complete s).ctrl = s.ctrl := rfl
@[simp] theorem complete_done (s : State) : (complete s).done = true := rfl
@[simp] theorem complete_err (s : State) : (complete s).err = s.err := rfl
@[simp] theorem complete_hostViol (s : State) : (complete s).hostViol = s.hostViol := rfl
@[simp] theorem complete_scanActive (s : State) : (complete s).scanActive = s.scanActive := rfl
@[simp] theorem complete_mcuPending (s : State) : (complete s).mcuPending = s.mcuPending := rfl
@[simp] theorem complete_errCode (s : State) : (complete s).errCode = s.errCode := rfl
@[simp] theorem complete_width (s : State) : (complete s).width = s.width := rfl
@[simp] theorem complete_height (s : State) : (complete s).height = s.height := rfl
@[simp] theorem complete_ncomp (s : State) : (complete s).ncomp = s.ncomp := rfl
@[simp] theorem complete_compCfg (s : State) : (complete s).compCfg = s.compCfg := rfl
@[simp] theorem complete_scanCfg (s : State) : (complete s).scanCfg = s.scanCfg := rfl
@[simp] theorem complete_restart (s : State) : (complete s).restart = s.restart := rfl
@[simp] theorem complete_bsLen (s : State) : (complete s).bsLen = s.bsLen := rfl
@[simp] theorem complete_mcuIdx (s : State) : (complete s).mcuIdx = s.mcuIdx := rfl
@[simp] theorem complete_mcuTotal (s : State) : (complete s).mcuTotal = s.mcuTotal := rfl
@[simp] theorem complete_mcuCols (s : State) : (complete s).mcuCols = s.mcuCols := rfl
@[simp] theorem complete_mcuRows (s : State) : (complete s).mcuRows = s.mcuRows := rfl
@[simp] theorem complete_byteIdx (s : State) : (complete s).byteIdx = s.byteIdx := rfl
@[simp] theorem complete_bitOff (s : State) : (complete s).bitOff = s.bitOff := rfl
@[simp] theorem complete_pred (s : State) : (complete s).pred = s.pred := rfl
@[simp] theorem complete_errMcu (s : State) : (complete s).errMcu = s.errMcu := rfl
@[simp] theorem complete_errBitPos (s : State) : (complete s).errBitPos = s.errBitPos := rfl
@[simp] theorem complete_errComp (s : State) : (complete s).errComp = s.errComp := rfl
@[simp] theorem complete_lastMcu (s : State) : (complete s).lastMcu = s.lastMcu := rfl
@[simp] theorem complete_qt (s : State) : (complete s).qt = s.qt := rfl
@[simp] theorem complete_dcHt (s : State) : (complete s).dcHt = s.dcHt := rfl
@[simp] theorem complete_acHt (s : State) : (complete s).acHt = s.acHt := rfl
@[simp] theorem complete_coef (s : State) : (complete s).coef = s.coef := rfl
@[simp] theorem complete_latch (s : State) : (complete s).latch = none := rfl
@[simp] theorem complete_bs (s : State) : (complete s).bs = s.bs := rfl
@[simp] theorem complete_out (s : State) : (complete s).out = s.out := rfl
@[simp] theorem complete_resetIn (s : State) : (complete s).resetIn = s.resetIn := rfl
@[simp] theorem complete_program (s : State) : (complete s).program = s.program := rfl
@[simp] theorem complete_responses (s : State) : (complete s).responses = s.responses := rfl
@[simp] theorem complete_bindings (s : State) : (complete s).bindings = s.bindings := rfl
@[simp] theorem complete_delays (s : State) : (complete s).delays = s.delays := rfl
@[simp] theorem complete_draws (s : State) : (complete s).draws = s.draws := rfl

/-! ## `errorEntry` -/

@[simp] theorem errorEntry_params (s : State) (e : ErrCode) (b : BitVec 2) : (errorEntry e b s).params = s.params := rfl
@[simp] theorem errorEntry_ctrl (s : State) (e : ErrCode) (b : BitVec 2) : (errorEntry e b s).ctrl = s.ctrl := rfl
@[simp] theorem errorEntry_done (s : State) (e : ErrCode) (b : BitVec 2) : (errorEntry e b s).done = true := rfl
@[simp] theorem errorEntry_err (s : State) (e : ErrCode) (b : BitVec 2) : (errorEntry e b s).err = true := rfl
@[simp] theorem errorEntry_hostViol (s : State) (e : ErrCode) (b : BitVec 2) : (errorEntry e b s).hostViol = s.hostViol := rfl
@[simp] theorem errorEntry_scanActive (s : State) (e : ErrCode) (b : BitVec 2) : (errorEntry e b s).scanActive = s.scanActive := rfl
@[simp] theorem errorEntry_mcuPending (s : State) (e : ErrCode) (b : BitVec 2) : (errorEntry e b s).mcuPending = s.mcuPending := rfl
@[simp] theorem errorEntry_errCode (s : State) (e : ErrCode) (b : BitVec 2) : (errorEntry e b s).errCode = errorByte e := rfl
@[simp] theorem errorEntry_width (s : State) (e : ErrCode) (b : BitVec 2) : (errorEntry e b s).width = s.width := rfl
@[simp] theorem errorEntry_height (s : State) (e : ErrCode) (b : BitVec 2) : (errorEntry e b s).height = s.height := rfl
@[simp] theorem errorEntry_ncomp (s : State) (e : ErrCode) (b : BitVec 2) : (errorEntry e b s).ncomp = s.ncomp := rfl
@[simp] theorem errorEntry_compCfg (s : State) (e : ErrCode) (b : BitVec 2) : (errorEntry e b s).compCfg = s.compCfg := rfl
@[simp] theorem errorEntry_scanCfg (s : State) (e : ErrCode) (b : BitVec 2) : (errorEntry e b s).scanCfg = s.scanCfg := rfl
@[simp] theorem errorEntry_restart (s : State) (e : ErrCode) (b : BitVec 2) : (errorEntry e b s).restart = s.restart := rfl
@[simp] theorem errorEntry_bsLen (s : State) (e : ErrCode) (b : BitVec 2) : (errorEntry e b s).bsLen = s.bsLen := rfl
@[simp] theorem errorEntry_mcuIdx (s : State) (e : ErrCode) (b : BitVec 2) : (errorEntry e b s).mcuIdx = s.mcuIdx := rfl
@[simp] theorem errorEntry_mcuTotal (s : State) (e : ErrCode) (b : BitVec 2) : (errorEntry e b s).mcuTotal = s.mcuTotal := rfl
@[simp] theorem errorEntry_mcuCols (s : State) (e : ErrCode) (b : BitVec 2) : (errorEntry e b s).mcuCols = s.mcuCols := rfl
@[simp] theorem errorEntry_mcuRows (s : State) (e : ErrCode) (b : BitVec 2) : (errorEntry e b s).mcuRows = s.mcuRows := rfl
@[simp] theorem errorEntry_byteIdx (s : State) (e : ErrCode) (b : BitVec 2) : (errorEntry e b s).byteIdx = s.byteIdx := rfl
@[simp] theorem errorEntry_bitOff (s : State) (e : ErrCode) (b : BitVec 2) : (errorEntry e b s).bitOff = s.bitOff := rfl
@[simp] theorem errorEntry_pred (s : State) (e : ErrCode) (b : BitVec 2) : (errorEntry e b s).pred = s.pred := rfl
@[simp] theorem errorEntry_errMcu (s : State) (e : ErrCode) (b : BitVec 2) : (errorEntry e b s).errMcu = s.mcuIdx := rfl
@[simp] theorem errorEntry_errBitPos (s : State) (e : ErrCode) (b : BitVec 2) : (errorEntry e b s).errBitPos = s.bitPos := rfl
@[simp] theorem errorEntry_errComp (s : State) (e : ErrCode) (b : BitVec 2) : (errorEntry e b s).errComp = b := rfl
@[simp] theorem errorEntry_lastMcu (s : State) (e : ErrCode) (b : BitVec 2) : (errorEntry e b s).lastMcu = s.lastMcu := rfl
@[simp] theorem errorEntry_qt (s : State) (e : ErrCode) (b : BitVec 2) : (errorEntry e b s).qt = s.qt := rfl
@[simp] theorem errorEntry_dcHt (s : State) (e : ErrCode) (b : BitVec 2) : (errorEntry e b s).dcHt = s.dcHt := rfl
@[simp] theorem errorEntry_acHt (s : State) (e : ErrCode) (b : BitVec 2) : (errorEntry e b s).acHt = s.acHt := rfl
@[simp] theorem errorEntry_coef (s : State) (e : ErrCode) (b : BitVec 2) : (errorEntry e b s).coef = s.coef := rfl
@[simp] theorem errorEntry_latch (s : State) (e : ErrCode) (b : BitVec 2) : (errorEntry e b s).latch = none := rfl
@[simp] theorem errorEntry_bs (s : State) (e : ErrCode) (b : BitVec 2) : (errorEntry e b s).bs = s.bs := rfl
@[simp] theorem errorEntry_out (s : State) (e : ErrCode) (b : BitVec 2) : (errorEntry e b s).out = s.out := rfl
@[simp] theorem errorEntry_resetIn (s : State) (e : ErrCode) (b : BitVec 2) : (errorEntry e b s).resetIn = s.resetIn := rfl
@[simp] theorem errorEntry_program (s : State) (e : ErrCode) (b : BitVec 2) : (errorEntry e b s).program = s.program := rfl
@[simp] theorem errorEntry_responses (s : State) (e : ErrCode) (b : BitVec 2) : (errorEntry e b s).responses = s.responses := rfl
@[simp] theorem errorEntry_bindings (s : State) (e : ErrCode) (b : BitVec 2) : (errorEntry e b s).bindings = s.bindings := rfl
@[simp] theorem errorEntry_delays (s : State) (e : ErrCode) (b : BitVec 2) : (errorEntry e b s).delays = s.delays := rfl
@[simp] theorem errorEntry_draws (s : State) (e : ErrCode) (b : BitVec 2) : (errorEntry e b s).draws = s.draws := rfl

/-! ## `latchCommand` -/

@[simp] theorem latchCommand_params (s : State) (w : Word) (d : Nat) : (latchCommand w d s).params = s.params := rfl
@[simp] theorem latchCommand_ctrl (s : State) (w : Word) (d : Nat) : (latchCommand w d s).ctrl = s.ctrl := rfl
@[simp] theorem latchCommand_done (s : State) (w : Word) (d : Nat) : (latchCommand w d s).done = false := rfl
@[simp] theorem latchCommand_err (s : State) (w : Word) (d : Nat) : (latchCommand w d s).err = s.err := rfl
@[simp] theorem latchCommand_hostViol (s : State) (w : Word) (d : Nat) : (latchCommand w d s).hostViol = s.hostViol := rfl
@[simp] theorem latchCommand_scanActive (s : State) (w : Word) (d : Nat) : (latchCommand w d s).scanActive = s.scanActive := rfl
@[simp] theorem latchCommand_mcuPending (s : State) (w : Word) (d : Nat) : (latchCommand w d s).mcuPending = s.mcuPending := rfl
@[simp] theorem latchCommand_errCode (s : State) (w : Word) (d : Nat) : (latchCommand w d s).errCode = s.errCode := rfl
@[simp] theorem latchCommand_width (s : State) (w : Word) (d : Nat) : (latchCommand w d s).width = s.width := rfl
@[simp] theorem latchCommand_height (s : State) (w : Word) (d : Nat) : (latchCommand w d s).height = s.height := rfl
@[simp] theorem latchCommand_ncomp (s : State) (w : Word) (d : Nat) : (latchCommand w d s).ncomp = s.ncomp := rfl
@[simp] theorem latchCommand_compCfg (s : State) (w : Word) (d : Nat) : (latchCommand w d s).compCfg = s.compCfg := rfl
@[simp] theorem latchCommand_scanCfg (s : State) (w : Word) (d : Nat) : (latchCommand w d s).scanCfg = s.scanCfg := rfl
@[simp] theorem latchCommand_restart (s : State) (w : Word) (d : Nat) : (latchCommand w d s).restart = s.restart := rfl
@[simp] theorem latchCommand_bsLen (s : State) (w : Word) (d : Nat) : (latchCommand w d s).bsLen = s.bsLen := rfl
@[simp] theorem latchCommand_mcuIdx (s : State) (w : Word) (d : Nat) : (latchCommand w d s).mcuIdx = s.mcuIdx := rfl
@[simp] theorem latchCommand_mcuTotal (s : State) (w : Word) (d : Nat) : (latchCommand w d s).mcuTotal = s.mcuTotal := rfl
@[simp] theorem latchCommand_mcuCols (s : State) (w : Word) (d : Nat) : (latchCommand w d s).mcuCols = s.mcuCols := rfl
@[simp] theorem latchCommand_mcuRows (s : State) (w : Word) (d : Nat) : (latchCommand w d s).mcuRows = s.mcuRows := rfl
@[simp] theorem latchCommand_byteIdx (s : State) (w : Word) (d : Nat) : (latchCommand w d s).byteIdx = s.byteIdx := rfl
@[simp] theorem latchCommand_bitOff (s : State) (w : Word) (d : Nat) : (latchCommand w d s).bitOff = s.bitOff := rfl
@[simp] theorem latchCommand_pred (s : State) (w : Word) (d : Nat) : (latchCommand w d s).pred = s.pred := rfl
@[simp] theorem latchCommand_errMcu (s : State) (w : Word) (d : Nat) : (latchCommand w d s).errMcu = s.errMcu := rfl
@[simp] theorem latchCommand_errBitPos (s : State) (w : Word) (d : Nat) : (latchCommand w d s).errBitPos = s.errBitPos := rfl
@[simp] theorem latchCommand_errComp (s : State) (w : Word) (d : Nat) : (latchCommand w d s).errComp = s.errComp := rfl
@[simp] theorem latchCommand_lastMcu (s : State) (w : Word) (d : Nat) : (latchCommand w d s).lastMcu = s.lastMcu := rfl
@[simp] theorem latchCommand_qt (s : State) (w : Word) (d : Nat) : (latchCommand w d s).qt = s.qt := rfl
@[simp] theorem latchCommand_dcHt (s : State) (w : Word) (d : Nat) : (latchCommand w d s).dcHt = s.dcHt := rfl
@[simp] theorem latchCommand_acHt (s : State) (w : Word) (d : Nat) : (latchCommand w d s).acHt = s.acHt := rfl
@[simp] theorem latchCommand_coef (s : State) (w : Word) (d : Nat) : (latchCommand w d s).coef = s.coef := rfl
@[simp] theorem latchCommand_latch (s : State) (w : Word) (d : Nat) : (latchCommand w d s).latch = some { word := w, rstAlign := s.ctrl.rstAlign, delay := d } := rfl
@[simp] theorem latchCommand_bs (s : State) (w : Word) (d : Nat) : (latchCommand w d s).bs = s.bs := rfl
@[simp] theorem latchCommand_out (s : State) (w : Word) (d : Nat) : (latchCommand w d s).out = s.out := rfl
@[simp] theorem latchCommand_resetIn (s : State) (w : Word) (d : Nat) : (latchCommand w d s).resetIn = s.resetIn := rfl
@[simp] theorem latchCommand_program (s : State) (w : Word) (d : Nat) : (latchCommand w d s).program = s.program := rfl
@[simp] theorem latchCommand_responses (s : State) (w : Word) (d : Nat) : (latchCommand w d s).responses = s.responses := rfl
@[simp] theorem latchCommand_bindings (s : State) (w : Word) (d : Nat) : (latchCommand w d s).bindings = s.bindings := rfl
@[simp] theorem latchCommand_delays (s : State) (w : Word) (d : Nat) : (latchCommand w d s).delays = s.delays := rfl
@[simp] theorem latchCommand_draws (s : State) (w : Word) (d : Nat) : (latchCommand w d s).draws = s.draws := rfl

/-! ## `withQt` -/

@[simp] theorem withQt_params (s : State) (t : TableId) (q : QuantTable) : (s.withQt t q).params = s.params := rfl
@[simp] theorem withQt_ctrl (s : State) (t : TableId) (q : QuantTable) : (s.withQt t q).ctrl = s.ctrl := rfl
@[simp] theorem withQt_done (s : State) (t : TableId) (q : QuantTable) : (s.withQt t q).done = s.done := rfl
@[simp] theorem withQt_err (s : State) (t : TableId) (q : QuantTable) : (s.withQt t q).err = s.err := rfl
@[simp] theorem withQt_hostViol (s : State) (t : TableId) (q : QuantTable) : (s.withQt t q).hostViol = s.hostViol := rfl
@[simp] theorem withQt_scanActive (s : State) (t : TableId) (q : QuantTable) : (s.withQt t q).scanActive = s.scanActive := rfl
@[simp] theorem withQt_mcuPending (s : State) (t : TableId) (q : QuantTable) : (s.withQt t q).mcuPending = s.mcuPending := rfl
@[simp] theorem withQt_errCode (s : State) (t : TableId) (q : QuantTable) : (s.withQt t q).errCode = s.errCode := rfl
@[simp] theorem withQt_width (s : State) (t : TableId) (q : QuantTable) : (s.withQt t q).width = s.width := rfl
@[simp] theorem withQt_height (s : State) (t : TableId) (q : QuantTable) : (s.withQt t q).height = s.height := rfl
@[simp] theorem withQt_ncomp (s : State) (t : TableId) (q : QuantTable) : (s.withQt t q).ncomp = s.ncomp := rfl
@[simp] theorem withQt_compCfg (s : State) (t : TableId) (q : QuantTable) : (s.withQt t q).compCfg = s.compCfg := rfl
@[simp] theorem withQt_scanCfg (s : State) (t : TableId) (q : QuantTable) : (s.withQt t q).scanCfg = s.scanCfg := rfl
@[simp] theorem withQt_restart (s : State) (t : TableId) (q : QuantTable) : (s.withQt t q).restart = s.restart := rfl
@[simp] theorem withQt_bsLen (s : State) (t : TableId) (q : QuantTable) : (s.withQt t q).bsLen = s.bsLen := rfl
@[simp] theorem withQt_mcuIdx (s : State) (t : TableId) (q : QuantTable) : (s.withQt t q).mcuIdx = s.mcuIdx := rfl
@[simp] theorem withQt_mcuTotal (s : State) (t : TableId) (q : QuantTable) : (s.withQt t q).mcuTotal = s.mcuTotal := rfl
@[simp] theorem withQt_mcuCols (s : State) (t : TableId) (q : QuantTable) : (s.withQt t q).mcuCols = s.mcuCols := rfl
@[simp] theorem withQt_mcuRows (s : State) (t : TableId) (q : QuantTable) : (s.withQt t q).mcuRows = s.mcuRows := rfl
@[simp] theorem withQt_byteIdx (s : State) (t : TableId) (q : QuantTable) : (s.withQt t q).byteIdx = s.byteIdx := rfl
@[simp] theorem withQt_bitOff (s : State) (t : TableId) (q : QuantTable) : (s.withQt t q).bitOff = s.bitOff := rfl
@[simp] theorem withQt_pred (s : State) (t : TableId) (q : QuantTable) : (s.withQt t q).pred = s.pred := rfl
@[simp] theorem withQt_errMcu (s : State) (t : TableId) (q : QuantTable) : (s.withQt t q).errMcu = s.errMcu := rfl
@[simp] theorem withQt_errBitPos (s : State) (t : TableId) (q : QuantTable) : (s.withQt t q).errBitPos = s.errBitPos := rfl
@[simp] theorem withQt_errComp (s : State) (t : TableId) (q : QuantTable) : (s.withQt t q).errComp = s.errComp := rfl
@[simp] theorem withQt_lastMcu (s : State) (t : TableId) (q : QuantTable) : (s.withQt t q).lastMcu = s.lastMcu := rfl
@[simp] theorem withQt_qt (s : State) (t : TableId) (q : QuantTable) : (s.withQt t q).qt = s.qt.set t q := rfl
@[simp] theorem withQt_dcHt (s : State) (t : TableId) (q : QuantTable) : (s.withQt t q).dcHt = s.dcHt := rfl
@[simp] theorem withQt_acHt (s : State) (t : TableId) (q : QuantTable) : (s.withQt t q).acHt = s.acHt := rfl
@[simp] theorem withQt_coef (s : State) (t : TableId) (q : QuantTable) : (s.withQt t q).coef = s.coef := rfl
@[simp] theorem withQt_latch (s : State) (t : TableId) (q : QuantTable) : (s.withQt t q).latch = s.latch := rfl
@[simp] theorem withQt_bs (s : State) (t : TableId) (q : QuantTable) : (s.withQt t q).bs = s.bs := rfl
@[simp] theorem withQt_out (s : State) (t : TableId) (q : QuantTable) : (s.withQt t q).out = s.out := rfl
@[simp] theorem withQt_resetIn (s : State) (t : TableId) (q : QuantTable) : (s.withQt t q).resetIn = s.resetIn := rfl
@[simp] theorem withQt_program (s : State) (t : TableId) (q : QuantTable) : (s.withQt t q).program = s.program := rfl
@[simp] theorem withQt_responses (s : State) (t : TableId) (q : QuantTable) : (s.withQt t q).responses = s.responses := rfl
@[simp] theorem withQt_bindings (s : State) (t : TableId) (q : QuantTable) : (s.withQt t q).bindings = s.bindings := rfl
@[simp] theorem withQt_delays (s : State) (t : TableId) (q : QuantTable) : (s.withQt t q).delays = s.delays := rfl
@[simp] theorem withQt_draws (s : State) (t : TableId) (q : QuantTable) : (s.withQt t q).draws = s.draws := rfl

/-! ## `withCoef` -/

@[simp] theorem withCoef_params (s : State) (c : Comp) (i : Fin 64) (v : Half) : (s.withCoef c i v).params = s.params := rfl
@[simp] theorem withCoef_ctrl (s : State) (c : Comp) (i : Fin 64) (v : Half) : (s.withCoef c i v).ctrl = s.ctrl := rfl
@[simp] theorem withCoef_done (s : State) (c : Comp) (i : Fin 64) (v : Half) : (s.withCoef c i v).done = s.done := rfl
@[simp] theorem withCoef_err (s : State) (c : Comp) (i : Fin 64) (v : Half) : (s.withCoef c i v).err = s.err := rfl
@[simp] theorem withCoef_hostViol (s : State) (c : Comp) (i : Fin 64) (v : Half) : (s.withCoef c i v).hostViol = s.hostViol := rfl
@[simp] theorem withCoef_scanActive (s : State) (c : Comp) (i : Fin 64) (v : Half) : (s.withCoef c i v).scanActive = s.scanActive := rfl
@[simp] theorem withCoef_mcuPending (s : State) (c : Comp) (i : Fin 64) (v : Half) : (s.withCoef c i v).mcuPending = s.mcuPending := rfl
@[simp] theorem withCoef_errCode (s : State) (c : Comp) (i : Fin 64) (v : Half) : (s.withCoef c i v).errCode = s.errCode := rfl
@[simp] theorem withCoef_width (s : State) (c : Comp) (i : Fin 64) (v : Half) : (s.withCoef c i v).width = s.width := rfl
@[simp] theorem withCoef_height (s : State) (c : Comp) (i : Fin 64) (v : Half) : (s.withCoef c i v).height = s.height := rfl
@[simp] theorem withCoef_ncomp (s : State) (c : Comp) (i : Fin 64) (v : Half) : (s.withCoef c i v).ncomp = s.ncomp := rfl
@[simp] theorem withCoef_compCfg (s : State) (c : Comp) (i : Fin 64) (v : Half) : (s.withCoef c i v).compCfg = s.compCfg := rfl
@[simp] theorem withCoef_scanCfg (s : State) (c : Comp) (i : Fin 64) (v : Half) : (s.withCoef c i v).scanCfg = s.scanCfg := rfl
@[simp] theorem withCoef_restart (s : State) (c : Comp) (i : Fin 64) (v : Half) : (s.withCoef c i v).restart = s.restart := rfl
@[simp] theorem withCoef_bsLen (s : State) (c : Comp) (i : Fin 64) (v : Half) : (s.withCoef c i v).bsLen = s.bsLen := rfl
@[simp] theorem withCoef_mcuIdx (s : State) (c : Comp) (i : Fin 64) (v : Half) : (s.withCoef c i v).mcuIdx = s.mcuIdx := rfl
@[simp] theorem withCoef_mcuTotal (s : State) (c : Comp) (i : Fin 64) (v : Half) : (s.withCoef c i v).mcuTotal = s.mcuTotal := rfl
@[simp] theorem withCoef_mcuCols (s : State) (c : Comp) (i : Fin 64) (v : Half) : (s.withCoef c i v).mcuCols = s.mcuCols := rfl
@[simp] theorem withCoef_mcuRows (s : State) (c : Comp) (i : Fin 64) (v : Half) : (s.withCoef c i v).mcuRows = s.mcuRows := rfl
@[simp] theorem withCoef_byteIdx (s : State) (c : Comp) (i : Fin 64) (v : Half) : (s.withCoef c i v).byteIdx = s.byteIdx := rfl
@[simp] theorem withCoef_bitOff (s : State) (c : Comp) (i : Fin 64) (v : Half) : (s.withCoef c i v).bitOff = s.bitOff := rfl
@[simp] theorem withCoef_pred (s : State) (c : Comp) (i : Fin 64) (v : Half) : (s.withCoef c i v).pred = s.pred := rfl
@[simp] theorem withCoef_errMcu (s : State) (c : Comp) (i : Fin 64) (v : Half) : (s.withCoef c i v).errMcu = s.errMcu := rfl
@[simp] theorem withCoef_errBitPos (s : State) (c : Comp) (i : Fin 64) (v : Half) : (s.withCoef c i v).errBitPos = s.errBitPos := rfl
@[simp] theorem withCoef_errComp (s : State) (c : Comp) (i : Fin 64) (v : Half) : (s.withCoef c i v).errComp = s.errComp := rfl
@[simp] theorem withCoef_lastMcu (s : State) (c : Comp) (i : Fin 64) (v : Half) : (s.withCoef c i v).lastMcu = s.lastMcu := rfl
@[simp] theorem withCoef_qt (s : State) (c : Comp) (i : Fin 64) (v : Half) : (s.withCoef c i v).qt = s.qt := rfl
@[simp] theorem withCoef_dcHt (s : State) (c : Comp) (i : Fin 64) (v : Half) : (s.withCoef c i v).dcHt = s.dcHt := rfl
@[simp] theorem withCoef_acHt (s : State) (c : Comp) (i : Fin 64) (v : Half) : (s.withCoef c i v).acHt = s.acHt := rfl
@[simp] theorem withCoef_coef (s : State) (c : Comp) (i : Fin 64) (v : Half) : (s.withCoef c i v).coef = s.coef.set c.idx (s.coef[c.idx].set i v) := rfl
@[simp] theorem withCoef_latch (s : State) (c : Comp) (i : Fin 64) (v : Half) : (s.withCoef c i v).latch = s.latch := rfl
@[simp] theorem withCoef_bs (s : State) (c : Comp) (i : Fin 64) (v : Half) : (s.withCoef c i v).bs = s.bs := rfl
@[simp] theorem withCoef_out (s : State) (c : Comp) (i : Fin 64) (v : Half) : (s.withCoef c i v).out = s.out := rfl
@[simp] theorem withCoef_resetIn (s : State) (c : Comp) (i : Fin 64) (v : Half) : (s.withCoef c i v).resetIn = s.resetIn := rfl
@[simp] theorem withCoef_program (s : State) (c : Comp) (i : Fin 64) (v : Half) : (s.withCoef c i v).program = s.program := rfl
@[simp] theorem withCoef_responses (s : State) (c : Comp) (i : Fin 64) (v : Half) : (s.withCoef c i v).responses = s.responses := rfl
@[simp] theorem withCoef_bindings (s : State) (c : Comp) (i : Fin 64) (v : Half) : (s.withCoef c i v).bindings = s.bindings := rfl
@[simp] theorem withCoef_delays (s : State) (c : Comp) (i : Fin 64) (v : Half) : (s.withCoef c i v).delays = s.delays := rfl
@[simp] theorem withCoef_draws (s : State) (c : Comp) (i : Fin 64) (v : Half) : (s.withCoef c i v).draws = s.draws := rfl

/-! ## `withZeroBlock` -/

@[simp] theorem withZeroBlock_params (s : State) (c : Comp) : (s.withZeroBlock c).params = s.params := rfl
@[simp] theorem withZeroBlock_ctrl (s : State) (c : Comp) : (s.withZeroBlock c).ctrl = s.ctrl := rfl
@[simp] theorem withZeroBlock_done (s : State) (c : Comp) : (s.withZeroBlock c).done = s.done := rfl
@[simp] theorem withZeroBlock_err (s : State) (c : Comp) : (s.withZeroBlock c).err = s.err := rfl
@[simp] theorem withZeroBlock_hostViol (s : State) (c : Comp) : (s.withZeroBlock c).hostViol = s.hostViol := rfl
@[simp] theorem withZeroBlock_scanActive (s : State) (c : Comp) : (s.withZeroBlock c).scanActive = s.scanActive := rfl
@[simp] theorem withZeroBlock_mcuPending (s : State) (c : Comp) : (s.withZeroBlock c).mcuPending = s.mcuPending := rfl
@[simp] theorem withZeroBlock_errCode (s : State) (c : Comp) : (s.withZeroBlock c).errCode = s.errCode := rfl
@[simp] theorem withZeroBlock_width (s : State) (c : Comp) : (s.withZeroBlock c).width = s.width := rfl
@[simp] theorem withZeroBlock_height (s : State) (c : Comp) : (s.withZeroBlock c).height = s.height := rfl
@[simp] theorem withZeroBlock_ncomp (s : State) (c : Comp) : (s.withZeroBlock c).ncomp = s.ncomp := rfl
@[simp] theorem withZeroBlock_compCfg (s : State) (c : Comp) : (s.withZeroBlock c).compCfg = s.compCfg := rfl
@[simp] theorem withZeroBlock_scanCfg (s : State) (c : Comp) : (s.withZeroBlock c).scanCfg = s.scanCfg := rfl
@[simp] theorem withZeroBlock_restart (s : State) (c : Comp) : (s.withZeroBlock c).restart = s.restart := rfl
@[simp] theorem withZeroBlock_bsLen (s : State) (c : Comp) : (s.withZeroBlock c).bsLen = s.bsLen := rfl
@[simp] theorem withZeroBlock_mcuIdx (s : State) (c : Comp) : (s.withZeroBlock c).mcuIdx = s.mcuIdx := rfl
@[simp] theorem withZeroBlock_mcuTotal (s : State) (c : Comp) : (s.withZeroBlock c).mcuTotal = s.mcuTotal := rfl
@[simp] theorem withZeroBlock_mcuCols (s : State) (c : Comp) : (s.withZeroBlock c).mcuCols = s.mcuCols := rfl
@[simp] theorem withZeroBlock_mcuRows (s : State) (c : Comp) : (s.withZeroBlock c).mcuRows = s.mcuRows := rfl
@[simp] theorem withZeroBlock_byteIdx (s : State) (c : Comp) : (s.withZeroBlock c).byteIdx = s.byteIdx := rfl
@[simp] theorem withZeroBlock_bitOff (s : State) (c : Comp) : (s.withZeroBlock c).bitOff = s.bitOff := rfl
@[simp] theorem withZeroBlock_pred (s : State) (c : Comp) : (s.withZeroBlock c).pred = s.pred := rfl
@[simp] theorem withZeroBlock_errMcu (s : State) (c : Comp) : (s.withZeroBlock c).errMcu = s.errMcu := rfl
@[simp] theorem withZeroBlock_errBitPos (s : State) (c : Comp) : (s.withZeroBlock c).errBitPos = s.errBitPos := rfl
@[simp] theorem withZeroBlock_errComp (s : State) (c : Comp) : (s.withZeroBlock c).errComp = s.errComp := rfl
@[simp] theorem withZeroBlock_lastMcu (s : State) (c : Comp) : (s.withZeroBlock c).lastMcu = s.lastMcu := rfl
@[simp] theorem withZeroBlock_qt (s : State) (c : Comp) : (s.withZeroBlock c).qt = s.qt := rfl
@[simp] theorem withZeroBlock_dcHt (s : State) (c : Comp) : (s.withZeroBlock c).dcHt = s.dcHt := rfl
@[simp] theorem withZeroBlock_acHt (s : State) (c : Comp) : (s.withZeroBlock c).acHt = s.acHt := rfl
@[simp] theorem withZeroBlock_coef (s : State) (c : Comp) : (s.withZeroBlock c).coef = s.coef.set c.idx (Vector.replicate 64 0) := rfl
@[simp] theorem withZeroBlock_latch (s : State) (c : Comp) : (s.withZeroBlock c).latch = s.latch := rfl
@[simp] theorem withZeroBlock_bs (s : State) (c : Comp) : (s.withZeroBlock c).bs = s.bs := rfl
@[simp] theorem withZeroBlock_out (s : State) (c : Comp) : (s.withZeroBlock c).out = s.out := rfl
@[simp] theorem withZeroBlock_resetIn (s : State) (c : Comp) : (s.withZeroBlock c).resetIn = s.resetIn := rfl
@[simp] theorem withZeroBlock_program (s : State) (c : Comp) : (s.withZeroBlock c).program = s.program := rfl
@[simp] theorem withZeroBlock_responses (s : State) (c : Comp) : (s.withZeroBlock c).responses = s.responses := rfl
@[simp] theorem withZeroBlock_bindings (s : State) (c : Comp) : (s.withZeroBlock c).bindings = s.bindings := rfl
@[simp] theorem withZeroBlock_delays (s : State) (c : Comp) : (s.withZeroBlock c).delays = s.delays := rfl
@[simp] theorem withZeroBlock_draws (s : State) (c : Comp) : (s.withZeroBlock c).draws = s.draws := rfl

/-! ## `withPred` -/

@[simp] theorem withPred_params (s : State) (c : Comp) (v : Half) : (s.withPred c v).params = s.params := rfl
@[simp] theorem withPred_ctrl (s : State) (c : Comp) (v : Half) : (s.withPred c v).ctrl = s.ctrl := rfl
@[simp] theorem withPred_done (s : State) (c : Comp) (v : Half) : (s.withPred c v).done = s.done := rfl
@[simp] theorem withPred_err (s : State) (c : Comp) (v : Half) : (s.withPred c v).err = s.err := rfl
@[simp] theorem withPred_hostViol (s : State) (c : Comp) (v : Half) : (s.withPred c v).hostViol = s.hostViol := rfl
@[simp] theorem withPred_scanActive (s : State) (c : Comp) (v : Half) : (s.withPred c v).scanActive = s.scanActive := rfl
@[simp] theorem withPred_mcuPending (s : State) (c : Comp) (v : Half) : (s.withPred c v).mcuPending = s.mcuPending := rfl
@[simp] theorem withPred_errCode (s : State) (c : Comp) (v : Half) : (s.withPred c v).errCode = s.errCode := rfl
@[simp] theorem withPred_width (s : State) (c : Comp) (v : Half) : (s.withPred c v).width = s.width := rfl
@[simp] theorem withPred_height (s : State) (c : Comp) (v : Half) : (s.withPred c v).height = s.height := rfl
@[simp] theorem withPred_ncomp (s : State) (c : Comp) (v : Half) : (s.withPred c v).ncomp = s.ncomp := rfl
@[simp] theorem withPred_compCfg (s : State) (c : Comp) (v : Half) : (s.withPred c v).compCfg = s.compCfg := rfl
@[simp] theorem withPred_scanCfg (s : State) (c : Comp) (v : Half) : (s.withPred c v).scanCfg = s.scanCfg := rfl
@[simp] theorem withPred_restart (s : State) (c : Comp) (v : Half) : (s.withPred c v).restart = s.restart := rfl
@[simp] theorem withPred_bsLen (s : State) (c : Comp) (v : Half) : (s.withPred c v).bsLen = s.bsLen := rfl
@[simp] theorem withPred_mcuIdx (s : State) (c : Comp) (v : Half) : (s.withPred c v).mcuIdx = s.mcuIdx := rfl
@[simp] theorem withPred_mcuTotal (s : State) (c : Comp) (v : Half) : (s.withPred c v).mcuTotal = s.mcuTotal := rfl
@[simp] theorem withPred_mcuCols (s : State) (c : Comp) (v : Half) : (s.withPred c v).mcuCols = s.mcuCols := rfl
@[simp] theorem withPred_mcuRows (s : State) (c : Comp) (v : Half) : (s.withPred c v).mcuRows = s.mcuRows := rfl
@[simp] theorem withPred_byteIdx (s : State) (c : Comp) (v : Half) : (s.withPred c v).byteIdx = s.byteIdx := rfl
@[simp] theorem withPred_bitOff (s : State) (c : Comp) (v : Half) : (s.withPred c v).bitOff = s.bitOff := rfl
@[simp] theorem withPred_pred (s : State) (c : Comp) (v : Half) : (s.withPred c v).pred = s.pred.set c.idx v := rfl
@[simp] theorem withPred_errMcu (s : State) (c : Comp) (v : Half) : (s.withPred c v).errMcu = s.errMcu := rfl
@[simp] theorem withPred_errBitPos (s : State) (c : Comp) (v : Half) : (s.withPred c v).errBitPos = s.errBitPos := rfl
@[simp] theorem withPred_errComp (s : State) (c : Comp) (v : Half) : (s.withPred c v).errComp = s.errComp := rfl
@[simp] theorem withPred_lastMcu (s : State) (c : Comp) (v : Half) : (s.withPred c v).lastMcu = s.lastMcu := rfl
@[simp] theorem withPred_qt (s : State) (c : Comp) (v : Half) : (s.withPred c v).qt = s.qt := rfl
@[simp] theorem withPred_dcHt (s : State) (c : Comp) (v : Half) : (s.withPred c v).dcHt = s.dcHt := rfl
@[simp] theorem withPred_acHt (s : State) (c : Comp) (v : Half) : (s.withPred c v).acHt = s.acHt := rfl
@[simp] theorem withPred_coef (s : State) (c : Comp) (v : Half) : (s.withPred c v).coef = s.coef := rfl
@[simp] theorem withPred_latch (s : State) (c : Comp) (v : Half) : (s.withPred c v).latch = s.latch := rfl
@[simp] theorem withPred_bs (s : State) (c : Comp) (v : Half) : (s.withPred c v).bs = s.bs := rfl
@[simp] theorem withPred_out (s : State) (c : Comp) (v : Half) : (s.withPred c v).out = s.out := rfl
@[simp] theorem withPred_resetIn (s : State) (c : Comp) (v : Half) : (s.withPred c v).resetIn = s.resetIn := rfl
@[simp] theorem withPred_program (s : State) (c : Comp) (v : Half) : (s.withPred c v).program = s.program := rfl
@[simp] theorem withPred_responses (s : State) (c : Comp) (v : Half) : (s.withPred c v).responses = s.responses := rfl
@[simp] theorem withPred_bindings (s : State) (c : Comp) (v : Half) : (s.withPred c v).bindings = s.bindings := rfl
@[simp] theorem withPred_delays (s : State) (c : Comp) (v : Half) : (s.withPred c v).delays = s.delays := rfl
@[simp] theorem withPred_draws (s : State) (c : Comp) (v : Half) : (s.withPred c v).draws = s.draws := rfl

/-! ## `withCfg` -/

@[simp] theorem withCfg_params (s : State) (c : Comp) (v : CompCfg) : (s.withCfg c v).params = s.params := rfl
@[simp] theorem withCfg_ctrl (s : State) (c : Comp) (v : CompCfg) : (s.withCfg c v).ctrl = s.ctrl := rfl
@[simp] theorem withCfg_done (s : State) (c : Comp) (v : CompCfg) : (s.withCfg c v).done = s.done := rfl
@[simp] theorem withCfg_err (s : State) (c : Comp) (v : CompCfg) : (s.withCfg c v).err = s.err := rfl
@[simp] theorem withCfg_hostViol (s : State) (c : Comp) (v : CompCfg) : (s.withCfg c v).hostViol = s.hostViol := rfl
@[simp] theorem withCfg_scanActive (s : State) (c : Comp) (v : CompCfg) : (s.withCfg c v).scanActive = s.scanActive := rfl
@[simp] theorem withCfg_mcuPending (s : State) (c : Comp) (v : CompCfg) : (s.withCfg c v).mcuPending = s.mcuPending := rfl
@[simp] theorem withCfg_errCode (s : State) (c : Comp) (v : CompCfg) : (s.withCfg c v).errCode = s.errCode := rfl
@[simp] theorem withCfg_width (s : State) (c : Comp) (v : CompCfg) : (s.withCfg c v).width = s.width := rfl
@[simp] theorem withCfg_height (s : State) (c : Comp) (v : CompCfg) : (s.withCfg c v).height = s.height := rfl
@[simp] theorem withCfg_ncomp (s : State) (c : Comp) (v : CompCfg) : (s.withCfg c v).ncomp = s.ncomp := rfl
@[simp] theorem withCfg_compCfg (s : State) (c : Comp) (v : CompCfg) : (s.withCfg c v).compCfg = s.compCfg.set c.idx v := rfl
@[simp] theorem withCfg_scanCfg (s : State) (c : Comp) (v : CompCfg) : (s.withCfg c v).scanCfg = s.scanCfg := rfl
@[simp] theorem withCfg_restart (s : State) (c : Comp) (v : CompCfg) : (s.withCfg c v).restart = s.restart := rfl
@[simp] theorem withCfg_bsLen (s : State) (c : Comp) (v : CompCfg) : (s.withCfg c v).bsLen = s.bsLen := rfl
@[simp] theorem withCfg_mcuIdx (s : State) (c : Comp) (v : CompCfg) : (s.withCfg c v).mcuIdx = s.mcuIdx := rfl
@[simp] theorem withCfg_mcuTotal (s : State) (c : Comp) (v : CompCfg) : (s.withCfg c v).mcuTotal = s.mcuTotal := rfl
@[simp] theorem withCfg_mcuCols (s : State) (c : Comp) (v : CompCfg) : (s.withCfg c v).mcuCols = s.mcuCols := rfl
@[simp] theorem withCfg_mcuRows (s : State) (c : Comp) (v : CompCfg) : (s.withCfg c v).mcuRows = s.mcuRows := rfl
@[simp] theorem withCfg_byteIdx (s : State) (c : Comp) (v : CompCfg) : (s.withCfg c v).byteIdx = s.byteIdx := rfl
@[simp] theorem withCfg_bitOff (s : State) (c : Comp) (v : CompCfg) : (s.withCfg c v).bitOff = s.bitOff := rfl
@[simp] theorem withCfg_pred (s : State) (c : Comp) (v : CompCfg) : (s.withCfg c v).pred = s.pred := rfl
@[simp] theorem withCfg_errMcu (s : State) (c : Comp) (v : CompCfg) : (s.withCfg c v).errMcu = s.errMcu := rfl
@[simp] theorem withCfg_errBitPos (s : State) (c : Comp) (v : CompCfg) : (s.withCfg c v).errBitPos = s.errBitPos := rfl
@[simp] theorem withCfg_errComp (s : State) (c : Comp) (v : CompCfg) : (s.withCfg c v).errComp = s.errComp := rfl
@[simp] theorem withCfg_lastMcu (s : State) (c : Comp) (v : CompCfg) : (s.withCfg c v).lastMcu = s.lastMcu := rfl
@[simp] theorem withCfg_qt (s : State) (c : Comp) (v : CompCfg) : (s.withCfg c v).qt = s.qt := rfl
@[simp] theorem withCfg_dcHt (s : State) (c : Comp) (v : CompCfg) : (s.withCfg c v).dcHt = s.dcHt := rfl
@[simp] theorem withCfg_acHt (s : State) (c : Comp) (v : CompCfg) : (s.withCfg c v).acHt = s.acHt := rfl
@[simp] theorem withCfg_coef (s : State) (c : Comp) (v : CompCfg) : (s.withCfg c v).coef = s.coef := rfl
@[simp] theorem withCfg_latch (s : State) (c : Comp) (v : CompCfg) : (s.withCfg c v).latch = s.latch := rfl
@[simp] theorem withCfg_bs (s : State) (c : Comp) (v : CompCfg) : (s.withCfg c v).bs = s.bs := rfl
@[simp] theorem withCfg_out (s : State) (c : Comp) (v : CompCfg) : (s.withCfg c v).out = s.out := rfl
@[simp] theorem withCfg_resetIn (s : State) (c : Comp) (v : CompCfg) : (s.withCfg c v).resetIn = s.resetIn := rfl
@[simp] theorem withCfg_program (s : State) (c : Comp) (v : CompCfg) : (s.withCfg c v).program = s.program := rfl
@[simp] theorem withCfg_responses (s : State) (c : Comp) (v : CompCfg) : (s.withCfg c v).responses = s.responses := rfl
@[simp] theorem withCfg_bindings (s : State) (c : Comp) (v : CompCfg) : (s.withCfg c v).bindings = s.bindings := rfl
@[simp] theorem withCfg_delays (s : State) (c : Comp) (v : CompCfg) : (s.withCfg c v).delays = s.delays := rfl
@[simp] theorem withCfg_draws (s : State) (c : Comp) (v : CompCfg) : (s.withCfg c v).draws = s.draws := rfl

/-! ## `hostViolation` -/

@[simp] theorem hostViolation_params (s : State) : (hostViolation s).params = s.params := rfl
@[simp] theorem hostViolation_ctrl (s : State) : (hostViolation s).ctrl = s.ctrl := rfl
@[simp] theorem hostViolation_done (s : State) : (hostViolation s).done = s.done := rfl
@[simp] theorem hostViolation_err (s : State) : (hostViolation s).err = s.err := rfl
@[simp] theorem hostViolation_hostViol (s : State) : (hostViolation s).hostViol = true := rfl
@[simp] theorem hostViolation_scanActive (s : State) : (hostViolation s).scanActive = s.scanActive := rfl
@[simp] theorem hostViolation_mcuPending (s : State) : (hostViolation s).mcuPending = s.mcuPending := rfl
@[simp] theorem hostViolation_errCode (s : State) : (hostViolation s).errCode = s.errCode := rfl
@[simp] theorem hostViolation_width (s : State) : (hostViolation s).width = s.width := rfl
@[simp] theorem hostViolation_height (s : State) : (hostViolation s).height = s.height := rfl
@[simp] theorem hostViolation_ncomp (s : State) : (hostViolation s).ncomp = s.ncomp := rfl
@[simp] theorem hostViolation_compCfg (s : State) : (hostViolation s).compCfg = s.compCfg := rfl
@[simp] theorem hostViolation_scanCfg (s : State) : (hostViolation s).scanCfg = s.scanCfg := rfl
@[simp] theorem hostViolation_restart (s : State) : (hostViolation s).restart = s.restart := rfl
@[simp] theorem hostViolation_bsLen (s : State) : (hostViolation s).bsLen = s.bsLen := rfl
@[simp] theorem hostViolation_mcuIdx (s : State) : (hostViolation s).mcuIdx = s.mcuIdx := rfl
@[simp] theorem hostViolation_mcuTotal (s : State) : (hostViolation s).mcuTotal = s.mcuTotal := rfl
@[simp] theorem hostViolation_mcuCols (s : State) : (hostViolation s).mcuCols = s.mcuCols := rfl
@[simp] theorem hostViolation_mcuRows (s : State) : (hostViolation s).mcuRows = s.mcuRows := rfl
@[simp] theorem hostViolation_byteIdx (s : State) : (hostViolation s).byteIdx = s.byteIdx := rfl
@[simp] theorem hostViolation_bitOff (s : State) : (hostViolation s).bitOff = s.bitOff := rfl
@[simp] theorem hostViolation_pred (s : State) : (hostViolation s).pred = s.pred := rfl
@[simp] theorem hostViolation_errMcu (s : State) : (hostViolation s).errMcu = s.errMcu := rfl
@[simp] theorem hostViolation_errBitPos (s : State) : (hostViolation s).errBitPos = s.errBitPos := rfl
@[simp] theorem hostViolation_errComp (s : State) : (hostViolation s).errComp = s.errComp := rfl
@[simp] theorem hostViolation_lastMcu (s : State) : (hostViolation s).lastMcu = s.lastMcu := rfl
@[simp] theorem hostViolation_qt (s : State) : (hostViolation s).qt = s.qt := rfl
@[simp] theorem hostViolation_dcHt (s : State) : (hostViolation s).dcHt = s.dcHt := rfl
@[simp] theorem hostViolation_acHt (s : State) : (hostViolation s).acHt = s.acHt := rfl
@[simp] theorem hostViolation_coef (s : State) : (hostViolation s).coef = s.coef := rfl
@[simp] theorem hostViolation_latch (s : State) : (hostViolation s).latch = s.latch := rfl
@[simp] theorem hostViolation_bs (s : State) : (hostViolation s).bs = s.bs := rfl
@[simp] theorem hostViolation_out (s : State) : (hostViolation s).out = s.out := rfl
@[simp] theorem hostViolation_resetIn (s : State) : (hostViolation s).resetIn = s.resetIn := rfl
@[simp] theorem hostViolation_program (s : State) : (hostViolation s).program = s.program := rfl
@[simp] theorem hostViolation_responses (s : State) : (hostViolation s).responses = s.responses := rfl
@[simp] theorem hostViolation_bindings (s : State) : (hostViolation s).bindings = s.bindings := rfl
@[simp] theorem hostViolation_delays (s : State) : (hostViolation s).delays = s.delays := rfl
@[simp] theorem hostViolation_draws (s : State) : (hostViolation s).draws = s.draws := rfl

/-! ## `writeStatus` -/

@[simp] theorem writeStatus_params (s : State) (v : Word) : (writeStatus v s).params = s.params := rfl
@[simp] theorem writeStatus_ctrl (s : State) (v : Word) : (writeStatus v s).ctrl = s.ctrl := rfl
@[simp] theorem writeStatus_done (s : State) (v : Word) : (writeStatus v s).done = (s.done && !v.getLsbD 1) := rfl
@[simp] theorem writeStatus_err (s : State) (v : Word) : (writeStatus v s).err = s.err := rfl
@[simp] theorem writeStatus_hostViol (s : State) (v : Word) : (writeStatus v s).hostViol = (s.hostViol && !v.getLsbD 3) := rfl
@[simp] theorem writeStatus_scanActive (s : State) (v : Word) : (writeStatus v s).scanActive = s.scanActive := rfl
@[simp] theorem writeStatus_mcuPending (s : State) (v : Word) : (writeStatus v s).mcuPending = s.mcuPending := rfl
@[simp] theorem writeStatus_errCode (s : State) (v : Word) : (writeStatus v s).errCode = s.errCode := rfl
@[simp] theorem writeStatus_width (s : State) (v : Word) : (writeStatus v s).width = s.width := rfl
@[simp] theorem writeStatus_height (s : State) (v : Word) : (writeStatus v s).height = s.height := rfl
@[simp] theorem writeStatus_ncomp (s : State) (v : Word) : (writeStatus v s).ncomp = s.ncomp := rfl
@[simp] theorem writeStatus_compCfg (s : State) (v : Word) : (writeStatus v s).compCfg = s.compCfg := rfl
@[simp] theorem writeStatus_scanCfg (s : State) (v : Word) : (writeStatus v s).scanCfg = s.scanCfg := rfl
@[simp] theorem writeStatus_restart (s : State) (v : Word) : (writeStatus v s).restart = s.restart := rfl
@[simp] theorem writeStatus_bsLen (s : State) (v : Word) : (writeStatus v s).bsLen = s.bsLen := rfl
@[simp] theorem writeStatus_mcuIdx (s : State) (v : Word) : (writeStatus v s).mcuIdx = s.mcuIdx := rfl
@[simp] theorem writeStatus_mcuTotal (s : State) (v : Word) : (writeStatus v s).mcuTotal = s.mcuTotal := rfl
@[simp] theorem writeStatus_mcuCols (s : State) (v : Word) : (writeStatus v s).mcuCols = s.mcuCols := rfl
@[simp] theorem writeStatus_mcuRows (s : State) (v : Word) : (writeStatus v s).mcuRows = s.mcuRows := rfl
@[simp] theorem writeStatus_byteIdx (s : State) (v : Word) : (writeStatus v s).byteIdx = s.byteIdx := rfl
@[simp] theorem writeStatus_bitOff (s : State) (v : Word) : (writeStatus v s).bitOff = s.bitOff := rfl
@[simp] theorem writeStatus_pred (s : State) (v : Word) : (writeStatus v s).pred = s.pred := rfl
@[simp] theorem writeStatus_errMcu (s : State) (v : Word) : (writeStatus v s).errMcu = s.errMcu := rfl
@[simp] theorem writeStatus_errBitPos (s : State) (v : Word) : (writeStatus v s).errBitPos = s.errBitPos := rfl
@[simp] theorem writeStatus_errComp (s : State) (v : Word) : (writeStatus v s).errComp = s.errComp := rfl
@[simp] theorem writeStatus_lastMcu (s : State) (v : Word) : (writeStatus v s).lastMcu = s.lastMcu := rfl
@[simp] theorem writeStatus_qt (s : State) (v : Word) : (writeStatus v s).qt = s.qt := rfl
@[simp] theorem writeStatus_dcHt (s : State) (v : Word) : (writeStatus v s).dcHt = s.dcHt := rfl
@[simp] theorem writeStatus_acHt (s : State) (v : Word) : (writeStatus v s).acHt = s.acHt := rfl
@[simp] theorem writeStatus_coef (s : State) (v : Word) : (writeStatus v s).coef = s.coef := rfl
@[simp] theorem writeStatus_latch (s : State) (v : Word) : (writeStatus v s).latch = s.latch := rfl
@[simp] theorem writeStatus_bs (s : State) (v : Word) : (writeStatus v s).bs = s.bs := rfl
@[simp] theorem writeStatus_out (s : State) (v : Word) : (writeStatus v s).out = s.out := rfl
@[simp] theorem writeStatus_resetIn (s : State) (v : Word) : (writeStatus v s).resetIn = s.resetIn := rfl
@[simp] theorem writeStatus_program (s : State) (v : Word) : (writeStatus v s).program = s.program := rfl
@[simp] theorem writeStatus_responses (s : State) (v : Word) : (writeStatus v s).responses = s.responses := rfl
@[simp] theorem writeStatus_bindings (s : State) (v : Word) : (writeStatus v s).bindings = s.bindings := rfl
@[simp] theorem writeStatus_delays (s : State) (v : Word) : (writeStatus v s).delays = s.delays := rfl
@[simp] theorem writeStatus_draws (s : State) (v : Word) : (writeStatus v s).draws = s.draws := rfl

/-! ## `beginScan` -/

@[simp] theorem beginScan_params (s : State) : (beginScan s).params = s.params := rfl
@[simp] theorem beginScan_ctrl (s : State) : (beginScan s).ctrl = s.ctrl := rfl
@[simp] theorem beginScan_done (s : State) : (beginScan s).done = s.done := rfl
@[simp] theorem beginScan_err (s : State) : (beginScan s).err = s.err := rfl
@[simp] theorem beginScan_hostViol (s : State) : (beginScan s).hostViol = s.hostViol := rfl
@[simp] theorem beginScan_scanActive (s : State) : (beginScan s).scanActive = true := rfl
@[simp] theorem beginScan_mcuPending (s : State) : (beginScan s).mcuPending = false := rfl
@[simp] theorem beginScan_errCode (s : State) : (beginScan s).errCode = s.errCode := rfl
@[simp] theorem beginScan_width (s : State) : (beginScan s).width = s.width := rfl
@[simp] theorem beginScan_height (s : State) : (beginScan s).height = s.height := rfl
@[simp] theorem beginScan_ncomp (s : State) : (beginScan s).ncomp = s.ncomp := rfl
@[simp] theorem beginScan_compCfg (s : State) : (beginScan s).compCfg = s.compCfg := rfl
@[simp] theorem beginScan_scanCfg (s : State) : (beginScan s).scanCfg = s.scanCfg := rfl
@[simp] theorem beginScan_restart (s : State) : (beginScan s).restart = s.restart := rfl
@[simp] theorem beginScan_bsLen (s : State) : (beginScan s).bsLen = s.bsLen := rfl
@[simp] theorem beginScan_mcuIdx (s : State) : (beginScan s).mcuIdx = 0 := rfl
@[simp] theorem beginScan_mcuTotal (s : State) : (beginScan s).mcuTotal = BitVec.ofNat 32 (ceil8 s.width.toNat * ceil8 s.height.toNat) := rfl
@[simp] theorem beginScan_mcuCols (s : State) : (beginScan s).mcuCols = BitVec.ofNat 16 (ceil8 s.width.toNat) := rfl
@[simp] theorem beginScan_mcuRows (s : State) : (beginScan s).mcuRows = BitVec.ofNat 16 (ceil8 s.height.toNat) := rfl
@[simp] theorem beginScan_byteIdx (s : State) : (beginScan s).byteIdx = 0 := rfl
@[simp] theorem beginScan_bitOff (s : State) : (beginScan s).bitOff = 0 := rfl
@[simp] theorem beginScan_pred (s : State) : (beginScan s).pred = Vector.replicate 3 0 := rfl
@[simp] theorem beginScan_errMcu (s : State) : (beginScan s).errMcu = s.errMcu := rfl
@[simp] theorem beginScan_errBitPos (s : State) : (beginScan s).errBitPos = s.errBitPos := rfl
@[simp] theorem beginScan_errComp (s : State) : (beginScan s).errComp = s.errComp := rfl
@[simp] theorem beginScan_lastMcu (s : State) : (beginScan s).lastMcu = 0 := rfl
@[simp] theorem beginScan_qt (s : State) : (beginScan s).qt = s.qt := rfl
@[simp] theorem beginScan_dcHt (s : State) : (beginScan s).dcHt = s.dcHt := rfl
@[simp] theorem beginScan_acHt (s : State) : (beginScan s).acHt = s.acHt := rfl
@[simp] theorem beginScan_coef (s : State) : (beginScan s).coef = Vector.replicate 3 (Vector.replicate 64 0) := rfl
@[simp] theorem beginScan_latch (s : State) : (beginScan s).latch = s.latch := rfl
@[simp] theorem beginScan_bs (s : State) : (beginScan s).bs = s.bs := rfl
@[simp] theorem beginScan_out (s : State) : (beginScan s).out = s.out := rfl
@[simp] theorem beginScan_resetIn (s : State) : (beginScan s).resetIn = s.resetIn := rfl
@[simp] theorem beginScan_program (s : State) : (beginScan s).program = s.program := rfl
@[simp] theorem beginScan_responses (s : State) : (beginScan s).responses = s.responses := rfl
@[simp] theorem beginScan_bindings (s : State) : (beginScan s).bindings = s.bindings := rfl
@[simp] theorem beginScan_delays (s : State) : (beginScan s).delays = s.delays := rfl
@[simp] theorem beginScan_draws (s : State) : (beginScan s).draws = s.draws := rfl

/-! ## `finishRecon` -/

@[simp] theorem finishRecon_params (s : State) : (finishRecon s).params = s.params := rfl
@[simp] theorem finishRecon_ctrl (s : State) : (finishRecon s).ctrl = s.ctrl := rfl
@[simp] theorem finishRecon_done (s : State) : (finishRecon s).done = s.done := rfl
@[simp] theorem finishRecon_err (s : State) : (finishRecon s).err = s.err := rfl
@[simp] theorem finishRecon_hostViol (s : State) : (finishRecon s).hostViol = s.hostViol := rfl
@[simp] theorem finishRecon_scanActive (s : State) : (finishRecon s).scanActive = (s.scanActive && !(s.mcuIdx == s.mcuTotal)) := rfl
@[simp] theorem finishRecon_mcuPending (s : State) : (finishRecon s).mcuPending = false := rfl
@[simp] theorem finishRecon_errCode (s : State) : (finishRecon s).errCode = s.errCode := rfl
@[simp] theorem finishRecon_width (s : State) : (finishRecon s).width = s.width := rfl
@[simp] theorem finishRecon_height (s : State) : (finishRecon s).height = s.height := rfl
@[simp] theorem finishRecon_ncomp (s : State) : (finishRecon s).ncomp = s.ncomp := rfl
@[simp] theorem finishRecon_compCfg (s : State) : (finishRecon s).compCfg = s.compCfg := rfl
@[simp] theorem finishRecon_scanCfg (s : State) : (finishRecon s).scanCfg = s.scanCfg := rfl
@[simp] theorem finishRecon_restart (s : State) : (finishRecon s).restart = s.restart := rfl
@[simp] theorem finishRecon_bsLen (s : State) : (finishRecon s).bsLen = s.bsLen := rfl
@[simp] theorem finishRecon_mcuIdx (s : State) : (finishRecon s).mcuIdx = s.mcuIdx := rfl
@[simp] theorem finishRecon_mcuTotal (s : State) : (finishRecon s).mcuTotal = s.mcuTotal := rfl
@[simp] theorem finishRecon_mcuCols (s : State) : (finishRecon s).mcuCols = s.mcuCols := rfl
@[simp] theorem finishRecon_mcuRows (s : State) : (finishRecon s).mcuRows = s.mcuRows := rfl
@[simp] theorem finishRecon_byteIdx (s : State) : (finishRecon s).byteIdx = s.byteIdx := rfl
@[simp] theorem finishRecon_bitOff (s : State) : (finishRecon s).bitOff = s.bitOff := rfl
@[simp] theorem finishRecon_pred (s : State) : (finishRecon s).pred = s.pred := rfl
@[simp] theorem finishRecon_errMcu (s : State) : (finishRecon s).errMcu = s.errMcu := rfl
@[simp] theorem finishRecon_errBitPos (s : State) : (finishRecon s).errBitPos = s.errBitPos := rfl
@[simp] theorem finishRecon_errComp (s : State) : (finishRecon s).errComp = s.errComp := rfl
@[simp] theorem finishRecon_lastMcu (s : State) : (finishRecon s).lastMcu = s.lastMcu := rfl
@[simp] theorem finishRecon_qt (s : State) : (finishRecon s).qt = s.qt := rfl
@[simp] theorem finishRecon_dcHt (s : State) : (finishRecon s).dcHt = s.dcHt := rfl
@[simp] theorem finishRecon_acHt (s : State) : (finishRecon s).acHt = s.acHt := rfl
@[simp] theorem finishRecon_coef (s : State) : (finishRecon s).coef = s.coef := rfl
@[simp] theorem finishRecon_latch (s : State) : (finishRecon s).latch = s.latch := rfl
@[simp] theorem finishRecon_bs (s : State) : (finishRecon s).bs = s.bs := rfl
@[simp] theorem finishRecon_out (s : State) : (finishRecon s).out = s.out := rfl
@[simp] theorem finishRecon_resetIn (s : State) : (finishRecon s).resetIn = s.resetIn := rfl
@[simp] theorem finishRecon_program (s : State) : (finishRecon s).program = s.program := rfl
@[simp] theorem finishRecon_responses (s : State) : (finishRecon s).responses = s.responses := rfl
@[simp] theorem finishRecon_bindings (s : State) : (finishRecon s).bindings = s.bindings := rfl
@[simp] theorem finishRecon_delays (s : State) : (finishRecon s).delays = s.delays := rfl
@[simp] theorem finishRecon_draws (s : State) : (finishRecon s).draws = s.draws := rfl

/-! ## `recordResponse` -/

@[simp] theorem recordResponse_params (s : State) (r : BusResponse) : (recordResponse r s).params = s.params := rfl
@[simp] theorem recordResponse_ctrl (s : State) (r : BusResponse) : (recordResponse r s).ctrl = s.ctrl := rfl
@[simp] theorem recordResponse_done (s : State) (r : BusResponse) : (recordResponse r s).done = s.done := rfl
@[simp] theorem recordResponse_err (s : State) (r : BusResponse) : (recordResponse r s).err = s.err := rfl
@[simp] theorem recordResponse_hostViol (s : State) (r : BusResponse) : (recordResponse r s).hostViol = s.hostViol := rfl
@[simp] theorem recordResponse_scanActive (s : State) (r : BusResponse) : (recordResponse r s).scanActive = s.scanActive := rfl
@[simp] theorem recordResponse_mcuPending (s : State) (r : BusResponse) : (recordResponse r s).mcuPending = s.mcuPending := rfl
@[simp] theorem recordResponse_errCode (s : State) (r : BusResponse) : (recordResponse r s).errCode = s.errCode := rfl
@[simp] theorem recordResponse_width (s : State) (r : BusResponse) : (recordResponse r s).width = s.width := rfl
@[simp] theorem recordResponse_height (s : State) (r : BusResponse) : (recordResponse r s).height = s.height := rfl
@[simp] theorem recordResponse_ncomp (s : State) (r : BusResponse) : (recordResponse r s).ncomp = s.ncomp := rfl
@[simp] theorem recordResponse_compCfg (s : State) (r : BusResponse) : (recordResponse r s).compCfg = s.compCfg := rfl
@[simp] theorem recordResponse_scanCfg (s : State) (r : BusResponse) : (recordResponse r s).scanCfg = s.scanCfg := rfl
@[simp] theorem recordResponse_restart (s : State) (r : BusResponse) : (recordResponse r s).restart = s.restart := rfl
@[simp] theorem recordResponse_bsLen (s : State) (r : BusResponse) : (recordResponse r s).bsLen = s.bsLen := rfl
@[simp] theorem recordResponse_mcuIdx (s : State) (r : BusResponse) : (recordResponse r s).mcuIdx = s.mcuIdx := rfl
@[simp] theorem recordResponse_mcuTotal (s : State) (r : BusResponse) : (recordResponse r s).mcuTotal = s.mcuTotal := rfl
@[simp] theorem recordResponse_mcuCols (s : State) (r : BusResponse) : (recordResponse r s).mcuCols = s.mcuCols := rfl
@[simp] theorem recordResponse_mcuRows (s : State) (r : BusResponse) : (recordResponse r s).mcuRows = s.mcuRows := rfl
@[simp] theorem recordResponse_byteIdx (s : State) (r : BusResponse) : (recordResponse r s).byteIdx = s.byteIdx := rfl
@[simp] theorem recordResponse_bitOff (s : State) (r : BusResponse) : (recordResponse r s).bitOff = s.bitOff := rfl
@[simp] theorem recordResponse_pred (s : State) (r : BusResponse) : (recordResponse r s).pred = s.pred := rfl
@[simp] theorem recordResponse_errMcu (s : State) (r : BusResponse) : (recordResponse r s).errMcu = s.errMcu := rfl
@[simp] theorem recordResponse_errBitPos (s : State) (r : BusResponse) : (recordResponse r s).errBitPos = s.errBitPos := rfl
@[simp] theorem recordResponse_errComp (s : State) (r : BusResponse) : (recordResponse r s).errComp = s.errComp := rfl
@[simp] theorem recordResponse_lastMcu (s : State) (r : BusResponse) : (recordResponse r s).lastMcu = s.lastMcu := rfl
@[simp] theorem recordResponse_qt (s : State) (r : BusResponse) : (recordResponse r s).qt = s.qt := rfl
@[simp] theorem recordResponse_dcHt (s : State) (r : BusResponse) : (recordResponse r s).dcHt = s.dcHt := rfl
@[simp] theorem recordResponse_acHt (s : State) (r : BusResponse) : (recordResponse r s).acHt = s.acHt := rfl
@[simp] theorem recordResponse_coef (s : State) (r : BusResponse) : (recordResponse r s).coef = s.coef := rfl
@[simp] theorem recordResponse_latch (s : State) (r : BusResponse) : (recordResponse r s).latch = s.latch := rfl
@[simp] theorem recordResponse_bs (s : State) (r : BusResponse) : (recordResponse r s).bs = s.bs := rfl
@[simp] theorem recordResponse_out (s : State) (r : BusResponse) : (recordResponse r s).out = s.out := rfl
@[simp] theorem recordResponse_resetIn (s : State) (r : BusResponse) : (recordResponse r s).resetIn = s.resetIn := rfl
@[simp] theorem recordResponse_program (s : State) (r : BusResponse) : (recordResponse r s).program = s.program := rfl
@[simp] theorem recordResponse_responses (s : State) (r : BusResponse) : (recordResponse r s).responses = r :: s.responses := rfl
@[simp] theorem recordResponse_bindings (s : State) (r : BusResponse) : (recordResponse r s).bindings = s.bindings := rfl
@[simp] theorem recordResponse_delays (s : State) (r : BusResponse) : (recordResponse r s).delays = s.delays := rfl
@[simp] theorem recordResponse_draws (s : State) (r : BusResponse) : (recordResponse r s).draws = s.draws := rfl

/-! ## `resetState` -/

@[simp] theorem resetState_params (s : State) : (resetState s).params = s.params := rfl
@[simp] theorem resetState_ctrl (s : State) : (resetState s).ctrl = { irqDoneEn := false, irqErrEn := false, rstAlign := false } := rfl
@[simp] theorem resetState_done (s : State) : (resetState s).done = false := rfl
@[simp] theorem resetState_err (s : State) : (resetState s).err = false := rfl
@[simp] theorem resetState_hostViol (s : State) : (resetState s).hostViol = false := rfl
@[simp] theorem resetState_scanActive (s : State) : (resetState s).scanActive = false := rfl
@[simp] theorem resetState_mcuPending (s : State) : (resetState s).mcuPending = false := rfl
@[simp] theorem resetState_errCode (s : State) : (resetState s).errCode = 0 := rfl
@[simp] theorem resetState_width (s : State) : (resetState s).width = 0 := rfl
@[simp] theorem resetState_height (s : State) : (resetState s).height = 0 := rfl
@[simp] theorem resetState_ncomp (s : State) : (resetState s).ncomp = 0 := rfl
@[simp] theorem resetState_compCfg (s : State) : (resetState s).compCfg = Vector.replicate 3 { qtId := 0, dcId := 0, acId := 0 } := rfl
@[simp] theorem resetState_scanCfg (s : State) : (resetState s).scanCfg = { n := 0, id0 := 0, id1 := 0, id2 := 0 } := rfl
@[simp] theorem resetState_restart (s : State) : (resetState s).restart = 0 := rfl
@[simp] theorem resetState_bsLen (s : State) : (resetState s).bsLen = 0 := rfl
@[simp] theorem resetState_mcuIdx (s : State) : (resetState s).mcuIdx = 0 := rfl
@[simp] theorem resetState_mcuTotal (s : State) : (resetState s).mcuTotal = 0 := rfl
@[simp] theorem resetState_mcuCols (s : State) : (resetState s).mcuCols = 0 := rfl
@[simp] theorem resetState_mcuRows (s : State) : (resetState s).mcuRows = 0 := rfl
@[simp] theorem resetState_byteIdx (s : State) : (resetState s).byteIdx = 0 := rfl
@[simp] theorem resetState_bitOff (s : State) : (resetState s).bitOff = 0 := rfl
@[simp] theorem resetState_pred (s : State) : (resetState s).pred = Vector.replicate 3 0 := rfl
@[simp] theorem resetState_errMcu (s : State) : (resetState s).errMcu = 0 := rfl
@[simp] theorem resetState_errBitPos (s : State) : (resetState s).errBitPos = 0 := rfl
@[simp] theorem resetState_errComp (s : State) : (resetState s).errComp = 0 := rfl
@[simp] theorem resetState_lastMcu (s : State) : (resetState s).lastMcu = 0 := rfl
@[simp] theorem resetState_qt (s : State) : (resetState s).qt = Vector.replicate 4 QuantTable.reset := rfl
@[simp] theorem resetState_dcHt (s : State) : (resetState s).dcHt = Vector.replicate 4 HuffTable.reset := rfl
@[simp] theorem resetState_acHt (s : State) : (resetState s).acHt = Vector.replicate 4 HuffTable.reset := rfl
@[simp] theorem resetState_coef (s : State) : (resetState s).coef = Vector.replicate 3 (Vector.replicate 64 0) := rfl
@[simp] theorem resetState_latch (s : State) : (resetState s).latch = none := rfl
@[simp] theorem resetState_bs (s : State) : (resetState s).bs = s.bs := rfl
@[simp] theorem resetState_out (s : State) : (resetState s).out = s.out := rfl
@[simp] theorem resetState_resetIn (s : State) : (resetState s).resetIn = s.resetIn := rfl
@[simp] theorem resetState_program (s : State) : (resetState s).program = s.program := rfl
@[simp] theorem resetState_responses (s : State) : (resetState s).responses = s.responses := rfl
@[simp] theorem resetState_bindings (s : State) : (resetState s).bindings = s.bindings := rfl
@[simp] theorem resetState_delays (s : State) : (resetState s).delays = s.delays := rfl
@[simp] theorem resetState_draws (s : State) : (resetState s).draws = s.draws := rfl

/-! ## `withHuff` -/

@[simp] theorem withHuff_params (s : State) (c : HuffClass) (t : TableId) (h : HuffTable) :
    (s.withHuff c t h).params = s.params := by cases c <;> rfl
@[simp] theorem withHuff_ctrl (s : State) (c : HuffClass) (t : TableId) (h : HuffTable) :
    (s.withHuff c t h).ctrl = s.ctrl := by cases c <;> rfl
@[simp] theorem withHuff_done (s : State) (c : HuffClass) (t : TableId) (h : HuffTable) :
    (s.withHuff c t h).done = s.done := by cases c <;> rfl
@[simp] theorem withHuff_err (s : State) (c : HuffClass) (t : TableId) (h : HuffTable) :
    (s.withHuff c t h).err = s.err := by cases c <;> rfl
@[simp] theorem withHuff_hostViol (s : State) (c : HuffClass) (t : TableId) (h : HuffTable) :
    (s.withHuff c t h).hostViol = s.hostViol := by cases c <;> rfl
@[simp] theorem withHuff_scanActive (s : State) (c : HuffClass) (t : TableId) (h : HuffTable) :
    (s.withHuff c t h).scanActive = s.scanActive := by cases c <;> rfl
@[simp] theorem withHuff_mcuPending (s : State) (c : HuffClass) (t : TableId) (h : HuffTable) :
    (s.withHuff c t h).mcuPending = s.mcuPending := by cases c <;> rfl
@[simp] theorem withHuff_errCode (s : State) (c : HuffClass) (t : TableId) (h : HuffTable) :
    (s.withHuff c t h).errCode = s.errCode := by cases c <;> rfl
@[simp] theorem withHuff_width (s : State) (c : HuffClass) (t : TableId) (h : HuffTable) :
    (s.withHuff c t h).width = s.width := by cases c <;> rfl
@[simp] theorem withHuff_height (s : State) (c : HuffClass) (t : TableId) (h : HuffTable) :
    (s.withHuff c t h).height = s.height := by cases c <;> rfl
@[simp] theorem withHuff_ncomp (s : State) (c : HuffClass) (t : TableId) (h : HuffTable) :
    (s.withHuff c t h).ncomp = s.ncomp := by cases c <;> rfl
@[simp] theorem withHuff_compCfg (s : State) (c : HuffClass) (t : TableId) (h : HuffTable) :
    (s.withHuff c t h).compCfg = s.compCfg := by cases c <;> rfl
@[simp] theorem withHuff_scanCfg (s : State) (c : HuffClass) (t : TableId) (h : HuffTable) :
    (s.withHuff c t h).scanCfg = s.scanCfg := by cases c <;> rfl
@[simp] theorem withHuff_restart (s : State) (c : HuffClass) (t : TableId) (h : HuffTable) :
    (s.withHuff c t h).restart = s.restart := by cases c <;> rfl
@[simp] theorem withHuff_bsLen (s : State) (c : HuffClass) (t : TableId) (h : HuffTable) :
    (s.withHuff c t h).bsLen = s.bsLen := by cases c <;> rfl
@[simp] theorem withHuff_mcuIdx (s : State) (c : HuffClass) (t : TableId) (h : HuffTable) :
    (s.withHuff c t h).mcuIdx = s.mcuIdx := by cases c <;> rfl
@[simp] theorem withHuff_mcuTotal (s : State) (c : HuffClass) (t : TableId) (h : HuffTable) :
    (s.withHuff c t h).mcuTotal = s.mcuTotal := by cases c <;> rfl
@[simp] theorem withHuff_mcuCols (s : State) (c : HuffClass) (t : TableId) (h : HuffTable) :
    (s.withHuff c t h).mcuCols = s.mcuCols := by cases c <;> rfl
@[simp] theorem withHuff_mcuRows (s : State) (c : HuffClass) (t : TableId) (h : HuffTable) :
    (s.withHuff c t h).mcuRows = s.mcuRows := by cases c <;> rfl
@[simp] theorem withHuff_byteIdx (s : State) (c : HuffClass) (t : TableId) (h : HuffTable) :
    (s.withHuff c t h).byteIdx = s.byteIdx := by cases c <;> rfl
@[simp] theorem withHuff_bitOff (s : State) (c : HuffClass) (t : TableId) (h : HuffTable) :
    (s.withHuff c t h).bitOff = s.bitOff := by cases c <;> rfl
@[simp] theorem withHuff_pred (s : State) (c : HuffClass) (t : TableId) (h : HuffTable) :
    (s.withHuff c t h).pred = s.pred := by cases c <;> rfl
@[simp] theorem withHuff_errMcu (s : State) (c : HuffClass) (t : TableId) (h : HuffTable) :
    (s.withHuff c t h).errMcu = s.errMcu := by cases c <;> rfl
@[simp] theorem withHuff_errBitPos (s : State) (c : HuffClass) (t : TableId) (h : HuffTable) :
    (s.withHuff c t h).errBitPos = s.errBitPos := by cases c <;> rfl
@[simp] theorem withHuff_errComp (s : State) (c : HuffClass) (t : TableId) (h : HuffTable) :
    (s.withHuff c t h).errComp = s.errComp := by cases c <;> rfl
@[simp] theorem withHuff_lastMcu (s : State) (c : HuffClass) (t : TableId) (h : HuffTable) :
    (s.withHuff c t h).lastMcu = s.lastMcu := by cases c <;> rfl
@[simp] theorem withHuff_qt (s : State) (c : HuffClass) (t : TableId) (h : HuffTable) :
    (s.withHuff c t h).qt = s.qt := by cases c <;> rfl
@[simp] theorem withHuff_coef (s : State) (c : HuffClass) (t : TableId) (h : HuffTable) :
    (s.withHuff c t h).coef = s.coef := by cases c <;> rfl
@[simp] theorem withHuff_latch (s : State) (c : HuffClass) (t : TableId) (h : HuffTable) :
    (s.withHuff c t h).latch = s.latch := by cases c <;> rfl
@[simp] theorem withHuff_bs (s : State) (c : HuffClass) (t : TableId) (h : HuffTable) :
    (s.withHuff c t h).bs = s.bs := by cases c <;> rfl
@[simp] theorem withHuff_out (s : State) (c : HuffClass) (t : TableId) (h : HuffTable) :
    (s.withHuff c t h).out = s.out := by cases c <;> rfl
@[simp] theorem withHuff_resetIn (s : State) (c : HuffClass) (t : TableId) (h : HuffTable) :
    (s.withHuff c t h).resetIn = s.resetIn := by cases c <;> rfl
@[simp] theorem withHuff_program (s : State) (c : HuffClass) (t : TableId) (h : HuffTable) :
    (s.withHuff c t h).program = s.program := by cases c <;> rfl
@[simp] theorem withHuff_responses (s : State) (c : HuffClass) (t : TableId) (h : HuffTable) :
    (s.withHuff c t h).responses = s.responses := by cases c <;> rfl
@[simp] theorem withHuff_bindings (s : State) (c : HuffClass) (t : TableId) (h : HuffTable) :
    (s.withHuff c t h).bindings = s.bindings := by cases c <;> rfl
@[simp] theorem withHuff_delays (s : State) (c : HuffClass) (t : TableId) (h : HuffTable) :
    (s.withHuff c t h).delays = s.delays := by cases c <;> rfl
@[simp] theorem withHuff_draws (s : State) (c : HuffClass) (t : TableId) (h : HuffTable) :
    (s.withHuff c t h).draws = s.draws := by cases c <;> rfl

end Sys2Proof.Machine
end

