-- ==== Sys2Proof/Laws/Operands.lean ====
section
/-! SUPPORT. The views of the state (a component's block, predictor and configuration, a table) after each
named update: the updated one has the new value, every other is as before. -/

namespace Sys2Proof.Machine

theorem idx_injective {c d : Comp} (h : c.idx.val = d.idx.val) : c = d := by
  cases c <;> cases d <;> first | rfl | cases h

theorem ofBits_bits {b : BitVec 2} {c : Comp} (h : Comp.ofBits b = some c) : c.bits = b := by
  have k : ∀ b : BitVec 2, (Comp.ofBits b).all (fun c => c.bits = b) := by decide
  have := k b
  rw [h] at this
  simpa using this

@[simp] theorem ofBits_of_bits (c : Comp) : Comp.ofBits c.bits = some c := by cases c <;> rfl

/-! ## Coefficients -/

@[simp] theorem withCoef_block (s : State) (c : Comp) (i : Fin 64) (v : Half) :
    (s.withCoef c i v).block c = (s.block c).set i v := by
  unfold State.withCoef State.block; exact Vector.getElem_set_self ..

theorem withCoef_block_other (s : State) (c d : Comp) (i : Fin 64) (v : Half) (h : c ≠ d) :
    (s.withCoef c i v).block d = s.block d := by
  unfold State.withCoef State.block
  exact Vector.getElem_set_ne c.idx.isLt d.idx.isLt (fun e => h (idx_injective e))

@[simp] theorem withZeroBlock_block (s : State) (c : Comp) :
    (s.withZeroBlock c).block c = Vector.replicate 64 0 := by
  unfold State.withZeroBlock State.block; exact Vector.getElem_set_self ..

theorem withZeroBlock_block_other (s : State) (c d : Comp) (h : c ≠ d) :
    (s.withZeroBlock c).block d = s.block d := by
  unfold State.withZeroBlock State.block
  exact Vector.getElem_set_ne c.idx.isLt d.idx.isLt (fun e => h (idx_injective e))

@[simp] theorem withPred_block (s : State) (c d : Comp) (v : Half) :
    (s.withPred c v).block d = s.block d := rfl

/-! ## Predictors -/

@[simp] theorem withPred_predOf (s : State) (c : Comp) (v : Half) : (s.withPred c v).predOf c = v := by
  unfold State.withPred State.predOf; exact Vector.getElem_set_self ..

theorem withPred_predOf_other (s : State) (c d : Comp) (v : Half) (h : c ≠ d) :
    (s.withPred c v).predOf d = s.predOf d := by
  unfold State.withPred State.predOf
  exact Vector.getElem_set_ne c.idx.isLt d.idx.isLt (fun e => h (idx_injective e))

@[simp] theorem withCoef_predOf (s : State) (c d : Comp) (i : Fin 64) (v : Half) :
    (s.withCoef c i v).predOf d = s.predOf d := rfl

@[simp] theorem withZeroBlock_predOf (s : State) (c d : Comp) :
    (s.withZeroBlock c).predOf d = s.predOf d := rfl

/-! ## Tables and configuration -/

@[simp] theorem withCfg_cfg (s : State) (c : Comp) (v : CompCfg) : (s.withCfg c v).cfg c = v := by
  unfold State.withCfg State.cfg; exact Vector.getElem_set_self ..

theorem withCfg_cfg_other (s : State) (c d : Comp) (v : CompCfg) (h : c ≠ d) :
    (s.withCfg c v).cfg d = s.cfg d := by
  unfold State.withCfg State.cfg
  exact Vector.getElem_set_ne c.idx.isLt d.idx.isLt (fun e => h (idx_injective e))

theorem withQt_get (s : State) (t : TableId) (q : QuantTable) : (s.withQt t q).qt[t] = q := by
  unfold State.withQt; exact Vector.getElem_set_self ..

theorem withQt_get_other (s : State) (t u : TableId) (q : QuantTable) (h : t ≠ u) :
    (s.withQt t q).qt[u] = s.qt[u] := by
  unfold State.withQt
  exact Vector.getElem_set_ne t.isLt u.isLt (fun e => h (Fin.ext e))

/-- Reading a table after one is replaced. -/
theorem huff_withHuff (s : State) (c d : HuffClass) (t u : TableId) (h : HuffTable) :
    (s.withHuff c t h).huff d u = if c = d ∧ t = u then h else s.huff d u := by
  cases c <;> cases d <;> simp [State.withHuff, State.huff, Vector.getElem_set, Fin.ext_iff]

end Sys2Proof.Machine
end

