-- ==== Sys2Proof/Laws/Res.lean ====
section
/-! SUPPORT. How the results of sub-steps compose, and what `conclude` and `unlessFrozen` can answer. -/

namespace Sys2Proof.Machine

variable {α β : Type}

@[simp] theorem andThen_done (a : α) (s : State) (f : α → State → Res β) :
    (Res.done a s).andThen f = f a s := rfl

@[simp] theorem andThen_stop (e : Stop) (s : State) (f : α → State → Res β) :
    (Res.stop e s : Res α).andThen f = .stop e s := rfl

@[simp] theorem state_done (a : α) (s : State) : (Res.done a s).state = s := rfl

@[simp] theorem state_stop (e : Stop) (s : State) : (Res.stop e s : Res α).state = s := rfl

theorem andThen_eq_done {r : Res α} {f : α → State → Res β} {b : β} {u : State} :
    r.andThen f = .done b u ↔ ∃ a t, r = .done a t ∧ f a t = .done b u := by
  cases r <;> simp

theorem andThen_eq_stop {r : Res α} {f : α → State → Res β} {e : Stop} {u : State} :
    r.andThen f = .stop e u ↔ r = .stop e u ∨ ∃ a t, r = .done a t ∧ f a t = .stop e u := by
  cases r <;> simp

/-- Sub-steps in sequence are associative. -/
theorem andThen_assoc {γ : Type} (r : Res α) (f : α → State → Res β) (g : β → State → Res γ) :
    (r.andThen f).andThen g = r.andThen (fun a s => (f a s).andThen g) := by
  cases r <;> rfl

/-- A transitive relation between the state before and after holds of a sequence if it holds of both
parts. -/
theorem andThen_rel {R : State → State → Prop} (htrans : ∀ {a b c}, R a b → R b c → R a c)
    {s : State} {r : Res α} {f : α → State → Res β} (h1 : R s r.state)
    (h2 : ∀ a t, r = .done a t → R t (f a t).state) : R s (r.andThen f).state := by
  cases r with
  | done a t => exact htrans h1 (h2 a t rfl)
  | stop e t => exact h1

/-- A sub-step that ends in no model fault. -/
def NoFault (r : Res α) : Prop := ∀ f t, r ≠ .stop (.fault f) t

@[simp] theorem noFault_done (a : α) (s : State) : NoFault (Res.done a s) := by
  intro f t h; cases h

@[simp] theorem noFault_error (e : ErrCode) (b : BitVec 2) (s : State) :
    NoFault (Res.stop (.error e b) s : Res α) := by
  intro f t h; cases h

theorem noFault_andThen {r : Res α} {f : α → State → Res β} (h1 : NoFault r)
    (h2 : ∀ a t, r = .done a t → NoFault (f a t)) : NoFault (r.andThen f) := by
  cases r with
  | done a t => exact h2 a t rfl
  | stop e t =>
    intro g u h
    simp only [andThen_stop, Res.stop.injEq] at h
    exact h1 g u (by rw [h.1, h.2])

/-- Every error a sub-step can stop with is one of the listed codes. -/
def ErrorsIn (codes : List ErrCode) (r : Res α) : Prop :=
  ∀ code comp t, r = .stop (.error code comp) t → code ∈ codes

theorem errorsIn_done (codes : List ErrCode) (a : α) (s : State) : ErrorsIn codes (Res.done a s) := by
  intro c b t h; cases h

theorem errorsIn_error {codes : List ErrCode} {code : ErrCode} (h : code ∈ codes) (b : BitVec 2) (s : State) :
    ErrorsIn codes (Res.stop (.error code b) s : Res α) := by
  intro c d t e; cases e; exact h

theorem errorsIn_fault (codes : List ErrCode) (f : Fault) (s : State) :
    ErrorsIn codes (Res.stop (.fault f) s : Res α) := by
  intro c d t e; cases e

theorem errorsIn_andThen {codes : List ErrCode} {r : Res α} {f : α → State → Res β} (h1 : ErrorsIn codes r)
    (h2 : ∀ a t, r = .done a t → ErrorsIn codes (f a t)) : ErrorsIn codes (r.andThen f) := by
  cases r with
  | done a t => exact h2 a t rfl
  | stop e t => intro c d u h; cases h; exact h1 c d t rfl

/-- `conclude` answers a next state by completion or by error entry. -/
theorem conclude_next {r : Res Unit} {t : State} (h : conclude r = .next t) :
    (∃ u, r = .done () u ∧ t = complete u) ∨
    (∃ e b u, r = .stop (.error e b) u ∧ t = errorEntry e b u) := by
  unfold conclude at h
  split at h
  · left; exact ⟨_, rfl, by simpa using h.symm⟩
  · right; exact ⟨_, _, _, rfl, by simpa using h.symm⟩
  · cases h

/-- A body without a model fault concludes in a next state. -/
theorem conclude_of_noFault {r : Res Unit} (h : NoFault r) : ∃ t, conclude r = .next t := by
  cases r with
  | done a s => exact ⟨_, rfl⟩
  | stop e s =>
    cases e with
    | error c b => exact ⟨_, rfl⟩
    | fault f => exact absurd rfl (h f s)

/-- `conclude` never refuses. -/
theorem conclude_not_refused (r : Res Unit) (q : Refusal) : conclude r ≠ .refused q := by
  unfold conclude; split <;> simp

/-- What a command with the frozen check can answer. -/
theorem unlessFrozen_next {body : State → Res Unit} {s t : State}
    (h : unlessFrozen body s = .next t) :
    (s.err = true ∧ t = complete s) ∨
    (s.err = false ∧ ∃ u, body s = .done () u ∧ t = complete u) ∨
    (s.err = false ∧ ∃ e b u, body s = .stop (.error e b) u ∧ t = errorEntry e b u) := by
  unfold unlessFrozen at h
  split at h
  · left; exact ⟨by assumption, by simpa using h.symm⟩
  · rename_i he
    rcases conclude_next h with h | h
    · exact .inr (.inl ⟨by simpa using he, h⟩)
    · exact .inr (.inr ⟨by simpa using he, h⟩)

theorem unlessFrozen_not_refused (body : State → Res Unit) (s : State) (q : Refusal) :
    unlessFrozen body s ≠ .refused q := by
  unfold unlessFrozen; split
  · simp
  · exact conclude_not_refused _ _

end Sys2Proof.Machine
end

