-- ==== Sys2Proof/Laws/Entropy.lean ====
section
/-! SUPPORT. What the entropy decoder's sub-steps do: the bit reader and the Huffman decoder move the
cursor only, and forwards; block decoding also writes predictors and coefficients; and where no
sub-step meets a model fault. -/

namespace Sys2Proof.Machine

/-! ## What decoding may change -/

/-- Only the cursor, the predictors and the coefficients change; the cursor does not go back, and it
stays within BS if it was (R301, R304). -/
structure DecodeStep (s t : State) : Prop where
  frame : t = { s with byteIdx := t.byteIdx, bitOff := t.bitOff, pred := t.pred, coef := t.coef }
  forward : s.cursor ≤ t.cursor
  within : s.cursorWf → t.cursorWf

theorem DecodeStep.refl (s : State) : DecodeStep s s := ⟨rfl, Nat.le_refl _, id⟩

theorem DecodeStep.trans {s t u : State} (h : DecodeStep s t) (k : DecodeStep t u) : DecodeStep s u :=
  ⟨by rw [k.frame, h.frame], Nat.le_trans h.forward k.forward, fun w => k.within (h.within w)⟩

/-- Only the cursor changes, forwards. -/
structure CursorStep (s t : State) : Prop where
  frame : t = { s with byteIdx := t.byteIdx, bitOff := t.bitOff }
  forward : s.cursor ≤ t.cursor
  within : s.cursorWf → t.cursorWf

theorem CursorStep.refl (s : State) : CursorStep s s := ⟨rfl, Nat.le_refl _, id⟩

theorem CursorStep.trans {s t u : State} (h : CursorStep s t) (k : CursorStep t u) : CursorStep s u :=
  ⟨by rw [k.frame, h.frame], Nat.le_trans h.forward k.forward, fun w => k.within (h.within w)⟩

theorem CursorStep.decode {s t : State} (h : CursorStep s t) : DecodeStep s t :=
  ⟨by rw [h.frame], h.forward, h.within⟩

variable {α β : Type}

theorem CursorStep.seq {s : State} {r : Res α} {f : α → State → Res β} (h1 : CursorStep s r.state)
    (h2 : ∀ a t, r = .done a t → CursorStep t (f a t).state) : CursorStep s (r.andThen f).state :=
  andThen_rel (R := CursorStep) CursorStep.trans h1 h2

theorem DecodeStep.seq {s : State} {r : Res α} {f : α → State → Res β} (h1 : DecodeStep s r.state)
    (h2 : ∀ a t, r = .done a t → DecodeStep t (f a t).state) : DecodeStep s (r.andThen f).state :=
  andThen_rel (R := DecodeStep) DecodeStep.trans h1 h2

/-! ## The bit reader -/

theorem advanceBit_frame (s : State) :
    advanceBit s = { s with byteIdx := (advanceBit s).byteIdx, bitOff := (advanceBit s).bitOff } := by
  unfold advanceBit; split <;> rfl

/-- One bit further (R300). -/
theorem advanceBit_cursor (s : State) : (advanceBit s).cursor = s.cursor + 1 := by
  unfold advanceBit State.cursor
  split
  · rename_i h; simp [h]; omega
  · rename_i h
    have h1 : s.bitOff.val ≠ 7 := fun e => h (Fin.ext e)
    have h2 : (s.bitOff + 1).val = s.bitOff.val + 1 := by
      rw [Fin.val_add]; have := s.bitOff.isLt; simp; omega
    simp only [h2]; omega

theorem advanceBit_within (s : State) (h : s.byteIdx < s.params.bsBytes) :
    (advanceBit s).cursorWf := by
  unfold advanceBit State.cursorWf
  split
  · simp; omega
  · exact ⟨Nat.le_of_lt h, fun _ => h⟩

/-- What `readBit` answers, in each case (R300, R301). -/
theorem readBit_cases (comp : BitVec 2) (s : State) :
    (s.bsLen.toNat ≤ s.byteIdx ∧ readBit comp s = .stop (.error .bsExhausted comp) s) ∨
    (s.byteIdx < s.bsLen.toNat ∧ s.byteIdx < s.params.bsBytes ∧
      readBit comp s = .done (payloadBit s s.cursor) (advanceBit s)) ∨
    (s.byteIdx < s.bsLen.toNat ∧ s.params.bsBytes ≤ s.byteIdx ∧
      readBit comp s = .stop (.fault .bsAddress) s) := by
  unfold readBit
  split
  · exact .inl ⟨by assumption, rfl⟩
  · rename_i h
    unfold bsFetch
    split
    · refine .inr (.inl ⟨by omega, by assumption, ?_⟩)
      have h8 := s.bitOff.isLt
      simp only [andThen_done, payloadBit, State.cursor]
      rw [show (8 * s.byteIdx + s.bitOff.val) / 8 = s.byteIdx by omega,
        show (8 * s.byteIdx + s.bitOff.val) % 8 = s.bitOff.val by omega]
    · exact .inr (.inr ⟨by omega, Nat.le_of_not_lt ‹_›, rfl⟩)

theorem advanceBit_step (s : State) (h : s.byteIdx < s.params.bsBytes) : CursorStep s (advanceBit s) :=
  ⟨advanceBit_frame s, by rw [advanceBit_cursor]; omega, fun _ => advanceBit_within s h⟩

theorem readBit_step (comp : BitVec 2) (s : State) : CursorStep s (readBit comp s).state := by
  rcases readBit_cases comp s with ⟨_, h⟩ | ⟨_, h1, h⟩ | ⟨_, _, h⟩ <;> rw [h]
  · exact CursorStep.refl s
  · exact advanceBit_step s h1
  · exact CursorStep.refl s

/-- BS_LEN does not exceed BS_BYTES: every bit below BS_LEN is one of BS (R312). -/
def BsFits (s : State) : Prop := s.bsLen.toNat ≤ s.params.bsBytes

theorem CursorStep.bsFits {s t : State} (h : CursorStep s t) (k : BsFits s) : BsFits t := by
  unfold BsFits at *; rw [h.frame]; exact k

theorem DecodeStep.bsFits {s t : State} (h : DecodeStep s t) (k : BsFits s) : BsFits t := by
  unfold BsFits at *; rw [h.frame]; exact k

theorem readBit_noFault (comp : BitVec 2) (s : State) (h : BsFits s) : NoFault (readBit comp s) := by
  rcases readBit_cases comp s with ⟨_, e⟩ | ⟨_, _, e⟩ | ⟨a, b, _⟩
  · rw [e]; simp
  · rw [e]; simp
  · unfold BsFits at h; omega

theorem readBitsFrom_step (comp : BitVec 2) (n v : Nat) (s : State) :
    CursorStep s (readBitsFrom comp n v s).state := by
  induction n generalizing v s with
  | zero => exact CursorStep.refl s
  | succ m ih => exact CursorStep.seq (readBit_step comp s) (fun b t _ => ih _ t)

theorem readBitsFrom_noFault (comp : BitVec 2) (n v : Nat) (s : State) (h : BsFits s) :
    NoFault (readBitsFrom comp n v s) := by
  induction n generalizing v s with
  | zero => exact noFault_done _ _
  | succ m ih =>
    refine noFault_andThen (readBit_noFault comp s h) (fun b t e => ih _ t ?_)
    have := readBit_step comp s
    rw [e] at this
    exact this.bsFits h

theorem readBits_step (comp : BitVec 2) (n : Nat) (s : State) :
    CursorStep s (readBits comp n s).state := readBitsFrom_step comp n 0 s

theorem readBits_noFault (comp : BitVec 2) (n : Nat) (s : State) (h : BsFits s) :
    NoFault (readBits comp n s) := readBitsFrom_noFault comp n 0 s h

theorem alignCursor_step (s : State) : DecodeStep s (alignCursor s) := by
  unfold alignCursor
  split
  · exact DecodeStep.refl s
  · rename_i h
    refine ⟨rfl, ?_, fun w => ?_⟩
    · have := s.bitOff.isLt; simp [State.cursor]; omega
    · have := w.2 h; simp [State.cursorWf]; omega

/-! ## The Huffman decoder -/

/-- The offsets of a table name existing slots. -/
def OffsetsFit (h : HuffTable) : Prop := ∀ l : Fin 17, h.offset[l].toNat ≤ 162

theorem searchSlots_ok (h : HuffTable) (code i n : Nat) (hn : i + n ≤ 162) :
    ∃ r, searchSlots h code i n = .ok r := by
  induction n generalizing i with
  | zero => exact ⟨none, rfl⟩
  | succ m ih =>
    have hi : i < 162 := by omega
    unfold searchSlots
    simp only [Vector.getElem?_eq_getElem hi]
    split
    · exact ⟨_, rfl⟩
    · exact ih (i + 1) (by omega)

theorem searchClass_ok (h : HuffTable) (code : Nat) (l : Fin 16) (hf : OffsetsFit h) :
    ∃ r, searchClass h code l = .ok r := by
  have h1 := hf l.castSucc
  have h2 := hf l.succ
  by_cases hc : h.offset[l.castSucc].toNat ≤ h.offset[l.succ].toNat
  · exact searchSlots_ok h code _ _ (by omega)
  · unfold searchClass
    rw [show h.offset[l.succ].toNat - h.offset[l.castSucc].toNat = 0 by omega]
    exact ⟨none, rfl⟩

theorem huffWalk_step (h : HuffTable) (comp : BitVec 2) (n code : Nat) (s : State) :
    CursorStep s (huffWalk h comp n code s).state := by
  induction n generalizing code s with
  | zero => exact CursorStep.refl s
  | succ m ih =>
    refine CursorStep.seq (readBit_step comp s) (fun b t _ => ?_)
    split
    · exact CursorStep.refl t
    · exact ih _ t
    · exact CursorStep.refl t

theorem huffWalk_noFault (h : HuffTable) (comp : BitVec 2) (n code : Nat) (s : State) (hb : BsFits s)
    (hf : OffsetsFit h) : NoFault (huffWalk h comp n code s) := by
  induction n generalizing code s with
  | zero => exact noFault_error _ _ _
  | succ m ih =>
    refine noFault_andThen (readBit_noFault comp s hb) (fun b t e => ?_)
    have ht := readBit_step comp s
    rw [e] at ht
    obtain ⟨r, hr⟩ := searchClass_ok h (2 * code + b.toNat) (Fin.ofNat 16 (15 - m)) hf
    rw [hr]
    cases r with
    | none => exact ih _ t (ht.bsFits hb)
    | some y => exact noFault_done _ _

theorem huffDecode_step (h : HuffTable) (comp : BitVec 2) (s : State) :
    CursorStep s (huffDecode h comp s).state := huffWalk_step h comp 16 0 s

theorem huffDecode_noFault (h : HuffTable) (comp : BitVec 2) (s : State) (hb : BsFits s)
    (hf : OffsetsFit h) : NoFault (huffDecode h comp s) := huffWalk_noFault h comp 16 0 s hb hf

/-! ## Blocks -/

theorem withZeroBlock_step (c : Comp) (s : State) : DecodeStep s (s.withZeroBlock c) :=
  ⟨rfl, Nat.le_refl _, id⟩

theorem withCoef_step (c : Comp) (i : Fin 64) (v : Half) (s : State) :
    DecodeStep s (s.withCoef c i v) := ⟨rfl, Nat.le_refl _, id⟩

theorem predictDc_step (c : Comp) (d : Int) (s : State) : DecodeStep s (predictDc c d s) :=
  ⟨rfl, Nat.le_refl _, id⟩

/-- DC prediction: the predictor takes the wrapped sum, and natural index 0 the predictor (R309). -/
theorem predictDc_predOf (c : Comp) (d : Int) (s : State) :
    (predictDc c d s).predOf c = wrap16 ((s.predOf c).toInt + d) := by simp [predictDc]

theorem predictDc_block (c : Comp) (d : Int) (s : State) :
    (predictDc c d s).block c = (s.block c).set (zz 0) (wrap16 ((s.predOf c).toInt + d)) := by
  simp [predictDc]

theorem predictDc_other (c e : Comp) (d : Int) (s : State) (h : c ≠ e) :
    (predictDc c d s).predOf e = s.predOf e ∧ (predictDc c d s).block e = s.block e := by
  unfold predictDc
  exact ⟨by rw [withCoef_predOf, withPred_predOf_other _ _ _ _ h],
    by rw [withCoef_block_other _ _ _ _ _ h, withPred_block]⟩

theorem decodeDc_step (c : Comp) (s : State) : DecodeStep s (decodeDc c s).state := by
  refine DecodeStep.seq (huffDecode_step _ _ _).decode (fun n t _ => ?_)
  split
  · exact DecodeStep.refl t
  · exact DecodeStep.seq (readBits_step _ _ _).decode
      (fun v u _ => predictDc_step c _ u)

theorem acLoop_step (c : Comp) (turns k : Nat) (s : State) :
    DecodeStep s (acLoop c turns k s).state := by
  induction turns generalizing k s with
  | zero => exact DecodeStep.refl s
  | succ m ih =>
    unfold acLoop
    split
    · refine DecodeStep.seq (huffDecode_step _ _ _).decode (fun y t _ => ?_)
      split
      · exact DecodeStep.refl t
      · split
        · split
          · exact DecodeStep.refl t
          · exact ih _ t
        · split
          · exact DecodeStep.seq (readBits_step _ _ _).decode
              (fun v u _ => (withCoef_step c _ _ u).trans (ih _ _))
          · exact DecodeStep.refl t
    · exact DecodeStep.refl s

theorem decodeBlock_step (c : Comp) (s : State) : DecodeStep s (decodeBlock c s).state :=
  (withZeroBlock_step c s).trans
    (DecodeStep.seq (decodeDc_step c _) (fun _ t _ => acLoop_step c 63 1 t))

theorem decodeBlocks_step (ids : List (BitVec 2)) (s : State) :
    DecodeStep s (decodeBlocks ids s).state := by
  induction ids generalizing s with
  | nil => exact DecodeStep.refl s
  | cons id rest ih =>
    unfold decodeBlocks
    split
    · exact DecodeStep.seq (decodeBlock_step _ s) (fun _ t _ => ih t)
    · exact DecodeStep.refl s

theorem restartBoundary_step (align : Bool) (s : State) : DecodeStep s (restartBoundary align s) := by
  unfold restartBoundary
  split
  · dsimp only
    have h : DecodeStep s { s with pred := Vector.replicate 3 0 } := ⟨rfl, Nat.le_refl _, id⟩
    split
    · exact h.trans (alignCursor_step _)
    · exact h
  · exact DecodeStep.refl s

/-- One turn more than 64 - k changes nothing: no position is left for it (R310). -/
theorem acLoop_succ (c : Comp) (n k : Nat) (s : State) (h : 64 ≤ k + n) :
    acLoop c (n + 1) k s = acLoop c n k s := by
  induction n generalizing k s with
  | zero => unfold acLoop; rw [if_neg (by omega)]
  | succ m ih =>
    rw [acLoop, acLoop]
    split
    · congr 1; funext y t
      split
      · rfl
      · split
        · split
          · rfl
          · exact ih _ _ (by omega)
        · split
          · congr 1; funext v u; exact ih _ _ (by omega)
          · rfl
    · rfl

/-- The AC loop with enough turns is the AC loop with exactly 64 - k of them (R310). -/
theorem acLoop_enough (c : Comp) (n k : Nat) (s : State) (h : 64 ≤ k + n) :
    acLoop c n k s = acLoop c (64 - k) k s := by
  obtain ⟨d, rfl⟩ : ∃ d, n = (64 - k) + d := ⟨n - (64 - k), by omega⟩
  clear h
  induction d with
  | zero => rfl
  | succ e ih => rw [← Nat.add_assoc, acLoop_succ _ _ _ _ (by omega), ih]

/-! ## Where decoding meets no model fault -/

/-- BS_LEN fits and every table's offsets name existing slots. -/
def DecodeFits (s : State) : Prop :=
  BsFits s ∧ ∀ (c : HuffClass) (t : TableId), OffsetsFit (s.huff c t)

theorem DecodeStep.huff {s t : State} (h : DecodeStep s t) (c : HuffClass) (i : TableId) :
    t.huff c i = s.huff c i := by
  rw [h.frame]; rfl

theorem DecodeStep.fits {s t : State} (h : DecodeStep s t) (k : DecodeFits s) : DecodeFits t :=
  ⟨h.bsFits k.1, fun c i => by rw [h.huff]; exact k.2 c i⟩

theorem decodeDc_noFault (c : Comp) (s : State) (h : DecodeFits s) : NoFault (decodeDc c s) := by
  refine noFault_andThen (huffDecode_noFault _ _ _ h.1 (h.2 _ _)) (fun n t e => ?_)
  have ht := (huffDecode_step (s.huff .dc (s.cfg c).dcId) c.bits s).decode
  rw [e] at ht
  split
  · exact noFault_error _ _ _
  · exact noFault_andThen (readBits_noFault _ _ _ (ht.fits h).1) (fun _ _ _ => noFault_done _ _)

theorem acLoop_noFault (c : Comp) (turns k : Nat) (s : State) (h : DecodeFits s) :
    NoFault (acLoop c turns k s) := by
  induction turns generalizing k s with
  | zero => exact noFault_done _ _
  | succ m ih =>
    unfold acLoop
    split
    · refine noFault_andThen (huffDecode_noFault _ _ _ h.1 (h.2 _ _)) (fun y t e => ?_)
      have ht := (huffDecode_step (s.huff .ac (s.cfg c).acId) c.bits s).decode
      rw [e] at ht
      have ht' := ht.fits h
      split
      · exact noFault_done _ _
      · split
        · split
          · exact noFault_error _ _ _
          · exact ih _ t ht'
        · split
          · refine noFault_andThen (readBits_noFault _ _ _ ht'.1) (fun v u e2 => ?_)
            have hu := (readBits_step c.bits (y.toNat % 16) t).decode
            rw [e2] at hu
            exact ih _ _ ((withCoef_step c _ _ u).fits (hu.fits ht'))
          · exact noFault_error _ _ _
    · exact noFault_done _ _

theorem decodeBlock_noFault (c : Comp) (s : State) (h : DecodeFits s) : NoFault (decodeBlock c s) := by
  have hz := (withZeroBlock_step c s).fits h
  refine noFault_andThen (decodeDc_noFault c _ hz) (fun a t e => acLoop_noFault c 63 1 t ?_)
  have ht := decodeDc_step c (s.withZeroBlock c)
  rw [e] at ht
  exact ht.fits hz

theorem ofBits_ne_none {b : BitVec 2} (h : b ≠ 0) : Comp.ofBits b ≠ none := by
  revert b; decide

theorem decodeBlocks_noFault (ids : List (BitVec 2)) (s : State) (h : DecodeFits s)
    (hz : (0 : BitVec 2) ∉ ids) : NoFault (decodeBlocks ids s) := by
  induction ids generalizing s with
  | nil => exact noFault_done _ _
  | cons id rest ih =>
    simp only [List.mem_cons, not_or] at hz
    unfold decodeBlocks
    split
    · rename_i c _
      refine noFault_andThen (decodeBlock_noFault c s h) (fun a t e => ih t ?_ hz.2)
      have ht := decodeBlock_step c s
      rw [e] at ht
      exact ht.fits h
    · rename_i hc
      exact absurd hc (ofBits_ne_none (fun e => hz.1 e.symm))

/-! ## The errors decoding can raise (R601) -/

/-- The codes of the errors that decoding a block raises. -/
def decodeCodes : List ErrCode := [.bsExhausted, .huffNoMatch, .dcCategory, .acOverrun]

theorem readBit_errors (comp : BitVec 2) (s : State) : ErrorsIn decodeCodes (readBit comp s) := by
  rcases readBit_cases comp s with ⟨_, e⟩ | ⟨_, _, e⟩ | ⟨_, _, e⟩ <;> rw [e]
  · exact errorsIn_error (by decide) _ _
  · exact errorsIn_done _ _ _
  · exact errorsIn_fault _ _ _

theorem readBitsFrom_errors (comp : BitVec 2) (n v : Nat) (s : State) :
    ErrorsIn decodeCodes (readBitsFrom comp n v s) := by
  induction n generalizing v s with
  | zero => exact errorsIn_done _ _ _
  | succ m ih => exact errorsIn_andThen (readBit_errors comp s) (fun _ t _ => ih _ t)

theorem huffWalk_errors (h : HuffTable) (comp : BitVec 2) (n code : Nat) (s : State) :
    ErrorsIn decodeCodes (huffWalk h comp n code s) := by
  induction n generalizing code s with
  | zero => exact errorsIn_error (by decide) _ _
  | succ m ih =>
    refine errorsIn_andThen (readBit_errors comp s) (fun b t _ => ?_)
    split
    · exact errorsIn_done _ _ _
    · exact ih _ t
    · exact errorsIn_fault _ _ _

theorem decodeDc_errors (c : Comp) (s : State) : ErrorsIn decodeCodes (decodeDc c s) := by
  refine errorsIn_andThen (huffWalk_errors _ _ _ _ _) (fun n t _ => ?_)
  split
  · exact errorsIn_error (by decide) _ _
  · exact errorsIn_andThen (readBitsFrom_errors _ _ _ _) (fun _ _ _ => errorsIn_done _ _ _)

theorem acLoop_errors (c : Comp) (turns k : Nat) (s : State) : ErrorsIn decodeCodes (acLoop c turns k s) := by
  induction turns generalizing k s with
  | zero => exact errorsIn_done _ _ _
  | succ m ih =>
    unfold acLoop
    split
    · refine errorsIn_andThen (huffWalk_errors _ _ _ _ _) (fun y t _ => ?_)
      split
      · exact errorsIn_done _ _ _
      · split
        · split
          · exact errorsIn_error (by decide) _ _
          · exact ih _ t
        · split
          · exact errorsIn_andThen (readBitsFrom_errors _ _ _ _) (fun _ _ _ => ih _ _)
          · exact errorsIn_error (by decide) _ _
    · exact errorsIn_done _ _ _

/-- Decoding the blocks of an MCU raises no other error than these four (R601). -/
theorem decodeBlocks_errors (ids : List (BitVec 2)) (s : State) : ErrorsIn decodeCodes (decodeBlocks ids s) := by
  induction ids generalizing s with
  | nil => exact errorsIn_done _ _ _
  | cons id rest ih =>
    unfold decodeBlocks
    split
    · exact errorsIn_andThen
        (errorsIn_andThen (decodeDc_errors _ _) (fun _ t _ => acLoop_errors _ _ _ t)) (fun _ t _ => ih t)
    · exact errorsIn_fault _ _ _

end Sys2Proof.Machine
end

