-- ==== Sys2Proof/Laws/Memory.lean ====
section
/-! SUPPORT. What the operations over a memory do: reads after writes, and the canonical form. -/

namespace Sys2Proof.Machine

@[simp] theorem memRead_memWrite_same (m : List Host.Cell) (a : Nat) (v : Byte) :
    memRead (memWrite m a v) a = some v := by
  induction m with
  | nil => simp [memWrite, memRead]
  | cons c rest ih =>
    obtain ⟨b, u⟩ := c
    simp only [memWrite]
    split
    · simp [memRead]
    · split
      · simp [memRead]
      · rename_i h
        simp [memRead, h, ih]

theorem memRead_memWrite_other (m : List Host.Cell) (a b : Nat) (v : Byte) (h : a ≠ b) :
    memRead (memWrite m a v) b = memRead m b := by
  induction m with
  | nil => simp [memWrite, memRead, h.symm]
  | cons c rest ih =>
    obtain ⟨d, u⟩ := c
    simp only [memWrite]
    split
    · simp [memRead, h.symm]
    · split
      · rename_i hd
        subst hd
        simp [memRead, h.symm]
      · simp [memRead, ih]

theorem memRead_memWrite (m : List Host.Cell) (a b : Nat) (v : Byte) :
    memRead (memWrite m a v) b = if a = b then some v else memRead m b := by
  split
  · rename_i h; subst h; simp
  · exact memRead_memWrite_other m a b v ‹_›

theorem memFrom_memWrite (lo : Nat) (m : List Host.Cell) (a : Nat) (v : Byte) (ha : lo ≤ a)
    (hm : memFrom lo m = true) : memFrom lo (memWrite m a v) = true := by
  induction m generalizing lo with
  | nil => simp [memWrite, memFrom, ha]
  | cons c rest ih =>
    obtain ⟨b, u⟩ := c
    simp only [memFrom, Bool.and_eq_true, decide_eq_true_eq] at hm
    simp only [memWrite]
    split
    · rename_i hab
      simp only [memFrom, Bool.and_eq_true, decide_eq_true_eq]
      exact ⟨ha, hab, hm.2⟩
    · split
      · rename_i hab
        subst hab
        simpa [memFrom] using hm
      · rename_i h1 h2
        simp only [memFrom, Bool.and_eq_true, decide_eq_true_eq]
        have h3 : b + 1 ≤ a := Nat.lt_of_le_of_ne (Nat.le_of_not_lt h1) (Ne.symm h2)
        exact ⟨hm.1, ih (b + 1) h3 hm.2⟩

theorem mem_memWrite (m : List Host.Cell) (a : Nat) (v : Byte) (c : Host.Cell)
    (h : c ∈ memWrite m a v) : c = (a, v) ∨ c ∈ m := by
  induction m with
  | nil => simpa [memWrite] using h
  | cons d rest ih =>
    obtain ⟨b, u⟩ := d
    simp only [memWrite] at h
    split at h
    · simpa using h
    · split at h
      · simp only [List.mem_cons] at h ⊢; tauto
      · simp only [List.mem_cons] at h ⊢
        rcases h with h | h
        · exact .inr (.inl h)
        · rcases ih h with h | h
          · exact .inl h
          · exact .inr (.inr h)

/-- A write inside the capacity keeps the canonical form. -/
theorem memWf_memWrite (cap : Nat) (m : List Host.Cell) (a : Nat) (v : Byte) (ha : a < cap)
    (hm : memWf cap m = true) : memWf cap (memWrite m a v) = true := by
  simp only [memWf, Bool.and_eq_true, List.all_eq_true, decide_eq_true_eq] at hm ⊢
  refine ⟨memFrom_memWrite 0 m a v (Nat.zero_le a) hm.1, fun c hc => ?_⟩
  · rcases mem_memWrite m a v c hc with rfl | h
    · exact ha
    · exact hm.2 c h

@[simp] theorem memWf_nil (cap : Nat) : memWf cap [] = true := rfl

/-- An index is listed exactly when reading it gives a byte. -/
theorem memRead_isSome_iff (m : List Host.Cell) (a : Nat) :
    (memRead m a).isSome = true ↔ a ∈ m.map (fun c => c.1) := by
  induction m with
  | nil => simp [memRead]
  | cons c rest ih =>
    obtain ⟨b, u⟩ := c
    simp only [memRead, List.map_cons, List.mem_cons]
    split
    · simp_all
    · simp_all

/-- Bytes drawn for an aborted command: only the listed OUT bytes and the draw counter change. -/
theorem drawOutBytes_frame (l : List Nat) (s : State) :
    drawOutBytes l s = { s with out := (drawOutBytes l s).out, draws := (drawOutBytes l s).draws } := by
  induction l generalizing s with
  | nil => rfl
  | cons a rest ih => rw [drawOutBytes, ih]

theorem drawOutBytes_other (l : List Nat) (s : State) (a : Nat) (h : a ∉ l) :
    memRead (drawOutBytes l s).out a = memRead s.out a := by
  induction l generalizing s with
  | nil => rfl
  | cons b rest ih =>
    simp only [List.mem_cons, not_or] at h
    rw [drawOutBytes, ih _ h.2]
    exact memRead_memWrite_other _ _ _ _ (fun e => h.1 e.symm)

theorem drawOutBytes_wf (cap : Nat) (l : List Nat) (s : State) (hl : ∀ a ∈ l, a < cap)
    (h : memWf cap s.out = true) : memWf cap (drawOutBytes l s).out = true := by
  induction l generalizing s with
  | nil => exact h
  | cons b rest ih =>
    rw [drawOutBytes]
    exact ih _ (fun a ha => hl a (List.mem_cons_of_mem _ ha))
      (memWf_memWrite _ _ _ _ (hl b List.mem_cons_self) h)

/-- Every byte drawn is a free value of the model, drawn no earlier than the draw counter. -/
theorem drawOutBytes_drawn (l : List Nat) (s : State) (a : Nat) (h : a ∈ l) :
    ∃ n, s.draws ≤ n ∧ memRead (drawOutBytes l s).out a = some (Config.freeByte n) := by
  induction l generalizing s with
  | nil => simp at h
  | cons b rest ih =>
    rw [drawOutBytes]
    by_cases hr : a ∈ rest
    · obtain ⟨n, hn, e⟩ := ih { s with out := memWrite s.out b (Config.freeByte s.draws), draws := s.draws + 1 } hr
      exact ⟨n, by simp only at hn; omega, e⟩
    · obtain rfl : a = b := by simpa [hr] using h
      exact ⟨s.draws, Nat.le_refl _, by rw [drawOutBytes_other _ _ _ hr]; simp⟩

end Sys2Proof.Machine
end

