-- ==== Sys2Proof/Laws/Recon.lean ====
section
/-! SUPPORT. What reconstruction writes: only OUT, only the bytes of the cropped tile, each pixel its own
three bytes; and where it meets no model fault. -/

namespace Sys2Proof.Machine

/-! ## One tile -/

/-- Only OUT changes. -/
def OutOnly (s t : State) : Prop := t = { s with out := t.out }

theorem OutOnly.refl (s : State) : OutOnly s s := rfl

theorem OutOnly.trans {s t u : State} (h : OutOnly s t) (k : OutOnly t u) : OutOnly s u := by
  unfold OutOnly at *; rw [k, h]

theorem outWrite_only (a : Nat) (v : Byte) (s : State) : OutOnly s (outWrite a v s).state := by
  unfold outWrite; split <;> exact OutOnly.refl _

theorem outWrite_other (a b : Nat) (v : Byte) (s : State) (h : a ≠ b) :
    memRead (outWrite a v s).state.out b = memRead s.out b := by
  unfold outWrite; split
  · exact memRead_memWrite_other _ _ _ _ h
  · rfl

theorem outWrite_wf (a : Nat) (v : Byte) (s : State) (h : memWf s.params.outBytes s.out = true) :
    memWf (outWrite a v s).state.params.outBytes (outWrite a v s).state.out = true := by
  unfold outWrite; split
  · exact memWf_memWrite _ _ _ _ ‹_› h
  · exact h

theorem writePixel_only (a : Nat) (c : Rgb) (s : State) : OutOnly s (writePixel a c s).state :=
  andThen_rel (R := OutOnly) OutOnly.trans (outWrite_only _ _ _) (fun _ t _ =>
    andThen_rel (R := OutOnly) OutOnly.trans (outWrite_only _ _ t) (fun _ u _ => outWrite_only _ _ u))

/-- A pixel's writes inside OUT: three bytes, R, G and B (R413). -/
theorem writePixel_done (a : Nat) (c : Rgb) (s : State) (h : a + 2 < s.params.outBytes) :
    writePixel a c s =
      .done () { s with out := memWrite (memWrite (memWrite s.out a c.r) (a + 1) c.g) (a + 2) c.b } := by
  have h0 : a < s.params.outBytes := Nat.lt_of_le_of_lt (Nat.le_add_right a 2) h
  have h1 : a + 1 < s.params.outBytes := Nat.lt_of_succ_lt h
  simp [writePixel, outWrite, h0, h1, h]

theorem writePixel_other (a b : Nat) (c : Rgb) (s : State) (h : b ∉ [a, a + 1, a + 2]) :
    memRead (writePixel a c s).state.out b = memRead s.out b := by
  simp only [List.mem_cons, List.not_mem_nil, or_false, not_or] at h
  refine andThen_rel (R := fun s t => memRead t.out b = memRead s.out b)
    (fun p q => q.trans p) (outWrite_other _ _ _ _ (Ne.symm h.1)) (fun _ t _ => ?_)
  exact andThen_rel (R := fun s t => memRead t.out b = memRead s.out b)
    (fun p q => q.trans p) (outWrite_other _ _ _ _ (Ne.symm h.2.1))
    (fun _ u _ => outWrite_other _ _ _ _ (Ne.symm h.2.2))

theorem writePixel_wf (a : Nat) (c : Rgb) (s : State) (h : memWf s.params.outBytes s.out = true) :
    memWf (writePixel a c s).state.params.outBytes (writePixel a c s).state.out = true := by
  refine andThen_rel (R := fun s t => memWf s.params.outBytes s.out = true →
      memWf t.params.outBytes t.out = true) (fun p q => q ∘ p) (outWrite_wf _ _ _) (fun _ t _ => ?_) h
  exact andThen_rel (R := fun s t => memWf s.params.outBytes s.out = true →
      memWf t.params.outBytes t.out = true) (fun p q => q ∘ p) (outWrite_wf _ _ _)
      (fun _ u _ => outWrite_wf _ _ _)

theorem writeTile_only (s0 : State) (src : PixelSource) (m : Nat) (ps : List (Fin 64)) (s : State) :
    OutOnly s (writeTile s0 src m ps s).state := by
  induction ps generalizing s with
  | nil => exact OutOnly.refl s
  | cons p rest ih =>
    unfold writeTile
    split
    · exact andThen_rel (R := OutOnly) OutOnly.trans (writePixel_only _ _ _) (fun _ t _ => ih t)
    · exact ih s

theorem writeTile_wf (s0 : State) (src : PixelSource) (m : Nat) (ps : List (Fin 64)) (s : State)
    (h : memWf s.params.outBytes s.out = true) :
    memWf (writeTile s0 src m ps s).state.params.outBytes (writeTile s0 src m ps s).state.out = true := by
  induction ps generalizing s with
  | nil => exact h
  | cons p rest ih =>
    unfold writeTile
    split
    · exact andThen_rel (R := fun s t => memWf s.params.outBytes s.out = true →
        memWf t.params.outBytes t.out = true) (fun p q => q ∘ p) (writePixel_wf _ _ _)
        (fun _ t _ => ih t) h
    · exact ih s h

/-- A byte outside the listed pixels' bytes keeps its value. -/
theorem writeTile_other (s0 : State) (src : PixelSource) (m : Nat) (ps : List (Fin 64)) (s : State)
    (b : Nat) (h : b ∉ ps.flatMap (pixelBytes s0 m)) :
    memRead (writeTile s0 src m ps s).state.out b = memRead s.out b := by
  induction ps generalizing s with
  | nil => rfl
  | cons p rest ih =>
    simp only [List.flatMap_cons, List.mem_append, not_or] at h
    unfold writeTile
    split
    · rename_i hp
      refine andThen_rel (R := fun s t => memRead t.out b = memRead s.out b)
        (fun p q => q.trans p) (writePixel_other _ _ _ _ ?_) (fun _ t _ => ih t h.2)
      simpa [pixelBytes, hp] using h.1
    · exact ih s h.2

/-- A pixel inside the image has its bytes below 3*WIDTH*HEIGHT (R113, R413). -/
theorem pixelAddr_lt (s : State) (m : Nat) (p : Fin 64) (h : insideImage s m p = true) :
    pixelAddr s m p + 2 < 3 * s.width.toNat * s.height.toNat := by
  simp only [insideImage, Bool.and_eq_true, decide_eq_true_eq] at h
  unfold pixelAddr
  have h1 : (imageY s m p + 1) * s.width.toNat ≤ s.height.toNat * s.width.toNat :=
    Nat.mul_le_mul_right _ h.2
  rw [Nat.add_mul, Nat.one_mul] at h1
  rw [Nat.mul_assoc, Nat.mul_comm s.width.toNat]
  omega

/-- The bytes of a tile are below 3*WIDTH*HEIGHT (R705, R413). -/
theorem tileBytes_lt (s : State) (m : Nat) (b : Nat) (h : b ∈ tileBytes s m) :
    b < 3 * s.width.toNat * s.height.toNat := by
  simp only [tileBytes, List.mem_flatMap, pixelBytes] at h
  obtain ⟨p, _, hb⟩ := h
  split at hb
  · rename_i hp
    have := pixelAddr_lt s m p hp
    simp only [List.mem_cons, List.not_mem_nil, or_false] at hb
    omega
  · simp at hb

/-- With the image inside OUT every listed pixel inside the image is written: no model fault. -/
theorem writeTile_done (s0 : State) (src : PixelSource) (m : Nat) (ps : List (Fin 64)) (s : State)
    (h : 3 * s0.width.toNat * s0.height.toNat ≤ s.params.outBytes) :
    writeTile s0 src m ps s = .done () (writeTile s0 src m ps s).state := by
  induction ps generalizing s with
  | nil => rfl
  | cons p rest ih =>
    unfold writeTile
    split
    · rename_i hp
      have := pixelAddr_lt s0 m p hp
      rw [writePixel_done _ _ _ (by omega)]
      exact ih _ h
    · exact ih s h

/-! ## Pixels do not share bytes -/

theorem pixel_of_xy (p q : Fin 64) (hx : (pixelX p).val = (pixelX q).val)
    (hy : (pixelY p).val = (pixelY q).val) : p = q := by
  simp only [pixelX, pixelY, Fin.ofNat] at hx hy
  have hp := p.isLt; have hq := q.isLt
  apply Fin.ext; omega

/-- An index of OUT inside a row names one pixel and one channel. -/
theorem addr_injective {w x y x' y' j j' : Nat} (hx : x < w) (hx' : x' < w) (hj : j < 3) (hj' : j' < 3)
    (h : 3 * (y * w + x) + j = 3 * (y' * w + x') + j') : x = x' ∧ y = y' ∧ j = j' := by
  have h1 : y * w + x = y' * w + x' := by omega
  have hw : 0 < w := by omega
  have hy : y = y' := by
    have e1 : (y * w + x) / w = y := by
      rw [Nat.mul_comm, Nat.mul_add_div hw, Nat.div_eq_of_lt hx]; rfl
    have e2 : (y' * w + x') / w = y' := by
      rw [Nat.mul_comm, Nat.mul_add_div hw, Nat.div_eq_of_lt hx']; rfl
    rw [← e1, h1, e2]
  subst hy
  omega

/-- The bytes of different pixels of one MCU are different. -/
theorem pixelBytes_disjoint (s : State) (m : Nat) (p q : Fin 64) (hpq : p ≠ q) (b : Nat)
    (hp : b ∈ pixelBytes s m p) (hq : b ∈ pixelBytes s m q) : False := by
  unfold pixelBytes at hp hq
  split at hp
  · split at hq
    · rename_i ip iq
      simp only [insideImage, Bool.and_eq_true, decide_eq_true_eq] at ip iq
      have place : ∀ r, b ∈ [pixelAddr s m r, pixelAddr s m r + 1, pixelAddr s m r + 2] →
          ∃ j, j < 3 ∧ b = pixelAddr s m r + j := by
        intro r h
        simp only [List.mem_cons, List.not_mem_nil, or_false] at h
        rcases h with h | h | h
        · exact ⟨0, by omega, h⟩
        · exact ⟨1, by omega, h⟩
        · exact ⟨2, by omega, h⟩
      obtain ⟨j, hj, ej⟩ := place p hp
      obtain ⟨k, hk, ek⟩ := place q hq
      obtain ⟨ex, ey, _⟩ := addr_injective ip.1 iq.1 hj hk (ej ▸ ek)
      refine hpq (pixel_of_xy p q ?_ ?_)
      · simp only [imageX] at ex; omega
      · simp only [imageY] at ey; omega
    · simp at hq
  · simp at hp

/-- Each listed pixel inside the image has its colour in its three bytes afterwards (R413). -/
theorem writeTile_pixel (s0 : State) (src : PixelSource) (m : Nat) (ps : List (Fin 64)) (s : State)
    (h : 3 * s0.width.toNat * s0.height.toNat ≤ s.params.outBytes) (hn : ps.Nodup) (p : Fin 64)
    (hp : p ∈ ps) (hi : insideImage s0 m p = true) :
    memRead (writeTile s0 src m ps s).state.out (pixelAddr s0 m p) = some (pixelColour s0 src p).r ∧
    memRead (writeTile s0 src m ps s).state.out (pixelAddr s0 m p + 1) = some (pixelColour s0 src p).g ∧
    memRead (writeTile s0 src m ps s).state.out (pixelAddr s0 m p + 2) = some (pixelColour s0 src p).b := by
  induction ps generalizing s with
  | nil => simp at hp
  | cons q rest ih =>
    simp only [List.nodup_cons] at hn
    unfold writeTile
    by_cases hpq : p = q
    · subst hpq
      have hlt := pixelAddr_lt s0 m p hi
      have hout : ∀ b ∈ pixelBytes s0 m p, b ∉ rest.flatMap (pixelBytes s0 m) := by
        intro b hb hb'
        simp only [List.mem_flatMap] at hb'
        obtain ⟨q, hq, hbq⟩ := hb'
        exact pixelBytes_disjoint s0 m p q (fun e => hn.1 (e ▸ hq)) b hb hbq
      simp only [pixelBytes, hi, if_true] at hout
      rw [if_pos hi, writePixel_done _ _ _ (by omega)]
      simp only [andThen_done]
      refine ⟨?_, ?_, ?_⟩
      · rw [writeTile_other _ _ _ _ _ _ (hout _ (by simp))]
        simp [memRead_memWrite]
      · rw [writeTile_other _ _ _ _ _ _ (hout _ (by simp))]
        simp [memRead_memWrite]
      · rw [writeTile_other _ _ _ _ _ _ (hout _ (by simp))]
        simp
    · have hp' : p ∈ rest := by simpa [hpq] using hp
      split
      · rename_i hq
        have := pixelAddr_lt s0 m q hq
        rw [writePixel_done _ _ _ (by omega)]
        simp only [andThen_done]
        exact ih _ h hn.2 hp'
      · exact ih s h hn.2 hp'

end Sys2Proof.Machine
end

