-- ==== Sys2Proof/Laws/Engine.lean ====
section
/-! SUPPORT. What the bodies of DECODE_MCU, RECON_MCU and RUN do: what they may change, that they keep the
engine's part of the invariant, and that they meet no model fault where it holds. -/

namespace Sys2Proof.Machine

/-! ## The configuration START_SCAN checks -/

/-- The state START_SCAN reads is the same (R312, R714). -/
structure SameConfig (s t : State) : Prop where
  params : t.params = s.params
  width : t.width = s.width
  height : t.height = s.height
  ncomp : t.ncomp = s.ncomp
  compCfg : t.compCfg = s.compCfg
  scanCfg : t.scanCfg = s.scanCfg
  bsLen : t.bsLen = s.bsLen
  qt : t.qt = s.qt
  dcHt : t.dcHt = s.dcHt
  acHt : t.acHt = s.acHt

theorem SameConfig.refl (s : State) : SameConfig s s := ⟨rfl, rfl, rfl, rfl, rfl, rfl, rfl, rfl, rfl, rfl⟩

theorem SameConfig.huff {s t : State} (h : SameConfig s t) (c : HuffClass) (i : TableId) :
    t.huff c i = s.huff c i := by
  cases c
  · exact congrArg (fun v => v[i]) h.dcHt
  · exact congrArg (fun v => v[i]) h.acHt

theorem SameConfig.qtSet {s t : State} (h : SameConfig s t) (i : TableId) : t.qtSet i = s.qtSet i :=
  congrArg (fun v => v[i].set) h.qt

theorem SameConfig.htSet {s t : State} (h : SameConfig s t) (c : HuffClass) (i : TableId) :
    t.htSet c i = s.htSet c i := congrArg HuffTable.set (h.huff c i)

theorem SameConfig.cfg {s t : State} (h : SameConfig s t) (c : Comp) : t.cfg c = s.cfg c :=
  congrArg (fun v => v[c.idx]) h.compCfg

theorem SameConfig.unsetBinding {s t : State} (h : SameConfig s t) (ids : List (BitVec 2)) :
    unsetBinding ids t = unsetBinding ids s := by
  induction ids with
  | nil => rfl
  | cons id rest ih =>
    simp only [Machine.unsetBinding, h.cfg, h.qtSet, h.htSet, ih]

theorem SameConfig.startScanError {s t : State} (h : SameConfig s t) :
    startScanError t = startScanError s := by
  simp only [Machine.startScanError, h.unsetBinding, h.width, h.height, h.ncomp, h.scanCfg, h.bsLen,
    h.params]

/-- What a successful START_SCAN has checked (R312). -/
theorem startScanError_none {s : State} (h : startScanError s = none) :
    s.width ≠ 0 ∧ s.height ≠ 0 ∧ (s.ncomp = 1 ∨ s.ncomp = 3) ∧ s.scanCfg.n = s.ncomp ∧
    scanIdsDistinct (scanIds s.scanCfg) = true ∧ unsetBinding (scanIds s.scanCfg) s = none ∧
    s.bsLen.toNat ≤ s.params.bsBytes ∧ 3 * s.width.toNat * s.height.toNat ≤ s.params.outBytes := by
  unfold startScanError at h
  split at h <;> [skip; (split at h <;> [skip; (split at h <;> [skip; (split at h <;> [skip; skip])])])]
  · cases h
  · cases h
  · cases h
  · cases h
  · rename_i h1 h2 h3 h4
    split at h
    · cases h
    · split at h
      · cases h
      · split at h
        · cases h
        · rename_i h5 h6 h7
          simp only [not_or] at h1
          simp only [not_not] at h2 h3
          exact ⟨h1.1, h1.2, h2, h3, by simpa using h4, h5, by omega, by omega⟩

/-- The pixel source of a checked configuration exists (R312, R413). -/
theorem pixelSource_some {s : State} (h : startScanError s = none) : ∃ src, pixelSource s = some src := by
  obtain ⟨_, _, hn, he, hd, _⟩ := startScanError_none h
  have key : ∀ (n nc : BitVec 3) (a b c : BitVec 2), (nc = 1 ∨ nc = 3) → n = nc →
      scanIdsDistinct (scanIds ⟨n, a, b, c⟩) = true →
      (0 : BitVec 2) ∉ scanIds ⟨n, a, b, c⟩ ∧
      (nc = 3 → 1 ∈ scanIds ⟨n, a, b, c⟩ ∧ 2 ∈ scanIds ⟨n, a, b, c⟩ ∧ 3 ∈ scanIds ⟨n, a, b, c⟩) ∧
      (nc ≠ 3 → ∃ x, scanIds ⟨n, a, b, c⟩ = [x] ∧ (Comp.ofBits x).isSome = true) := by
    intro n nc a b c h1 h2
    subst h2
    rcases h1 with rfl | rfl
    · revert a b c; decide
    · revert a b c; decide
  rcases hs : s.scanCfg with ⟨n, a, b, c⟩
  rw [hs] at he hd
  obtain ⟨k1, k2, k3⟩ := key n s.ncomp a b c hn he hd
  unfold pixelSource
  rw [hs, if_neg k1]
  split
  · rename_i h3
    rw [if_pos (k2 h3)]; exact ⟨_, rfl⟩
  · rename_i h3
    obtain ⟨x, ex, hx⟩ := k3 h3
    rw [ex]
    obtain ⟨y, hy⟩ := Option.isSome_iff_exists.1 hx
    exact ⟨.gray y, by simp [hy]⟩

theorem scanIds_no_zero {s : State} (h : startScanError s = none) :
    (0 : BitVec 2) ∉ scanIds s.scanCfg := by
  have := (startScanError_none h).2.2.2.2.1
  simp only [scanIdsDistinct, Bool.and_eq_true, decide_eq_true_eq] at this
  exact this.1

/-! ## The engine's part of the invariant -/

/-- The part of `State.Inv` that a command body can touch or relies on. -/
structure EngineInv (s : State) : Prop where
  params : s.params.legal = true
  memories : s.memoriesWf
  cursor : s.cursorWf
  tables : s.tablesWf
  scan : s.scanWf

theorem State.Inv.engine {s : State} (h : s.Inv) : EngineInv s :=
  ⟨h.params, h.memories, h.cursor, h.tables, h.scan⟩

/-- Nothing the engine's invariant speaks of changes but the cursor, predictors and coefficients. -/
theorem DecodeStep.sameConfig {s t : State} (h : DecodeStep s t) : SameConfig s t := by
  rw [h.frame]; exact ⟨rfl, rfl, rfl, rfl, rfl, rfl, rfl, rfl, rfl, rfl⟩

theorem DecodeStep.scanWf {s t : State} (h : DecodeStep s t) (k : s.scanWf) : t.scanWf := by
  have e := h.sameConfig.startScanError
  unfold State.scanWf State.scanConfigured at *
  rw [e, h.frame]; exact k

theorem DecodeStep.engine {s t : State} (h : DecodeStep s t) (k : EngineInv s) : EngineInv t where
  params := by rw [h.frame]; exact k.params
  memories := by
    have := k.memories
    unfold State.memoriesWf at *
    rw [h.frame]; exact this
  cursor := h.within k.cursor
  tables := fun c i => by rw [h.huff]; exact k.tables c i
  scan := h.scanWf k.scan

theorem EngineInv.decodeFits {s : State} (h : EngineInv s) (ha : s.scanActive = true) :
    DecodeFits s :=
  ⟨(startScanError_none (h.scan.1 ha).1).2.2.2.2.2.2.1, fun c t => (h.tables c t).1⟩

/-! ## DECODE_MCU -/

/-- What DECODE_MCU's body answers: SEQUENCE, or what decoding the blocks answers, and on success the new
position (R313). -/
theorem decodeMcuBody_cases (align : Bool) (s : State) :
    ((s.scanActive = false ∨ s.mcuTotal ≤ s.mcuIdx) ∧
      decodeMcuBody align s = .stop (.error .sequence 0) s) ∨
    (s.scanActive = true ∧ s.mcuIdx < s.mcuTotal ∧
      ((∃ e t, decodeBlocks (scanIds s.scanCfg) (restartBoundary align s) = .stop e t ∧
          DecodeStep s t ∧ decodeMcuBody align s = .stop e t) ∨
        (∃ t, decodeBlocks (scanIds s.scanCfg) (restartBoundary align s) = .done () t ∧
          DecodeStep s t ∧ decodeMcuBody align s =
            .done () { t with lastMcu := s.mcuIdx, mcuIdx := s.mcuIdx + 1, mcuPending := true }))) := by
  unfold decodeMcuBody
  split
  · exact .inl ⟨by assumption, rfl⟩
  · rename_i h
    simp only [not_or, Bool.not_eq_false] at h
    refine .inr ⟨h.1, BitVec.not_le.1 h.2, ?_⟩
    have hs := (restartBoundary_step align s).trans
      (decodeBlocks_step (scanIds s.scanCfg) (restartBoundary align s))
    cases hb : decodeBlocks (scanIds s.scanCfg) (restartBoundary align s) with
    | done a t => rw [hb] at hs; exact .inr ⟨t, rfl, hs, rfl⟩
    | stop e t => rw [hb] at hs; exact .inl ⟨e, t, rfl, hs, rfl⟩

/-- What DECODE_MCU may change: the decode position, the predictors and the coefficients (R313, R603). -/
def McuFrame (s t : State) : Prop :=
  t = { s with
    byteIdx := t.byteIdx, bitOff := t.bitOff, pred := t.pred, coef := t.coef, mcuIdx := t.mcuIdx,
    lastMcu := t.lastMcu, mcuPending := t.mcuPending }

theorem DecodeStep.mcuFrame {s t : State} (h : DecodeStep s t) : McuFrame s t := by
  unfold McuFrame; rw [h.frame]

theorem decodeMcuBody_frame (align : Bool) (s : State) : McuFrame s (decodeMcuBody align s).state := by
  rcases decodeMcuBody_cases align s with ⟨_, h⟩ | ⟨_, _, ⟨e, t, _, hs, h⟩ | ⟨t, _, hs, h⟩⟩ <;> rw [h]
  · rfl
  · exact hs.mcuFrame
  · have := hs.mcuFrame
    unfold McuFrame at this
    rw [this]; rfl

/-- DECODE_MCU's body keeps the engine's invariant, on success and on an error. -/
theorem decodeMcuBody_engine (align : Bool) (s : State) (h : EngineInv s) :
    EngineInv (decodeMcuBody align s).state := by
  rcases decodeMcuBody_cases align s with ⟨_, e⟩ | ⟨ha, hi, ⟨_, t, _, hs, e⟩ | ⟨t, _, hs, e⟩⟩ <;> rw [e]
  · exact h
  · exact hs.engine h
  · have ht := hs.engine h
    have ea : t.scanActive = true := by rw [hs.frame]; exact ha
    have ei : t.mcuIdx = s.mcuIdx := by rw [hs.frame]
    have et : t.mcuTotal = s.mcuTotal := by rw [hs.frame]
    have hlt : s.mcuIdx.toNat < s.mcuTotal.toNat := hi
    have htot := s.mcuTotal.isLt
    have hinc : (s.mcuIdx + 1).toNat = s.mcuIdx.toNat + 1 := by
      rw [BitVec.toNat_add]; simp; omega
    have hc := ht.scan.1 ea
    have hsame : SameConfig t
        { t with lastMcu := s.mcuIdx, mcuIdx := s.mcuIdx + 1, mcuPending := true } :=
      ⟨rfl, rfl, rfl, rfl, rfl, rfl, rfl, rfl, rfl, rfl⟩
    refine ⟨ht.params, ht.memories, ht.cursor, fun c i => ?_, ?_, ?_, ?_⟩
    · exact hsame.huff c i ▸ ht.tables c i
    · intro _
      refine ⟨hsame.startScanError.trans hc.1, hc.2.1, hc.2.2.1, hc.2.2.2.1, ?_⟩
      simp only [state_done, hinc, et]; omega
    · intro _
      exact ⟨ea, hinc.symm⟩
    · intro _ hp
      simp at hp

theorem decodeMcuBody_noFault (align : Bool) (s : State) (h : EngineInv s) :
    NoFault (decodeMcuBody align s) := by
  unfold decodeMcuBody
  split
  · exact noFault_error _ _ _
  · rename_i hn
    simp only [not_or, Bool.not_eq_false] at hn
    exact noFault_andThen
      (decodeBlocks_noFault _ _ ((restartBoundary_step align s).fits (h.decodeFits hn.1))
        (scanIds_no_zero (h.scan.1 hn.1).1)) (fun _ _ _ => noFault_done _ _)

/-! ## RECON_MCU -/

/-- With the engine's invariant and an MCU pending, RECON_MCU writes the whole tile and completes
(R413). -/
theorem reconMcuBody_done (s : State) (h : EngineInv s) (hp : s.mcuPending = true) :
    ∃ src t, pixelSource s = some src ∧
      writeTile s src s.lastMcu.toNat (List.finRange 64) s = .done () t ∧
      OutOnly s t ∧ reconMcuBody s = .done () (finishRecon t) := by
  have ha := (h.scan.2.1 hp).1
  have hc := h.scan.1 ha
  obtain ⟨src, hsrc⟩ := pixelSource_some hc.1
  have herr := startScanError_none hc.1
  have hcols : s.mcuCols ≠ 0 := by
    intro e
    have h1 := hc.2.1
    rw [e] at h1
    have h2 : s.width.toNat ≠ 0 := fun z => herr.1 (BitVec.eq_of_toNat_eq (by simpa using z))
    simp [ceil8] at h1
    omega
  have hd := writeTile_done s src s.lastMcu.toNat (List.finRange 64) s herr.2.2.2.2.2.2.2
  refine ⟨src, _, hsrc, hd, writeTile_only _ _ _ _ _, ?_⟩
  unfold reconMcuBody
  rw [if_neg (by simp [hp]), if_neg hcols, hsrc]
  dsimp only
  rw [hd]
  rfl

/-- What RECON_MCU's body can leave (R413). -/
theorem reconMcuBody_cases (s : State) :
    ((reconMcuBody s).state = s) ∨
    (∃ src, pixelSource s = some src ∧ s.mcuPending = true ∧
      ((reconMcuBody s).state = (writeTile s src s.lastMcu.toNat (List.finRange 64) s).state ∨
       (reconMcuBody s).state =
        finishRecon (writeTile s src s.lastMcu.toNat (List.finRange 64) s).state)) := by
  unfold reconMcuBody
  split
  · exact .inl rfl
  · split
    · exact .inl rfl
    · split
      · exact .inl rfl
      · rename_i h1 _ _ src hsrc
        refine .inr ⟨src, hsrc, by simpa using h1, ?_⟩
        cases writeTile s src s.lastMcu.toNat (List.finRange 64) s with
        | done a t => exact .inr rfl
        | stop e t => exact .inl rfl

/-- What RECON_MCU may change: OUT and the two scan flags (R413). -/
def ReconFrame (s t : State) : Prop :=
  t = { s with out := t.out, mcuPending := t.mcuPending, scanActive := t.scanActive }

theorem reconMcuBody_frame (s : State) : ReconFrame s (reconMcuBody s).state := by
  rcases reconMcuBody_cases s with h | ⟨src, _, _, h | h⟩ <;> rw [h]
  · rfl
  · have := writeTile_only s src s.lastMcu.toNat (List.finRange 64) s
    unfold OutOnly at this
    rw [this]; rfl
  · have := writeTile_only s src s.lastMcu.toNat (List.finRange 64) s
    unfold OutOnly at this
    rw [this]; rfl

/-- A byte outside the tile of LAST_MCU keeps its value (R413, R414). -/
theorem reconMcuBody_other (s : State) (b : Nat) (h : b ∉ tileBytes s s.lastMcu.toNat) :
    memRead (reconMcuBody s).state.out b = memRead s.out b := by
  rcases reconMcuBody_cases s with e | ⟨src, _, _, e | e⟩ <;> rw [e]
  · exact writeTile_other _ _ _ _ _ _ h
  · exact writeTile_other _ _ _ _ _ _ h

theorem reconMcuBody_noFault (s : State) (h : EngineInv s) : NoFault (reconMcuBody s) := by
  cases hp : s.mcuPending with
  | false => unfold reconMcuBody; rw [if_pos hp]; exact noFault_error _ _ _
  | true =>
    obtain ⟨_, _, _, _, _, e⟩ := reconMcuBody_done s h hp
    rw [e]; exact noFault_done _ _

/-- RECON_MCU's body keeps the engine's invariant. -/
theorem reconMcuBody_engine (s : State) (h : EngineInv s) : EngineInv (reconMcuBody s).state := by
  cases hp : s.mcuPending with
  | false =>
    have : (reconMcuBody s).state = s := by unfold reconMcuBody; rw [if_pos hp]; rfl
    rw [this]; exact h
  | true =>
    obtain ⟨src, t, _, hw, ho, e⟩ := reconMcuBody_done s h hp
    rw [e, state_done]
    have hwf := writeTile_wf s src s.lastMcu.toNat (List.finRange 64) s h.memories.2
    rw [hw, state_done] at hwf
    unfold OutOnly at ho
    have ha := (h.scan.2.1 hp).1
    have hc := h.scan.1 ha
    have hsame : SameConfig s (finishRecon t) := by
      rw [ho]; exact ⟨rfl, rfl, rfl, rfl, rfl, rfl, rfl, rfl, rfl, rfl⟩
    have ea : (finishRecon t).scanActive = (s.scanActive && !(s.mcuIdx == s.mcuTotal)) := by
      rw [ho]; rfl
    refine ⟨?_, ?_, ?_, fun c i => hsame.huff c i ▸ h.tables c i, ?_, ?_, ?_⟩
    · rw [ho]; exact h.params
    · refine ⟨?_, ?_⟩
      · have := h.memories.1; rw [ho]; exact this
      · exact hwf
    · have := h.cursor; unfold State.cursorWf at *; rw [ho]; exact this
    · intro _
      unfold State.scanConfigured at *
      rw [hsame.startScanError]
      rw [ho]; exact hc
    · intro hp'; simp at hp'
    · intro hact _
      rw [ea] at hact
      simp only [Bool.and_eq_true, Bool.not_eq_eq_eq_not, Bool.not_true, beq_eq_false_iff_ne] at hact
      have h1 := hc.2.2.2.2
      have h2 : s.mcuIdx.toNat ≠ s.mcuTotal.toNat := fun z => hact.2 (BitVec.eq_of_toNat_eq z)
      have e1 : (finishRecon t).mcuIdx = s.mcuIdx := by rw [ho]; rfl
      have e2 : (finishRecon t).mcuTotal = s.mcuTotal := by rw [ho]; rfl
      rw [e1, e2]; omega

/-! ## RUN -/

theorem runLoop_engine (align : Bool) (n : Nat) (s : State) (h : EngineInv s) :
    EngineInv (runLoop align n s).state := by
  induction n generalizing s with
  | zero => exact h
  | succ m ih =>
    unfold runLoop
    split
    · have hd := decodeMcuBody_engine align s h
      cases hb : decodeMcuBody align s with
      | stop e t => rw [hb] at hd; exact hd
      | done a t =>
        rw [hb] at hd
        have hr := reconMcuBody_engine t hd
        simp only [andThen_done]
        cases hc : reconMcuBody t with
        | stop e u => rw [hc] at hr; exact hr
        | done a u => rw [hc] at hr; exact ih u hr
    · exact h

theorem runLoop_noFault (align : Bool) (n : Nat) (s : State) (h : EngineInv s) :
    NoFault (runLoop align n s) := by
  induction n generalizing s with
  | zero => exact noFault_done _ _
  | succ m ih =>
    unfold runLoop
    split
    · refine noFault_andThen (decodeMcuBody_noFault align s h) (fun a t e => ?_)
      have hd := decodeMcuBody_engine align s h
      rw [e] at hd
      refine noFault_andThen (reconMcuBody_noFault t hd) (fun b u e2 => ih u ?_)
      have hr := reconMcuBody_engine t hd
      rw [e2] at hr
      exact hr
    · exact noFault_done _ _

theorem runPending_engine (s : State) (h : EngineInv s) : EngineInv (runPending s).state := by
  unfold runPending; split
  · exact reconMcuBody_engine s h
  · exact h

theorem runBody_engine (align : Bool) (s : State) (h : EngineInv s) :
    EngineInv (runBody align s).state := by
  unfold runBody; split
  · exact h
  · have hr := runPending_engine s h
    cases hp : runPending s with
    | stop e t => rw [hp] at hr; exact hr
    | done a t => rw [hp] at hr; exact runLoop_engine align _ t hr

theorem runBody_noFault (align : Bool) (s : State) (h : EngineInv s) : NoFault (runBody align s) := by
  unfold runBody; split
  · exact noFault_error _ _ _
  · refine noFault_andThen ?_ (fun a t e => runLoop_noFault align _ t ?_)
    · unfold runPending; split
      · exact reconMcuBody_noFault s h
      · exact noFault_done _ _
    · have hr := runPending_engine s h
      rw [e] at hr; exact hr

/-- What a RUN, or a part of one, may change (R503). -/
def RunFrame (s t : State) : Prop :=
  t = { s with
    byteIdx := t.byteIdx, bitOff := t.bitOff, pred := t.pred, coef := t.coef, mcuIdx := t.mcuIdx,
    lastMcu := t.lastMcu, mcuPending := t.mcuPending, scanActive := t.scanActive, out := t.out }

theorem RunFrame.refl (s : State) : RunFrame s s := rfl

theorem RunFrame.trans {s t u : State} (h : RunFrame s t) (k : RunFrame t u) : RunFrame s u := by
  unfold RunFrame at *; rw [k, h]

theorem decodeMcuBody_runFrame (align : Bool) (s : State) : RunFrame s (decodeMcuBody align s).state := by
  have h := decodeMcuBody_frame align s
  unfold McuFrame at h
  unfold RunFrame
  generalize (decodeMcuBody align s).state = t at *
  rw [h]

theorem reconMcuBody_runFrame (s : State) : RunFrame s (reconMcuBody s).state := by
  have h := reconMcuBody_frame s
  unfold ReconFrame at h
  unfold RunFrame
  generalize (reconMcuBody s).state = t at *
  rw [h]

theorem runLoop_frame (align : Bool) (n : Nat) (s : State) : RunFrame s (runLoop align n s).state := by
  induction n generalizing s with
  | zero => exact RunFrame.refl s
  | succ m ih =>
    unfold runLoop
    split
    · exact andThen_rel (R := RunFrame) RunFrame.trans (decodeMcuBody_runFrame align s) (fun _ t _ =>
        andThen_rel (R := RunFrame) RunFrame.trans (reconMcuBody_runFrame t) (fun _ u _ => ih u))
    · exact RunFrame.refl s

theorem runBody_frame (align : Bool) (s : State) : RunFrame s (runBody align s).state := by
  unfold runBody; split
  · exact RunFrame.refl s
  · refine andThen_rel (R := RunFrame) RunFrame.trans ?_ (fun _ t _ => runLoop_frame align _ t)
    unfold runPending; split
    · exact reconMcuBody_runFrame s
    · exact RunFrame.refl s

/-! ## The OUT bytes a RUN writes -/

/-- From `s` to `t` MCU_IDX does not fall, and an OUT byte outside the tiles of the MCUs from MCU_IDX
before up to MCU_IDX after keeps its value (R413, R503). -/
structure TileStep (s t : State) : Prop where
  frame : RunFrame s t
  index : s.mcuIdx.toNat ≤ t.mcuIdx.toNat
  bytes : ∀ b, (∀ m, s.mcuIdx.toNat ≤ m → m < t.mcuIdx.toNat → b ∉ tileBytes s m) →
    memRead t.out b = memRead s.out b

/-- The tile of an MCU depends on the image and its columns only. -/
theorem tileBytes_congr {s t : State} (hw : t.width = s.width) (hh : t.height = s.height)
    (hc : t.mcuCols = s.mcuCols) (m : Nat) : tileBytes t m = tileBytes s m := by
  have e : pixelBytes t m = pixelBytes s m := by
    funext p
    have hx : imageX t m p = imageX s m p := by unfold imageX; rw [hc]
    have hy : imageY t m p = imageY s m p := by unfold imageY; rw [hc]
    have h1 : insideImage t m p = insideImage s m p := by unfold insideImage; rw [hx, hy, hw, hh]
    have h2 : pixelAddr t m p = pixelAddr s m p := by unfold pixelAddr; rw [hx, hy, hw]
    simp only [pixelBytes, h1, h2]
  simp only [tileBytes, e]

theorem RunFrame.tile {s t : State} (h : RunFrame s t) (m : Nat) : tileBytes t m = tileBytes s m := by
  unfold RunFrame at h
  exact tileBytes_congr (by rw [h]) (by rw [h]) (by rw [h]) m

theorem TileStep.refl (s : State) : TileStep s s := ⟨RunFrame.refl s, Nat.le_refl _, fun _ _ => rfl⟩

theorem TileStep.trans {s t u : State} (h : TileStep s t) (k : TileStep t u) : TileStep s u := by
  refine ⟨h.frame.trans k.frame, Nat.le_trans h.index k.index, fun b hb => ?_⟩
  rw [k.bytes b fun m h1 h2 => by
      rw [h.frame.tile]; exact hb m (Nat.le_trans h.index h1) h2]
  exact h.bytes b fun m h1 h2 => hb m h1 (Nat.lt_of_lt_of_le h2 k.index)

/-- What DECODE_MCU's body does to MCU_IDX, LAST_MCU and OUT. -/
theorem decodeMcuBody_position (align : Bool) (s : State) :
    (decodeMcuBody align s).state.out = s.out ∧
    ((decodeMcuBody align s).state.mcuIdx = s.mcuIdx ∨
      (decodeMcuBody align s).state.mcuIdx.toNat = s.mcuIdx.toNat + 1) ∧
    (∀ t, decodeMcuBody align s = .done () t →
      t.lastMcu = s.mcuIdx ∧ t.mcuIdx.toNat = s.mcuIdx.toNat + 1) := by
  rcases decodeMcuBody_cases align s with ⟨_, e⟩ | ⟨_, hi, ⟨_, t, _, hs, e⟩ | ⟨t, _, hs, e⟩⟩ <;> rw [e]
  · exact ⟨rfl, .inl rfl, fun t h => by cases h⟩
  · exact ⟨by rw [state_stop, hs.frame], .inl (by rw [state_stop, hs.frame]), fun t h => by cases h⟩
  · have hinc : (s.mcuIdx + 1).toNat = s.mcuIdx.toNat + 1 := by
      have h1 : s.mcuIdx.toNat < s.mcuTotal.toNat := hi
      have h2 := s.mcuTotal.isLt
      rw [BitVec.toNat_add]; simp; omega
    refine ⟨by simp only [state_done]; rw [hs.frame], .inr hinc, fun u h => ?_⟩
    cases h
    exact ⟨rfl, hinc⟩

theorem decodeMcuBody_tile (align : Bool) (s : State) : TileStep s (decodeMcuBody align s).state := by
  obtain ⟨ho, hi, _⟩ := decodeMcuBody_position align s
  refine ⟨decodeMcuBody_runFrame align s, ?_, fun b _ => by rw [ho]⟩
  rcases hi with h | h
  · rw [h]
  · omega

/-- Decoding an MCU and then reconstructing it writes that MCU's tile only. -/
theorem decodeRecon_tile (align : Bool) (s t : State) (h : decodeMcuBody align s = .done () t) :
    TileStep s (reconMcuBody t).state := by
  obtain ⟨ho, _, hp⟩ := decodeMcuBody_position align s
  have hf := decodeMcuBody_runFrame align s
  rw [h, state_done] at ho hf
  obtain ⟨hl, hi⟩ := hp t h
  have hr := reconMcuBody_frame t
  have hri : (reconMcuBody t).state.mcuIdx = t.mcuIdx := by unfold ReconFrame at hr; rw [hr]
  refine ⟨hf.trans (reconMcuBody_runFrame t), by rw [hri]; omega, fun b hb => ?_⟩
  rw [reconMcuBody_other t b, ho]
  rw [hl, hf.tile]
  exact hb _ (Nat.le_refl _) (by rw [hri]; omega)

theorem runLoop_tile (align : Bool) (n : Nat) (s : State) : TileStep s (runLoop align n s).state := by
  induction n generalizing s with
  | zero => exact TileStep.refl s
  | succ m ih =>
    unfold runLoop
    split
    · cases h : decodeMcuBody align s with
      | stop e t =>
        have := decodeMcuBody_tile align s
        rw [h] at this; exact this
      | done a t =>
        have h1 := decodeRecon_tile align s t h
        rw [andThen_done]
        cases hr : reconMcuBody t with
        | stop e u => rw [hr] at h1; exact h1
        | done b u => rw [hr] at h1; exact h1.trans (ih u)
    · exact TileStep.refl s

/-- An OUT byte outside the tile of the pending MCU and of the MCUs a RUN decodes keeps its value (R413,
R503). -/
theorem runBody_other (align : Bool) (s : State) (b : Nat)
    (hp : s.mcuPending = true → b ∉ tileBytes s s.lastMcu.toNat)
    (hm : ∀ m, s.mcuIdx.toNat ≤ m → m < (runBody align s).state.mcuIdx.toNat → b ∉ tileBytes s m) :
    memRead (runBody align s).state.out b = memRead s.out b := by
  unfold runBody at hm ⊢
  split
  · rfl
  · rename_i ha
    rw [if_neg ha] at hm
    have h0 : RunFrame s (runPending s).state ∧ (runPending s).state.mcuIdx = s.mcuIdx ∧
        memRead (runPending s).state.out b = memRead s.out b := by
      unfold runPending; split
      · rename_i h
        have hr := reconMcuBody_frame s
        exact ⟨reconMcuBody_runFrame s, by unfold ReconFrame at hr; rw [hr],
          reconMcuBody_other s b (hp h)⟩
      · exact ⟨RunFrame.refl s, rfl, rfl⟩
    cases e : runPending s with
    | stop x t => rw [e] at h0; exact h0.2.2
    | done a t =>
      rw [e] at h0 hm
      simp only [andThen_done, state_done] at h0 hm ⊢
      have h1 := runLoop_tile align (t.mcuTotal.toNat - t.mcuIdx.toNat) t
      rw [h1.bytes b fun m h2 h3 => by
        rw [h0.1.tile]; exact hm m (by rw [← h0.2.1]; exact h2) h3]
      exact h0.2.2

/-! ## When a scan is over -/

/-- If no scan is active, the last MCU was reconstructed: MCU_IDX is MCU_TOTAL and none is pending (R413). -/
def ScanOver (t : State) : Prop := t.scanActive = false → t.mcuIdx = t.mcuTotal ∧ t.mcuPending = false

/-- RECON_MCU's body ends a scan with its last MCU only (R413, R68). -/
theorem reconMcuBody_over (s : State) (h : s.scanActive = true) : ScanOver (reconMcuBody s).state := by
  unfold ScanOver
  rcases reconMcuBody_cases s with e | ⟨src, _, _, e | e⟩ <;> rw [e]
  · rw [h]; simp
  · have := writeTile_only s src s.lastMcu.toNat (List.finRange 64) s
    unfold OutOnly at this
    rw [this]; dsimp only; rw [h]; simp
  · have := writeTile_only s src s.lastMcu.toNat (List.finRange 64) s
    unfold OutOnly at this
    rw [this]
    simp only [finishRecon, h, Bool.true_and, Bool.not_eq_eq_eq_not, Bool.not_false, beq_iff_eq]
    exact fun z => ⟨z, trivial⟩

theorem runLoop_over (align : Bool) (n : Nat) (s : State) (h : ScanOver s) :
    ScanOver (runLoop align n s).state := by
  induction n generalizing s with
  | zero => exact h
  | succ m ih =>
    unfold runLoop
    split
    · rename_i hlt
      have ha : s.scanActive = true := by
        cases e : s.scanActive with
        | true => rfl
        | false => rw [(h e).1] at hlt; exact absurd hlt (by simp)
      have hf := decodeMcuBody_frame align s
      have hd : (decodeMcuBody align s).state.scanActive = true := by
        unfold McuFrame at hf; rw [hf]; exact ha
      cases hb : decodeMcuBody align s with
      | stop e t =>
        rw [hb] at hd
        exact fun z => absurd (hd.symm.trans z) (by simp)
      | done a t =>
        rw [hb] at hd
        have hr := reconMcuBody_over t hd
        rw [andThen_done]
        cases hc : reconMcuBody t with
        | stop e u => rw [hc] at hr; exact hr
        | done b u => rw [hc] at hr; exact ih u hr
    · exact h

/-- RUN ends a scan with its last MCU only (R503). -/
theorem runBody_over (align : Bool) (s : State) (h : s.scanActive = true) :
    ScanOver (runBody align s).state := by
  unfold runBody
  rw [if_neg (by simp [h])]
  have hp : ScanOver (runPending s).state := by
    unfold runPending; split
    · exact reconMcuBody_over s h
    · exact fun z => absurd (h.symm.trans z) (by simp)
  cases e : runPending s with
  | stop x t => rw [e] at hp; exact hp
  | done a t => rw [e] at hp; exact runLoop_over align _ t hp

end Sys2Proof.Machine
end

