-- ==== Sys2Proof/Laws/Commute.lean ====
section
/-! SUPPORT. The engine's bodies read and write neither CTRL, nor DONE, nor the latch, and DECODE_MCU's not OUT
either: replacing these before a body or after it is the same (R505, R504). -/

namespace Sys2Proof.Machine

/-- CTRL, DONE and the latch replaced. -/
def withLife (c : Ctrl) (d : Bool) (l : Option Latch) (s : State) : State :=
  { s with ctrl := c, done := d, latch := l }

/-- CTRL, DONE, the latch and OUT replaced. -/
def withSide (c : Ctrl) (d : Bool) (l : Option Latch) (o : List Host.Cell) (s : State) : State :=
  { s with ctrl := c, done := d, latch := l, out := o }

/-- The state of a result replaced. -/
def Res.onState {α : Type} (f : State → State) (r : Res α) : Res α :=
  match r with
  | .done a s => .done a (f s)
  | .stop e s => .stop e (f s)

variable {α β : Type} (c : Ctrl) (d : Bool) (l : Option Latch) (o : List Host.Cell)

@[simp] theorem onState_done (f : State → State) (a : α) (s : State) :
    (Res.done a s).onState f = .done a (f s) := rfl

@[simp] theorem onState_stop (f : State → State) (e : Stop) (s : State) :
    (Res.stop e s : Res α).onState f = .stop e (f s) := rfl

@[simp] theorem withLife_ctrl (s : State) : (withLife c d l s).ctrl = c := rfl
@[simp] theorem withLife_done (s : State) : (withLife c d l s).done = d := rfl
@[simp] theorem withLife_latch (s : State) : (withLife c d l s).latch = l := rfl
@[simp] theorem withLife_params (s : State) : (withLife c d l s).params = s.params := rfl
@[simp] theorem withLife_err (s : State) : (withLife c d l s).err = s.err := rfl
@[simp] theorem withLife_errCode (s : State) : (withLife c d l s).errCode = s.errCode := rfl
@[simp] theorem withLife_errMcu (s : State) : (withLife c d l s).errMcu = s.errMcu := rfl
@[simp] theorem withLife_errBitPos (s : State) : (withLife c d l s).errBitPos = s.errBitPos := rfl
@[simp] theorem withLife_errComp (s : State) : (withLife c d l s).errComp = s.errComp := rfl
@[simp] theorem withLife_hostViol (s : State) : (withLife c d l s).hostViol = s.hostViol := rfl
@[simp] theorem withLife_scanActive (s : State) : (withLife c d l s).scanActive = s.scanActive := rfl
@[simp] theorem withLife_mcuPending (s : State) : (withLife c d l s).mcuPending = s.mcuPending := rfl
@[simp] theorem withLife_mcuIdx (s : State) : (withLife c d l s).mcuIdx = s.mcuIdx := rfl
@[simp] theorem withLife_mcuTotal (s : State) : (withLife c d l s).mcuTotal = s.mcuTotal := rfl
@[simp] theorem withLife_lastMcu (s : State) : (withLife c d l s).lastMcu = s.lastMcu := rfl
@[simp] theorem withLife_byteIdx (s : State) : (withLife c d l s).byteIdx = s.byteIdx := rfl
@[simp] theorem withLife_bitOff (s : State) : (withLife c d l s).bitOff = s.bitOff := rfl
@[simp] theorem withLife_pred (s : State) : (withLife c d l s).pred = s.pred := rfl
@[simp] theorem withLife_coef (s : State) : (withLife c d l s).coef = s.coef := rfl
@[simp] theorem withLife_qt (s : State) : (withLife c d l s).qt = s.qt := rfl
@[simp] theorem withLife_dcHt (s : State) : (withLife c d l s).dcHt = s.dcHt := rfl
@[simp] theorem withLife_acHt (s : State) : (withLife c d l s).acHt = s.acHt := rfl
@[simp] theorem withLife_bs (s : State) : (withLife c d l s).bs = s.bs := rfl
@[simp] theorem withLife_out (s : State) : (withLife c d l s).out = s.out := rfl
@[simp] theorem withLife_resetIn (s : State) : (withLife c d l s).resetIn = s.resetIn := rfl

theorem andThen_onState {f : State → State} {r q : Res α} {j k : α → State → Res β}
    (h1 : q = r.onState f) (h2 : ∀ a t, j a (f t) = (k a t).onState f) :
    q.andThen j = (r.andThen k).onState f := by
  subst h1
  cases r with
  | done a t => exact h2 a t
  | stop e t => rfl

/-! ## The decoders, which do not touch OUT either -/

theorem advanceBit_side (s : State) :
    advanceBit (withSide c d l o s) = withSide c d l o (advanceBit s) := by
  unfold advanceBit
  rw [show (withSide c d l o s).bitOff = s.bitOff from rfl]
  split <;> rfl

theorem readBit_side (comp : BitVec 2) (s : State) :
    readBit comp (withSide c d l o s) = (readBit comp s).onState (withSide c d l o) := by
  unfold readBit bsFetch
  rw [show (withSide c d l o s).bsLen = s.bsLen from rfl,
    show (withSide c d l o s).byteIdx = s.byteIdx from rfl,
    show (withSide c d l o s).params = s.params from rfl]
  split
  · rfl
  · split
    · simp only [andThen_done, advanceBit_side]; rfl
    · rfl

theorem readBitsFrom_side (comp : BitVec 2) (n v : Nat) (s : State) :
    readBitsFrom comp n v (withSide c d l o s) = (readBitsFrom comp n v s).onState (withSide c d l o) := by
  induction n generalizing v s with
  | zero => rfl
  | succ m ih => exact andThen_onState (readBit_side c d l o comp s) (fun b t => ih _ t)

theorem huffWalk_side (h : HuffTable) (comp : BitVec 2) (n code : Nat) (s : State) :
    huffWalk h comp n code (withSide c d l o s) = (huffWalk h comp n code s).onState (withSide c d l o) := by
  induction n generalizing code s with
  | zero => rfl
  | succ m ih =>
    refine andThen_onState (readBit_side c d l o comp s) (fun b t => ?_)
    split
    · rfl
    · exact ih _ t
    · rfl

theorem decodeDc_side (k : Comp) (s : State) :
    decodeDc k (withSide c d l o s) = (decodeDc k s).onState (withSide c d l o) := by
  refine andThen_onState (huffWalk_side c d l o _ _ _ _ s) (fun n t => ?_)
  split
  · rfl
  · exact andThen_onState (readBitsFrom_side c d l o _ _ _ t) (fun v u => rfl)

theorem acLoop_side (k : Comp) (turns i : Nat) (s : State) :
    acLoop k turns i (withSide c d l o s) = (acLoop k turns i s).onState (withSide c d l o) := by
  induction turns generalizing i s with
  | zero => rfl
  | succ m ih =>
    unfold acLoop
    split
    · refine andThen_onState (huffWalk_side c d l o _ _ _ _ s) (fun y t => ?_)
      split
      · rfl
      · split
        · split
          · rfl
          · exact ih _ t
        · split
          · exact andThen_onState (readBitsFrom_side c d l o _ _ _ t) (fun v u =>
              ih _ (u.withCoef k _ _))
          · rfl
    · rfl

theorem decodeBlock_side (k : Comp) (s : State) :
    decodeBlock k (withSide c d l o s) = (decodeBlock k s).onState (withSide c d l o) :=
  andThen_onState (decodeDc_side c d l o k (s.withZeroBlock k)) (fun _ t => acLoop_side c d l o k 63 1 t)

theorem decodeBlocks_side (ids : List (BitVec 2)) (s : State) :
    decodeBlocks ids (withSide c d l o s) = (decodeBlocks ids s).onState (withSide c d l o) := by
  induction ids generalizing s with
  | nil => rfl
  | cons id rest ih =>
    unfold decodeBlocks
    split
    · exact andThen_onState (decodeBlock_side c d l o _ s) (fun _ t => ih t)
    · rfl

theorem restartBoundary_side (align : Bool) (s : State) :
    restartBoundary align (withSide c d l o s) = withSide c d l o (restartBoundary align s) := by
  unfold restartBoundary alignCursor
  rw [show atRestart (withSide c d l o s) = atRestart s from rfl]
  split
  · split
    · dsimp only
      rw [show (withSide c d l o s).bitOff = s.bitOff from rfl]
      split <;> rfl
    · rfl
  · rfl

/-- DECODE_MCU's body reads and writes none of the four (R313, R505). -/
theorem decodeMcuBody_side (align : Bool) (s : State) :
    decodeMcuBody align (withSide c d l o s) = (decodeMcuBody align s).onState (withSide c d l o) := by
  unfold decodeMcuBody
  rw [show (withSide c d l o s).scanActive = s.scanActive from rfl,
    show (withSide c d l o s).mcuTotal = s.mcuTotal from rfl,
    show (withSide c d l o s).mcuIdx = s.mcuIdx from rfl,
    show (withSide c d l o s).scanCfg = s.scanCfg from rfl, restartBoundary_side]
  split
  · rfl
  · exact andThen_onState (decodeBlocks_side c d l o _ _) (fun _ t => rfl)

/-- DECODE_MCU's body (R313, R505). -/
theorem decodeMcuBody_life (align : Bool) (s : State) :
    decodeMcuBody align (withLife c d l s) = (decodeMcuBody align s).onState (withLife c d l) := by
  have h := decodeMcuBody_side c d l s.out align s
  have ho := (decodeMcuBody_position align s).1
  rw [show withLife c d l s = withSide c d l s.out s from rfl, h]
  cases e : decodeMcuBody align s with
  | done a t => rw [e, state_done] at ho; simp only [onState_done, withSide, withLife, ho]
  | stop x t => rw [e, state_stop] at ho; simp only [onState_stop, withSide, withLife, ho]

/-! ## RECON_MCU and RUN -/

theorem outWrite_life (a : Nat) (v : Byte) (s : State) :
    outWrite a v (withLife c d l s) = (outWrite a v s).onState (withLife c d l) := by
  unfold outWrite
  rw [show (withLife c d l s).params = s.params from rfl]
  split <;> rfl

theorem writePixel_life (a : Nat) (v : Rgb) (s : State) :
    writePixel a v (withLife c d l s) = (writePixel a v s).onState (withLife c d l) :=
  andThen_onState (outWrite_life c d l _ _ s) (fun _ t =>
    andThen_onState (outWrite_life c d l _ _ t) (fun _ u => outWrite_life c d l _ _ u))

theorem writeTile_life (s0 : State) (src : PixelSource) (m : Nat) (ps : List (Fin 64)) (s : State) :
    writeTile (withLife c d l s0) src m ps (withLife c d l s) =
      (writeTile s0 src m ps s).onState (withLife c d l) := by
  induction ps generalizing s with
  | nil => rfl
  | cons p rest ih =>
    unfold writeTile
    rw [show insideImage (withLife c d l s0) m p = insideImage s0 m p from rfl,
      show pixelAddr (withLife c d l s0) m p = pixelAddr s0 m p from rfl,
      show pixelColour (withLife c d l s0) src p = pixelColour s0 src p by cases src <;> rfl]
    split
    · exact andThen_onState
        (writePixel_life c d l _ _ s) (fun _ t => ih t)
    · exact ih s

/-- RECON_MCU's body (R413). -/
theorem reconMcuBody_life (s : State) :
    reconMcuBody (withLife c d l s) = (reconMcuBody s).onState (withLife c d l) := by
  unfold reconMcuBody
  rw [show (withLife c d l s).mcuPending = s.mcuPending from rfl,
    show (withLife c d l s).mcuCols = s.mcuCols from rfl,
    show (withLife c d l s).lastMcu = s.lastMcu from rfl,
    show pixelSource (withLife c d l s) = pixelSource s from rfl]
  split
  · rfl
  · split
    · rfl
    · split
      · rfl
      · exact andThen_onState (writeTile_life c d l _ _ _ _ s) (fun _ t => rfl)

theorem runLoop_life (align : Bool) (n : Nat) (s : State) :
    runLoop align n (withLife c d l s) = (runLoop align n s).onState (withLife c d l) := by
  induction n generalizing s with
  | zero => rfl
  | succ m ih =>
    unfold runLoop
    rw [show (withLife c d l s).mcuIdx = s.mcuIdx from rfl,
      show (withLife c d l s).mcuTotal = s.mcuTotal from rfl]
    split
    · exact andThen_onState (decodeMcuBody_life c d l align s) (fun _ t =>
        andThen_onState (reconMcuBody_life c d l t) (fun _ u => ih u))
    · rfl

/-- RUN's body (R503). -/
theorem runBody_life (align : Bool) (s : State) :
    runBody align (withLife c d l s) = (runBody align s).onState (withLife c d l) := by
  unfold runBody
  rw [show (withLife c d l s).scanActive = s.scanActive from rfl]
  split
  · rfl
  · refine andThen_onState ?_ (fun _ t => runLoop_life c d l align _ t)
    unfold runPending
    rw [show (withLife c d l s).mcuPending = s.mcuPending from rfl]
    split
    · exact reconMcuBody_life c d l s
    · rfl

end Sys2Proof.Machine
end

