-- ==== Sys2Proof/Laws/Table.lean ====
section
/-! SUPPORT. What the Huffman table builder writes: the offsets as sums of counts, the canonical codes by
class and place, their bound, and the order that makes the codes of a built table prefix free. -/

namespace Sys2Proof.Machine

/-! ## Offsets -/

theorem offsetsFrom_getD (n : Nat) (cs : List Nat) (l : Nat) (h : l ≤ cs.length) :
    (offsetsFrom n cs).getD l 0 = n + (cs.take l).sum := by
  induction cs generalizing n l with
  | nil =>
    obtain rfl : l = 0 := by simpa using h
    simp [offsetsFrom]
  | cons c rest ih =>
    cases l with
    | zero => simp [offsetsFrom]
    | succ m =>
      simp only [List.length_cons, Nat.add_le_add_iff_right] at h
      simp only [offsetsFrom, List.getD_cons_succ, List.take_succ_cons, List.sum_cons, ih _ _ h]
      omega

theorem take_sum_le (cs : List Nat) (l : Nat) : (cs.take l).sum ≤ cs.sum := by
  induction cs generalizing l with
  | nil => simp
  | cons c rest ih =>
    cases l with
    | zero => simp
    | succ m =>
      have := ih m
      simp only [List.take_succ_cons, List.sum_cons]
      omega

@[simp] theorem countList_length (h : HuffTable) : (countList h).length = 16 := by simp [countList]

theorem countList_getD (h : HuffTable) (l : Fin 16) : (countList h).getD l.val 0 = h.count[l].toNat := by
  simp [countList, List.getD]

theorem take_succ_sum (cs : List Nat) (l : Nat) : (cs.take (l + 1)).sum = (cs.take l).sum + cs.getD l 0 := by
  induction cs generalizing l with
  | nil => simp
  | cons c rest ih =>
    cases l with
    | zero => simp
    | succ m =>
      simp only [List.take_succ_cons, List.sum_cons, List.getD_cons_succ, ih m]
      omega

/-! ## Codes -/

/-- The running code before class `l`, from `code` before class 0 (R205). -/
def classStart (code : Nat) (cs : List Nat) (l : Nat) : Nat :=
  match l with
  | 0 => code
  | m + 1 => 2 * (classStart code cs m + cs.getD m 0)

theorem classStart_cons (code n : Nat) (cs : List Nat) (l : Nat) :
    classStart code (n :: cs) (l + 1) = classStart (2 * (code + n)) cs l := by
  induction l with
  | zero => simp [classStart]
  | succ m ih => rw [classStart, ih]; simp [classStart]

theorem codesFrom_getD (code : Nat) (cs : List Nat) (l k : Nat) (hl : l < cs.length)
    (hk : k < cs.getD l 0) :
    (codesFrom code cs).getD ((cs.take l).sum + k) 0 = classStart code cs l + k := by
  induction cs generalizing code l with
  | nil => simp at hl
  | cons n rest ih =>
    cases l with
    | zero =>
      simp only [List.getD_cons_zero] at hk
      simp only [codesFrom, classStart, List.getD, List.take_zero, List.sum_nil, Nat.zero_add]
      rw [List.getElem?_append_left (by simpa using hk)]
      simp [hk]
    | succ m =>
      simp only [List.length_cons, Nat.add_lt_add_iff_right] at hl
      simp only [List.getD_cons_succ] at hk
      have := ih (2 * (code + n)) m hl hk
      rw [classStart_cons, ← this]
      simp only [codesFrom, List.take_succ_cons, List.sum_cons, List.getD, Nat.add_assoc]
      rw [List.getElem?_append_right (by simp)]
      simp

theorem codesFrom_length (code : Nat) (cs : List Nat) : (codesFrom code cs).length = cs.sum := by
  induction cs generalizing code with
  | nil => rfl
  | cons n rest ih => simp [codesFrom, ih]

/-- The largest code of a build: the last of all symbols, were all but it of the shortest length
(R208). -/
theorem codesFrom_le (code : Nat) (cs : List Nat) (x : Nat) (hx : x ∈ codesFrom code cs) :
    x ≤ (code + cs.sum - 1) * 2 ^ (cs.length - 1) ∧ 0 < cs.sum := by
  induction cs generalizing code with
  | nil => simp [codesFrom] at hx
  | cons n rest ih =>
    simp only [codesFrom, List.mem_append, List.mem_map, List.mem_range] at hx
    simp only [List.sum_cons, List.length_cons, Nat.add_sub_cancel]
    rcases hx with ⟨j, hj, rfl⟩ | hx
    · refine ⟨?_, by omega⟩
      calc code + j ≤ (code + (n + rest.sum) - 1) * 1 := by omega
        _ ≤ _ := Nat.mul_le_mul_left _ (Nat.one_le_two_pow)
    · obtain ⟨h1, h2⟩ := ih _ hx
      refine ⟨?_, by omega⟩
      cases rest with
      | nil => simp at h2
      | cons m r =>
        simp only [List.length_cons, Nat.add_sub_cancel] at h1 ⊢
        rw [Nat.pow_succ, Nat.mul_comm (2 ^ r.length) 2, ← Nat.mul_assoc]
        refine Nat.le_trans h1 (Nat.mul_le_mul_right _ ?_)
        omega

theorem codesFrom_getD_le (h : HuffTable) (hn : symbolCount h ≤ 162) (i : Nat) :
    (codesFrom 0 (countList h)).getD i 0 ≤ 5275648 := by
  by_cases hi : i < (codesFrom 0 (countList h)).length
  · have hm : (codesFrom 0 (countList h)).getD i 0 ∈ codesFrom 0 (countList h) := by
      simp [List.getD, hi]
    have := (codesFrom_le 0 _ _ hm).1
    unfold symbolCount at hn
    simp only [countList_length, Nat.zero_add] at this
    refine Nat.le_trans this ?_
    calc ((countList h).sum - 1) * 2 ^ (16 - 1) ≤ 161 * 2 ^ 15 := Nat.mul_le_mul (by omega) (by decide)
      _ = 5275648 := by decide
  · simp [List.getD, List.getElem?_eq_none (Nat.le_of_not_lt hi)]

/-! ## Built tables -/

/-- The offsets and codes of a table are those R205 computes from its counts, and its counts pass the
check of R204. -/
structure Built (k : HuffTable) : Prop where
  count : symbolCount k ≤ 162
  offset : k.offset = (buildTable k).offset
  code : k.code = (buildTable k).code

/-- Slot `i` is of class `l` of a table (R205). -/
structure InSlots (k : HuffTable) (i : Fin 162) (l : Fin 16) : Prop where
  low : k.offset[l.castSucc].toNat ≤ i.val
  high : i.val < k.offset[l.succ].toNat

/-- A set table is built (R200). -/
theorem tableWf.built {k : HuffTable} (hw : tableWf k) (hs : k.set = true) : Built k :=
  ⟨(hw.2 hs).1, (hw.2 hs).2.1, (hw.2 hs).2.2⟩

theorem buildTable_congr (h k : HuffTable) (e : k.count = h.count) :
    symbolCount k = symbolCount h ∧ (buildTable k).offset = (buildTable h).offset ∧
      (buildTable k).code = (buildTable h).code := by
  unfold symbolCount buildTable countList; rw [e]; exact ⟨rfl, rfl, rfl⟩

/-- A table with the counts of another and what the builder computes from them is built. -/
theorem built_of_build {h k : HuffTable} (hn : symbolCount h ≤ 162) (hc : k.count = h.count)
    (ho : k.offset = (buildTable h).offset) (hd : k.code = (buildTable h).code) : Built k := by
  obtain ⟨e1, e2, e3⟩ := buildTable_congr h k hc
  exact ⟨by rw [e1]; exact hn, by rw [e2]; exact ho, by rw [e3]; exact hd⟩

/-- What the builder writes is built. -/
theorem built_buildTable (h : HuffTable) (hn : symbolCount h ≤ 162) : Built (buildTable h) :=
  built_of_build hn rfl rfl rfl

/-- `OFFSET[l]` of a built table is the number of symbols of length at most l (R205). -/
theorem Built.offset_eq {k : HuffTable} (h : Built k) (l : Fin 17) :
    k.offset[l].toNat = ((countList k).take l.val).sum := by
  have e : (buildTable k).offset[l] = BitVec.ofNat 8 ((offsetsFrom 0 (countList k)).getD l.val 0) :=
    Vector.getElem_ofFn l.isLt
  have t := take_sum_le (countList k) l.val
  have hn := h.count
  unfold symbolCount at hn
  rw [h.offset, e, BitVec.toNat_ofNat, offsetsFrom_getD _ _ _ (by simp; omega)]
  omega

/-- `CODE[i]` of a built table as a number; no code is cut off by its field (R205, R208). -/
theorem Built.code_eq {k : HuffTable} (h : Built k) (i : Fin 162) :
    k.code[i].toNat = (codesFrom 0 (countList k)).getD i.val 0 := by
  have e : (buildTable k).code[i] = BitVec.ofNat 24 ((codesFrom 0 (countList k)).getD i.val 0) :=
    Vector.getElem_ofFn i.isLt
  have b := codesFrom_getD_le k h.count i.val
  rw [h.code, e, BitVec.toNat_ofNat]
  exact Nat.mod_eq_of_lt (by omega)

/-- The slots of a class are those from the sum of the shorter classes' counts on (R205). -/
theorem Built.slots {k : HuffTable} (h : Built k) {i : Fin 162} {l : Fin 16} (s : InSlots k i l) :
    ((countList k).take l.val).sum ≤ i.val ∧
      i.val < ((countList k).take l.val).sum + (countList k).getD l.val 0 := by
  have h1 := s.low
  have h2 := s.high
  rw [h.offset_eq] at h1 h2
  rw [Fin.val_succ, take_succ_sum] at h2
  exact ⟨h1, h2⟩

/-- The canonical code of a slot, by its class and its place in the class (R205). -/
theorem Built.code_class {k : HuffTable} (h : Built k) {i : Fin 162} {l : Fin 16}
    (s : InSlots k i l) :
    k.code[i].toNat =
      classStart 0 (countList k) l.val + (i.val - ((countList k).take l.val).sum) := by
  obtain ⟨h1, h2⟩ := h.slots s
  rw [h.code_eq, ← codesFrom_getD 0 (countList k) l.val (i.val - ((countList k).take l.val).sum)
    (by simp) (by omega)]
  congr 1
  omega

/-- A slot past the last class has code 0 (R205). -/
theorem Built.code_unused {k : HuffTable} (h : Built k) {i : Fin 162} (hi : symbolCount k ≤ i.val) :
    k.code[i].toNat = 0 := by
  rw [h.code_eq, List.getD, List.getElem?_eq_none (by rw [codesFrom_length]; exact hi)]
  rfl

/-! ## The order of the classes -/

/-- Each class starts above the codes of every shorter class, taken as prefixes (R207). -/
theorem classStart_step (code : Nat) (cs : List Nat) (l d : Nat) :
    2 ^ (d + 1) * (classStart code cs l + cs.getD l 0) ≤ classStart code cs (l + d + 1) := by
  induction d with
  | zero => simp [classStart]
  | succ e ih =>
    rw [Nat.pow_succ, Nat.mul_comm (2 ^ (e + 1)) 2, Nat.mul_assoc]
    rw [show l + (e + 1) + 1 = (l + e + 1) + 1 by omega, classStart]
    exact Nat.mul_le_mul_left 2 (Nat.le_trans ih (Nat.le_add_right _ _))

/-- In a built table a longer code cut to the length of a shorter class is above every code of that
class, so it is none of them; over-subscribed tables included (R207, R307). -/
theorem Built.prefix_above {k : HuffTable} (h : Built k) {i j : Fin 162} {l m : Fin 16} (hlm : l < m)
    (si : InSlots k i l) (sj : InSlots k j m) :
    k.code[i].toNat < k.code[j].toNat / 2 ^ (m.val - l.val) := by
  have hl : l.val < m.val := hlm
  have st := classStart_step 0 (countList k) l.val (m.val - l.val - 1)
  rw [show l.val + (m.val - l.val - 1) + 1 = m.val by omega,
    show m.val - l.val - 1 + 1 = m.val - l.val by omega] at st
  have bi := h.slots si
  rw [h.code_class si, h.code_class sj, Nat.lt_div_iff_mul_lt (Nat.two_pow_pos _)]
  have p := Nat.two_pow_pos (m.val - l.val)
  generalize 2 ^ (m.val - l.val) = q at *
  have hlt : classStart 0 (countList k) l.val + (i.val - ((countList k).take l.val).sum) + 1 ≤
      classStart 0 (countList k) l.val + (countList k).getD l.val 0 := by omega
  have hm := Nat.mul_le_mul_left q hlt
  rw [Nat.mul_add, Nat.mul_one] at hm
  rw [Nat.mul_comm]
  omega

/-- In a built table two slots of one class have different codes (R207). -/
theorem Built.code_injective {k : HuffTable} (h : Built k) {i j : Fin 162} {l : Fin 16}
    (si : InSlots k i l) (sj : InSlots k j l) (e : k.code[i].toNat = k.code[j].toNat) : i = j := by
  have bi := h.slots si
  have bj := h.slots sj
  rw [h.code_class si, h.code_class sj] at e
  apply Fin.ext
  omega

/-! ## Building a table -/

/-- A built table is well formed, marked or not. -/
theorem Built.wf {k : HuffTable} (h : Built k) : tableWf k := by
  refine ⟨fun l => ?_, fun _ => ⟨h.count, h.offset, h.code⟩⟩
  have hn := h.count
  have t := take_sum_le (countList k) l.val
  unfold symbolCount at hn
  rw [h.offset_eq]
  omega

@[simp] theorem marked_count (h : HuffTable) : h.marked.count = h.count := rfl
@[simp] theorem marked_symbol (h : HuffTable) : h.marked.symbol = h.symbol := rfl
@[simp] theorem marked_offset (h : HuffTable) : h.marked.offset = h.offset := rfl
@[simp] theorem marked_code (h : HuffTable) : h.marked.code = h.code := rfl
@[simp] theorem marked_set (h : HuffTable) : h.marked.set = true := rfl

@[simp] theorem buildTable_count (h : HuffTable) : (buildTable h).count = h.count := rfl
@[simp] theorem buildTable_symbol (h : HuffTable) : (buildTable h).symbol = h.symbol := rfl

/-- What BUILD_HT leaves in a table is built (R204 to R206). -/
theorem built_marked (h : HuffTable) (hn : symbolCount h ≤ 162) : Built (buildTable h).marked :=
  built_of_build (h := h) hn ((marked_count _).trans (buildTable_count h)) (marked_offset _)
    (marked_code _)

/-- A table built from counts that pass the check is well formed once marked (R204 to R206). -/
theorem tableWf_build (h : HuffTable) (hn : symbolCount h ≤ 162) : tableWf (buildTable h).marked :=
  (built_marked h hn).wf

/-- Changing COUNT or SYMBOL and clearing the flag keeps a table well formed (R109). -/
theorem tableWf_clear (h : HuffTable) (c : Vector Byte 16) (y : Vector Byte 162) (hw : tableWf h) :
    tableWf { h with count := c, symbol := y, set := false } := ⟨hw.1, fun z => by cases z⟩

theorem tableWf_reset : tableWf HuffTable.reset := by
  refine ⟨fun l => ?_, fun h => by cases h⟩
  simp [HuffTable.reset]

end Sys2Proof.Machine
end

