-- ==== Sys2Proof/Laws/Invariant.lean ====
section
/-! SUPPORT. How the shared operations keep `State.Inv`: completion and error entry, table and register
updates, the reset state, and data writes. The commands' and the step's own lemmas are the provers'. -/

namespace Sys2Proof.Machine

/-- The engine's invariant looks at the configuration, the memories, the cursor and the scan's position only. -/
theorem EngineInv.congr {s t : State} (h : EngineInv s) (hc : SameConfig s t) (hbs : t.bs = s.bs)
    (ho : t.out = s.out) (hb : t.byteIdx = s.byteIdx) (hoff : t.bitOff = s.bitOff)
    (h1 : t.scanActive = s.scanActive) (h2 : t.mcuPending = s.mcuPending) (h3 : t.mcuIdx = s.mcuIdx)
    (h4 : t.mcuTotal = s.mcuTotal) (h5 : t.lastMcu = s.lastMcu) (h6 : t.mcuCols = s.mcuCols)
    (h7 : t.mcuRows = s.mcuRows) : EngineInv t := by
  refine ⟨by rw [hc.params]; exact h.params, ?_, ?_, fun c i => by rw [hc.huff]; exact h.tables c i, ?_⟩
  · have := h.memories; unfold State.memoriesWf at *; rw [hc.params, hbs, ho]; exact this
  · have := h.cursor; unfold State.cursorWf at *; rw [hc.params, hb, hoff]; exact this
  · have := h.scan; unfold State.scanWf State.scanConfigured at *
    rw [hc.startScanError, hc.width, hc.height, h1,h2,h3,h4,h5,h6,h7]; exact this

theorem errorByte_mem (c : ErrCode) : errorByte c ∈ errorBytes := by cases c <;> decide

/-- Completion keeps the engine's invariant (R504). -/
theorem engine_complete {s : State} (h : EngineInv s) : EngineInv (complete s) :=
  h.congr ⟨rfl, rfl, rfl, rfl, rfl, rfl, rfl, rfl, rfl, rfl⟩ rfl rfl rfl rfl rfl rfl rfl rfl rfl rfl rfl

/-- The error entry keeps the engine's invariant (R603). -/
theorem engine_error {s : State} (e b) (h : EngineInv s) : EngineInv (errorEntry e b s) :=
  h.congr ⟨rfl, rfl, rfl, rfl, rfl, rfl, rfl, rfl, rfl, rfl⟩ rfl rfl rfl rfl rfl rfl rfl rfl rfl rfl rfl

/-- Neither the error registers nor the reset input change. -/
structure Quiet (s t : State) : Prop where
  err : t.err = s.err
  errCode : t.errCode = s.errCode
  errMcu : t.errMcu = s.errMcu
  errBitPos : t.errBitPos = s.errBitPos
  errComp : t.errComp = s.errComp
  resetIn : t.resetIn = s.resetIn

theorem RunFrame.quiet {s t : State} (h : RunFrame s t) : Quiet s t := by
  unfold RunFrame at h; rw [h]; exact ⟨rfl, rfl, rfl, rfl, rfl, rfl⟩

theorem quiet_refl (s : State) : Quiet s s := ⟨rfl, rfl, rfl, rfl, rfl, rfl⟩

/-- A command whose body keeps the engine's invariant and leaves the error registers alone keeps the
whole invariant (R603, R604). -/
theorem unlessFrozen_inv {body : State → Res Unit} {s t : State} (h : s.Inv) (hr : s.resetIn = false)
    (hq : Quiet s (body s).state) (he : EngineInv (body s).state)
    (hx : unlessFrozen body s = .next t) : t.Inv := by
  rcases unlessFrozen_next hx with ⟨e, rfl⟩ | ⟨e, u, hu, rfl⟩ | ⟨e, c, b, u, hu, rfl⟩
  · have k := engine_complete h.engine
    refine ⟨k.params, k.memories, h.errors, k.cursor, k.tables, k.scan, ?_, ?_⟩
    · intro z; cases z
    · intro z; rw [complete_resetIn, hr] at z; cases z
  · rw [hu] at he hq
    have k := engine_complete he
    refine ⟨k.params, k.memories, ?_, k.cursor, k.tables, k.scan, ?_, ?_⟩
    · have := h.errors
      unfold State.errorWf at *
      simp only [complete_err, complete_errCode, complete_errMcu, complete_errBitPos, complete_errComp]
      obtain ⟨q1, q2, q3, q4, q5, _⟩ := hq
      simp only [state_done] at q1 q2 q3 q4 q5
      rw [q1, q2, q3, q4, q5]; exact this
    · intro z; cases z
    · intro z
      rw [complete_resetIn] at z
      have := hq.resetIn
      simp only [state_done] at this
      rw [this, hr] at z; cases z
  · rw [hu] at he hq
    have k := engine_error c b he
    refine ⟨k.params, k.memories, ?_, k.cursor, k.tables, k.scan, ?_, ?_⟩
    · exact ⟨fun _ => errorByte_mem c, fun z => by cases z⟩
    · intro z; cases z
    · intro z
      rw [errorEntry_resetIn] at z
      have := hq.resetIn
      simp only [state_stop] at this
      rw [this, hr] at z; cases z

theorem conclude_ne_fault {r : Res Unit} (h : NoFault r) (f) : conclude r ≠ .fault f := by
  obtain ⟨t, e⟩ := conclude_of_noFault h
  rw [e]; simp

theorem unlessFrozen_ne_fault {b : State → Res Unit} {s} (h : NoFault (b s)) (f) : unlessFrozen b s ≠ .fault f := by
  unfold unlessFrozen; split
  · simp
  · exact conclude_ne_fault h f

/-- The invariant from its parts, the reset input released. -/
theorem inv_of_engine {s : State} (he : EngineInv s) (h1 : s.errorWf) (h2 : s.busy = true → s.done = false) (h3 : s.resetIn = false) : s.Inv :=
  ⟨he.params, he.memories, h1, he.cursor, he.tables, he.scan, h2, fun z => by rw [h3] at z; cases z⟩

/-- With no scan active and no MCU pending the decode position is unconstrained. -/
theorem idle_scan {t : State} (ha : t.scanActive = false) (hp : t.mcuPending = false) : t.scanWf := by
  unfold State.scanWf; simp [ha, hp]

/-- No MCU is pending outside a scan (R68). -/
theorem EngineInv.notPending {s : State} (h : EngineInv s) (ha : s.scanActive = false) : s.mcuPending = false := by
  cases e : s.mcuPending with
  | false => rfl
  | true => have := (h.scan.2.1 e).1; rw [ha] at this; cases this

/-- Outside a scan a Huffman table may be replaced by a well-formed one. -/
theorem withHuff_engine {s : State} (h : EngineInv s) (ha : s.scanActive = false) (c t) (x : HuffTable) (hx : tableWf x) :
    EngineInv (s.withHuff c t x) := by
  have hp : s.mcuPending = false := by
    cases e : s.mcuPending with
    | false => rfl
    | true => have := (h.scan.2.1 e).1; rw [ha] at this; cases this
  refine ⟨by simpa using h.params, ?_, ?_, ?_, ?_⟩
  · have := h.memories; unfold State.memoriesWf at *; simpa using this
  · have := h.cursor; unfold State.cursorWf at *; simpa using this
  · intro c' t'
    rw [huff_withHuff]; split
    · exact hx
    · exact h.tables _ _
  · unfold State.scanWf; simp [ha, hp]

/-- Outside a scan a quantization table may be replaced. -/
theorem withQt_engine {s : State} (h : EngineInv s) (ha : s.scanActive = false) (t) (x : QuantTable) :
    EngineInv (s.withQt t x) :=
  ⟨h.params, h.memories, h.cursor, h.tables, idle_scan ha (h.notPending ha)⟩

/-- The MCU columns and rows fit their fields, and are not 0 for a nonzero size (R53). -/
theorem ceil8_bound (w : Half) : ceil8 w.toNat < 2 ^ 16 ∧ (w ≠ 0 → 0 < ceil8 w.toNat) := by
  have := w.isLt
  unfold ceil8
  refine ⟨by omega, fun h => ?_⟩
  have : w.toNat ≠ 0 := fun z => h (BitVec.eq_of_toNat_eq (by simpa using z))
  omega

/-- A successful START_SCAN sets up the engine's invariant (R312). -/
theorem beginScan_engine {s : State} (h : EngineInv s) (he : startScanError s = none) : EngineInv (beginScan s) := by
  have hs : SameConfig s (beginScan s) := ⟨rfl, rfl, rfl, rfl, rfl, rfl, rfl, rfl, rfl, rfl⟩
  have e0 := startScanError_none he
  have hw := ceil8_bound s.width
  have hh := ceil8_bound s.height
  have h1 := hw.2 e0.1
  have h2 := hh.2 e0.2.1
  have hw' : ceil8 s.width.toNat ≤ 8192 := by have := s.width.isLt; unfold ceil8; omega
  have hh' : ceil8 s.height.toNat ≤ 8192 := by have := s.height.isLt; unfold ceil8; omega
  have hm : ceil8 s.width.toNat * ceil8 s.height.toNat ≤ 8192 * 8192 := Nat.mul_le_mul hw' hh'
  have hpos : 0 < ceil8 s.width.toNat * ceil8 s.height.toNat := Nat.mul_pos h1 h2
  have t1 : (beginScan s).mcuTotal.toNat = ceil8 s.width.toNat * ceil8 s.height.toNat := by
    simp only [beginScan_mcuTotal, BitVec.toNat_ofNat]; exact Nat.mod_eq_of_lt (by omega)
  refine ⟨h.params, h.memories, ?_, h.tables, ?_, ?_, ?_⟩
  · unfold State.cursorWf; simp
  · intro _
    refine ⟨hs.startScanError.trans he, ?_, ?_, t1, ?_⟩
    · simp only [beginScan_mcuCols, BitVec.toNat_ofNat, beginScan_width]; exact Nat.mod_eq_of_lt hw.1
    · simp only [beginScan_mcuRows, BitVec.toNat_ofNat, beginScan_height]; exact Nat.mod_eq_of_lt hh.1
    · simp
  · simp
  · intro _ _; rw [t1]; simpa using hpos

/-- The reset tables are well formed (R700). -/
theorem tables_reset (s : State) : (resetState s).tablesWf := by
  intro c t
  cases c <;> simp [State.huff, tableWf_reset]

/-- The reset state meets the engine's invariant (R700). -/
theorem resetState_engine {s : State} (hp : s.params.legal = true) (hm : s.memoriesWf) : EngineInv (resetState s) := by
  refine ⟨hp, hm, ?_, tables_reset s, idle_scan rfl rfl⟩
  unfold State.cursorWf; simp

/-- The reset state meets the invariant (R700). -/
theorem resetState_inv {s : State} (hp : s.params.legal = true) (hm : s.memoriesWf) : (resetState s).Inv := by
  have k := resetState_engine hp hm
  refine ⟨k.params, k.memories, ?_, k.cursor, k.tables, k.scan, ?_, ?_⟩
  · unfold State.errorWf; simp
  · intro z; cases z
  · intro _; rfl

/-- OUT is in canonical form, inside its capacity. -/
def OutWf (s : State) : Prop := memWf s.params.outBytes s.out = true

theorem reconMcuBody_outWf (s : State) (h : OutWf s) : OutWf (reconMcuBody s).state := by
  rcases reconMcuBody_cases s with e | ⟨src, _, _, e | e⟩ <;> rw [e]
  · exact h
  · exact writeTile_wf _ _ _ _ _ h
  · exact writeTile_wf _ _ _ _ _ h

theorem decodeMcuBody_outWf (al : Bool) (s : State) (h : OutWf s) : OutWf (decodeMcuBody al s).state := by
  have f := decodeMcuBody_frame al s
  unfold McuFrame at f; rw [f]; exact h

theorem runLoop_outWf (align : Bool) (n : Nat) (s : State) (h : OutWf s) : OutWf (runLoop align n s).state := by
  induction n generalizing s with
  | zero => exact h
  | succ m ih =>
    unfold runLoop
    split
    · exact andThen_rel (R := fun s t => OutWf s → OutWf t) (fun p q => q ∘ p) (decodeMcuBody_outWf align s) (fun _ t _ =>
        andThen_rel (R := fun s t => OutWf s → OutWf t) (fun p q => q ∘ p) (reconMcuBody_outWf t) (fun _ u _ => ih u)) h
    · exact h

theorem runBody_outWf (align : Bool) (s : State) (h : OutWf s) : OutWf (runBody align s).state := by
  unfold runBody; split
  · exact h
  · refine andThen_rel (R := fun s t => OutWf s → OutWf t) (fun p q => q ∘ p) ?_ (fun _ t _ => runLoop_outWf align _ t) h
    unfold runPending; split
    · exact reconMcuBody_outWf s
    · exact id

/-- What a body writes to OUT is inside OUT (R113). -/
theorem writtenBytes_lt (body : State → Res Unit) (s : State)
   (hb : ∀ s, OutWf s → OutWf (body s).state) (hf : ∀ s, RunFrame s (body s).state) :
   ∀ a ∈ writtenBytes body s, a < s.params.outBytes := by
  intro a ha
  have h := hb { s with out := [] } rfl
  have hp := hf { s with out := [] }
  unfold writtenBytes at ha
  unfold OutWf memWf at h
  generalize (body { s with out := [] }).state = t at *
  unfold RunFrame at hp
  have e : t.params = s.params := by rw [hp]
  rw [e] at h
  simp only [Bool.and_eq_true, List.all_eq_true, decide_eq_true_eq] at h
  obtain ⟨c, hc, rfl⟩ := List.mem_map.1 ha
  exact h.2 c hc

/-- The OUT bytes of an aborted command are inside OUT (R705). -/
theorem abortedBytes_lt (s : State) : ∀ a ∈ abortedBytes s, a < s.params.outBytes := by
  unfold abortedBytes
  split
  · simp
  · split
    · simp
    · split <;> try simp
      · exact writtenBytes_lt _ s reconMcuBody_outWf reconMcuBody_runFrame
      · exact writtenBytes_lt _ s (runBody_outWf _) (runBody_frame _)

/-- RESET keeps the invariant (R501, R705). -/
theorem resetCommand_inv {s : State} (h : s.Inv) : (resetCommand s).Inv := by
  unfold resetCommand
  have hf := drawOutBytes_frame (abortedBytes s) s
  refine resetState_inv ?_ ?_
  · rw [hf]; exact h.params
  · have := h.memories
    refine ⟨?_, ?_⟩
    · rw [hf]; exact this.1
    · have e : (drawOutBytes (abortedBytes s) s).params = s.params := by rw [hf]
      rw [e]
      exact drawOutBytes_wf _ _ _ (abortedBytes_lt s) this.2

/-- A word write inside the capacity keeps the canonical form (R110). -/
theorem bs4_wf (cap) (hcap : cap % 4 = 0) (m : List Host.Cell) (w : Nat) (hw : 4*w < cap) (a b c d) (h : memWf cap m = true) :
  memWf cap (memWrite (memWrite (memWrite (memWrite m (4 * w) a) (4 * w + 1) b) (4 * w + 2) c) (4 * w + 3) d) = true := by
  refine memWf_memWrite _ _ _ _ (by omega) (memWf_memWrite _ _ _ _ (by omega) (memWf_memWrite _ _ _ _ (by omega) (memWf_memWrite _ _ _ _ (by omega) h)))

/-- A word of a memory window is inside its memory. -/
def TargetFits (p : Params) : Target → Prop
  | .bsWord w => 4 * w < p.bsBytes
  | .outWord w => 4 * w < p.outBytes
  | _ => True

/-- The address map names no word outside a memory (R102). -/
theorem decodeAddr_fits (p : Params) (a : Nat) (ha : a % 4 = 0) : TargetFits p (decodeAddr p a) := by
  unfold decodeAddr
  split
  · unfold registerAt; split <;> exact trivial
  · split
    · exact trivial
    · split
      · unfold htWordAt; repeat (first | exact trivial | split)
      · split
        · exact trivial
        · split
          · unfold TargetFits; omega
          · split
            · unfold TargetFits; omega
            · exact trivial

/-- Legal capacities are multiples of 4 (R11). -/
theorem mod4_of_legal {p : Params} (h : p.legal = true) : p.bsBytes % 4 = 0 ∧ p.outBytes % 4 = 0 := by
  simp only [Params.legal, Params.bsLegal, Params.outLegal, Bool.and_eq_true, beq_iff_eq, decide_eq_true_eq] at h
  exact ⟨h.1.1.1, h.2.1.1⟩

/-- Outside a scan the configuration may change freely. -/
theorem engine_idle {s t : State} (h : EngineInv s) (ha : s.scanActive = false)
    (hp : t.params = s.params) (hm : t.memoriesWf) (h1 : t.byteIdx = s.byteIdx) (h2 : t.bitOff = s.bitOff)
    (ht : t.tablesWf) (h3 : t.scanActive = s.scanActive) (h4 : t.mcuPending = s.mcuPending) : EngineInv t := by
  refine ⟨by rw [hp]; exact h.params, hm, ?_, ht, idle_scan (h3.trans ha) (h4.trans (h.notPending ha))⟩
  have := h.cursor; unfold State.cursorWf at *; rw [hp, h1, h2]; exact this

/-- A write of an OUT word keeps the engine's invariant, in a scan too (R106). -/
theorem applyData_out_engine {s : State} (h : EngineInv s) (w v) (hw : 4 * w < s.params.outBytes) :
    EngineInv (applyData (.outWord w) v s) := by
  have hs : SameConfig s (applyData (.outWord w) v s) := ⟨rfl, rfl, rfl, rfl, rfl, rfl, rfl, rfl, rfl, rfl⟩
  refine ⟨h.params, ⟨h.memories.1, bs4_wf _ (mod4_of_legal h.params).2 _ _ hw _ _ _ _ h.memories.2⟩, h.cursor, h.tables, ?_⟩
  have k := h.scan
  unfold State.scanWf State.scanConfigured at *
  rw [hs.startScanError]; exact k

/-- A data write applied outside a scan keeps the engine's invariant (R106, R714). -/
theorem applyData_engine {s : State} (h : EngineInv s) (ha : s.scanActive = false) (t : Target) (v)
    (ht : TargetFits s.params t) : EngineInv (applyData t v s) := by
  cases t with
  | outWord w => exact applyData_out_engine h w v ht
  | bsWord w => exact engine_idle h ha rfl ⟨bs4_wf _ (mod4_of_legal h.params).1 _ _ ht _ _ _ _ h.memories.1, h.memories.2⟩ rfl rfl h.tables rfl rfl
  | frameSize => exact engine_idle h ha rfl h.memories rfl rfl h.tables rfl rfl
  | frameNcomp => exact engine_idle h ha rfl h.memories rfl rfl h.tables rfl rfl
  | compCfg => exact engine_idle h ha rfl h.memories rfl rfl h.tables rfl rfl
  | scanCfg => exact engine_idle h ha rfl h.memories rfl rfl h.tables rfl rfl
  | restart => exact engine_idle h ha rfl h.memories rfl rfl h.tables rfl rfl
  | bsLen => exact engine_idle h ha rfl h.memories rfl rfl h.tables rfl rfl
  | qtEntry => exact withQt_engine h ha _ _
  | htCount c t l => exact withHuff_engine h ha _ _ _ (tableWf_clear _ _ _ (h.tables c t))
  | htSymbol c t l => exact withHuff_engine h ha _ _ _ (tableWf_clear _ _ _ (h.tables c t))
  | _ => exact h

/-- A data write touches neither the error registers nor the latch nor DONE. -/
theorem applyData_quiet (t v s) : Quiet s (applyData t v s) ∧ (applyData t v s).latch = s.latch ∧ (applyData t v s).done = s.done := by
  cases t with
  | htCount c t l => cases c <;> exact ⟨⟨rfl, rfl, rfl, rfl, rfl, rfl⟩, rfl, rfl⟩
  | htSymbol c t l => cases c <;> exact ⟨⟨rfl, rfl, rfl, rfl, rfl, rfl⟩, rfl, rfl⟩
  | _ => exact ⟨⟨rfl, rfl, rfl, rfl, rfl, rfl⟩, rfl, rfl⟩

theorem Quiet.errorWf {s t : State} (h : Quiet s t) (k : s.errorWf) : t.errorWf := by
  unfold State.errorWf at *; rw [h.err, h.errCode, h.errMcu, h.errBitPos, h.errComp]; exact k

/-- Setting HOST_VIOL keeps the invariant (R606). -/
theorem hostViolation_inv {s : State} (h : s.Inv) (hr : s.resetIn = false) : (hostViolation s).Inv :=
  ⟨h.params, h.memories, h.errors, h.cursor, h.tables, h.engine.congr (t := hostViolation s) ⟨rfl, rfl, rfl, rfl, rfl, rfl, rfl, rfl, rfl, rfl⟩ rfl rfl rfl rfl rfl rfl rfl rfl rfl rfl rfl |>.scan, h.latch, fun z => by rw [hostViolation_resetIn, hr] at z; cases z⟩

/-- The invariant does not look at the model's own fields. -/
theorem inv_model {s : State} (h : s.Inv) (p : List HostStmt) (r : List BusResponse) (b : List (String × Word)) (d : Nat) :
    State.Inv { s with program := p, responses := r, bindings := b, draws := d } :=
  ⟨h.params, h.memories, h.errors, h.cursor, h.tables, h.engine.congr (t := { s with program := p, responses := r, bindings := b, draws := d }) ⟨rfl, rfl, rfl, rfl, rfl, rfl, rfl, rfl, rfl, rfl⟩ rfl rfl rfl rfl rfl rfl rfl rfl rfl rfl rfl |>.scan, h.latch, fun z => by
    have := h.held z
    generalize hx : ({ s with program := p, responses := r, bindings := b, draws := d } : State) = x
    rw [← this] at hx
    subst hx; rfl⟩

end Sys2Proof.Machine
end

