-- ==== Sys2Proof/Laws/Abort.lean ====
section
/-! SUPPORT. The OUT bytes that an aborted RECON_MCU or RUN could write (R705): those of the tiles it would
have reconstructed, whatever OUT holds. -/

namespace Sys2Proof.Machine

variable {α β : Type}

/-- OUT replaced. -/
def withOut (o : List Host.Cell) (s : State) : State := { s with out := o }

/-! ## What a body does apart from OUT does not depend on OUT -/

theorem andThen_withOut {r q : Res α} {j k : α → State → Res β} {o : List Host.Cell}
    (h1 : q = r.onState (withOut o))
    (h2 : ∀ a t, r = .done a t → ∃ p, j a (withOut o t) = (k a t).onState (withOut p)) :
    ∃ p, q.andThen j = (r.andThen k).onState (withOut p) := by
  subst h1
  cases r with
  | done a t => exact h2 a t rfl
  | stop e t => exact ⟨o, rfl⟩

theorem outWrite_withOut (a : Nat) (v : Byte) (o : List Host.Cell) (s : State) :
    ∃ p, outWrite a v (withOut o s) = (outWrite a v s).onState (withOut p) := by
  unfold outWrite
  rw [show (withOut o s).params = s.params from rfl]
  split
  · exact ⟨memWrite o a v, rfl⟩
  · exact ⟨o, rfl⟩

theorem writePixel_withOut (a : Nat) (v : Rgb) (o : List Host.Cell) (s : State) :
    ∃ p, writePixel a v (withOut o s) = (writePixel a v s).onState (withOut p) := by
  obtain ⟨o1, h1⟩ := outWrite_withOut a v.r o s
  refine andThen_withOut h1 (fun _ t _ => ?_)
  obtain ⟨o2, h2⟩ := outWrite_withOut (a + 1) v.g o1 t
  exact andThen_withOut h2 (fun _ u _ => outWrite_withOut (a + 2) v.b o2 u)

theorem writeTile_withOut (x : List Host.Cell) (s0 : State) (src : PixelSource) (m : Nat)
    (ps : List (Fin 64)) (o : List Host.Cell) (s : State) :
    ∃ p, writeTile (withOut x s0) src m ps (withOut o s) =
      (writeTile s0 src m ps s).onState (withOut p) := by
  induction ps generalizing s o with
  | nil => exact ⟨o, rfl⟩
  | cons q rest ih =>
    unfold writeTile
    rw [show insideImage (withOut x s0) m q = insideImage s0 m q from rfl,
      show pixelAddr (withOut x s0) m q = pixelAddr s0 m q from rfl,
      show pixelColour (withOut x s0) src q = pixelColour s0 src q by cases src <;> rfl]
    split
    · obtain ⟨o1, h1⟩ := writePixel_withOut (pixelAddr s0 m q) (pixelColour s0 src q) o s
      exact andThen_withOut h1 (fun _ t _ => ih o1 t)
    · exact ih o s

/-- RECON_MCU's body (R413). -/
theorem reconMcuBody_withOut (o : List Host.Cell) (s : State) :
    ∃ p, reconMcuBody (withOut o s) = (reconMcuBody s).onState (withOut p) := by
  unfold reconMcuBody
  rw [show (withOut o s).mcuPending = s.mcuPending from rfl,
    show (withOut o s).mcuCols = s.mcuCols from rfl,
    show (withOut o s).lastMcu = s.lastMcu from rfl,
    show pixelSource (withOut o s) = pixelSource s from rfl]
  split
  · exact ⟨o, rfl⟩
  · split
    · exact ⟨o, rfl⟩
    · split
      · exact ⟨o, rfl⟩
      · rename_i src _
        obtain ⟨o1, h1⟩ := writeTile_withOut o s src s.lastMcu.toNat (List.finRange 64) o s
        exact andThen_withOut h1 (fun _ t _ => ⟨o1, rfl⟩)

/-- DECODE_MCU's body (R313). -/
theorem decodeMcuBody_withOut (align : Bool) (o : List Host.Cell) (s : State) :
    decodeMcuBody align (withOut o s) = (decodeMcuBody align s).onState (withOut o) := by
  have h := decodeMcuBody_side s.ctrl s.done s.latch o align s
  have hf := decodeMcuBody_frame align s
  unfold McuFrame at hf
  rw [show withOut o s = withSide s.ctrl s.done s.latch o s from rfl, h]
  cases e : decodeMcuBody align s with
  | done a t => rw [e, state_done] at hf; rw [onState_done, onState_done, hf]; rfl
  | stop x t => rw [e, state_stop] at hf; rw [onState_stop, onState_stop, hf]; rfl

theorem runLoop_withOut (align : Bool) (n : Nat) (o : List Host.Cell) (s : State) :
    ∃ p, runLoop align n (withOut o s) = (runLoop align n s).onState (withOut p) := by
  induction n generalizing s o with
  | zero => exact ⟨o, rfl⟩
  | succ m ih =>
    unfold runLoop
    rw [show (withOut o s).mcuIdx = s.mcuIdx from rfl, show (withOut o s).mcuTotal = s.mcuTotal from rfl]
    split
    · refine andThen_withOut (decodeMcuBody_withOut align o s) (fun _ t _ => ?_)
      obtain ⟨o1, h1⟩ := reconMcuBody_withOut o t
      exact andThen_withOut h1 (fun _ u _ => ih o1 u)
    · exact ⟨o, rfl⟩

/-- RUN's body (R503). -/
theorem runBody_withOut (align : Bool) (o : List Host.Cell) (s : State) :
    ∃ p, runBody align (withOut o s) = (runBody align s).onState (withOut p) := by
  unfold runBody
  rw [show (withOut o s).scanActive = s.scanActive from rfl]
  split
  · exact ⟨o, rfl⟩
  · have hp : ∃ p, runPending (withOut o s) = (runPending s).onState (withOut p) := by
      unfold runPending
      rw [show (withOut o s).mcuPending = s.mcuPending from rfl]
      split
      · exact reconMcuBody_withOut o s
      · exact ⟨o, rfl⟩
    obtain ⟨o1, h1⟩ := hp
    exact andThen_withOut h1 (fun _ t _ => runLoop_withOut align _ o1 t)

theorem EngineInv.withOut {s : State} (h : EngineInv s) : EngineInv (withOut [] s) := by
  refine ⟨h.params, ⟨h.memories.1, rfl⟩, h.cursor, h.tables, ?_⟩
  have hs : SameConfig s (Machine.withOut [] s) := ⟨rfl, rfl, rfl, rfl, rfl, rfl, rfl, rfl, rfl, rfl⟩
  have k := h.scan
  unfold State.scanWf State.scanConfigured at *
  rw [hs.startScanError]; exact k

/-! ## Bytes that are listed stay listed, and a reconstruction lists its tile -/

/-- Every OUT byte that is listed before is listed after. -/
def KeepsListed (s t : State) : Prop :=
  ∀ a, (memRead s.out a).isSome = true → (memRead t.out a).isSome = true

theorem KeepsListed.refl (s : State) : KeepsListed s s := fun _ h => h

theorem KeepsListed.trans {s t u : State} (h : KeepsListed s t) (k : KeepsListed t u) : KeepsListed s u :=
  fun a x => k a (h a x)

theorem outWrite_listed (a : Nat) (v : Byte) (s : State) : KeepsListed s (outWrite a v s).state := by
  intro b h
  unfold outWrite
  split
  · simp only [state_done, memRead_memWrite]
    split
    · rfl
    · exact h
  · exact h

theorem writePixel_listed (a : Nat) (v : Rgb) (s : State) : KeepsListed s (writePixel a v s).state :=
  andThen_rel (R := KeepsListed) KeepsListed.trans (outWrite_listed _ _ _) (fun _ t _ =>
    andThen_rel (R := KeepsListed) KeepsListed.trans (outWrite_listed _ _ t) (fun _ u _ =>
      outWrite_listed _ _ u))

theorem writeTile_listed (s0 : State) (src : PixelSource) (m : Nat) (ps : List (Fin 64)) (s : State) :
    KeepsListed s (writeTile s0 src m ps s).state := by
  induction ps generalizing s with
  | nil => exact KeepsListed.refl s
  | cons p rest ih =>
    unfold writeTile
    split
    · exact andThen_rel (R := KeepsListed) KeepsListed.trans (writePixel_listed _ _ _) (fun _ t _ => ih t)
    · exact ih s

theorem reconMcuBody_listed (s : State) : KeepsListed s (reconMcuBody s).state := by
  rcases reconMcuBody_cases s with e | ⟨src, _, _, e | e⟩ <;> rw [e]
  · exact KeepsListed.refl s
  · exact writeTile_listed _ _ _ _ _
  · exact writeTile_listed _ _ _ _ _

theorem decodeMcuBody_listed (align : Bool) (s : State) : KeepsListed s (decodeMcuBody align s).state := by
  intro a h
  rw [(decodeMcuBody_position align s).1]; exact h

theorem runLoop_listed (align : Bool) (n : Nat) (s : State) : KeepsListed s (runLoop align n s).state := by
  induction n generalizing s with
  | zero => exact KeepsListed.refl s
  | succ m ih =>
    unfold runLoop
    split
    · exact andThen_rel (R := KeepsListed) KeepsListed.trans (decodeMcuBody_listed align s) (fun _ t _ =>
        andThen_rel (R := KeepsListed) KeepsListed.trans (reconMcuBody_listed t) (fun _ u _ => ih u))
    · exact KeepsListed.refl s

/-- A reconstruction lists every byte of its tile (R413). -/
theorem reconMcuBody_lists (s : State) (h : EngineInv s) (hp : s.mcuPending = true) (a : Nat)
    (ha : a ∈ tileBytes s s.lastMcu.toNat) : (memRead (reconMcuBody s).state.out a).isSome = true := by
  obtain ⟨src, t, _, hw, _, hr⟩ := reconMcuBody_done s h hp
  rw [hr]
  show (memRead t.out a).isSome = true
  obtain ⟨p, _, hpa⟩ := List.mem_flatMap.1 ha
  unfold pixelBytes at hpa
  split at hpa
  · rename_i hi
    have herr := startScanError_none (h.scan.1 (h.scan.2.1 hp).1).1
    have ht := writeTile_pixel s src s.lastMcu.toNat (List.finRange 64) s herr.2.2.2.2.2.2.2
      (List.nodup_finRange 64) p (List.mem_finRange p) hi
    rw [hw, state_done] at ht
    simp only [List.mem_cons, List.not_mem_nil, or_false] at hpa
    rcases hpa with rfl | rfl | rfl
    · rw [ht.1]; rfl
    · rw [ht.2.1]; rfl
    · rw [ht.2.2]; rfl
  · simp at hpa

/-- RUN's loop lists every byte of the tiles it reconstructs (R503). -/
theorem runLoop_lists (align : Bool) (n : Nat) (s : State) (h : EngineInv s) (a m : Nat)
    (h1 : s.mcuIdx.toNat ≤ m) (h2 : m < (runLoop align n s).state.mcuIdx.toNat) (ha : a ∈ tileBytes s m) :
    (memRead (runLoop align n s).state.out a).isSome = true := by
  induction n generalizing s with
  | zero => exact absurd h2 (Nat.not_lt.2 h1)
  | succ k ih =>
    unfold runLoop at h2 ⊢
    split at h2
    · rename_i hlt
      rw [if_pos hlt]
      obtain ⟨_, hpos, hdone⟩ := decodeMcuBody_position align s
      have hE := decodeMcuBody_engine align s h
      have hF := decodeMcuBody_runFrame align s
      cases e : decodeMcuBody align s with
      | stop x t =>
        rcases decodeMcuBody_cases align s with ⟨_, q⟩ | ⟨_, _, ⟨_, u, _, hs, q⟩ | ⟨u, _, _, q⟩⟩
        · rw [e] at h2 q; cases q; exact absurd h2 (Nat.not_lt.2 h1)
        · rw [e] at h2 q; cases q
          rw [andThen_stop, state_stop, hs.frame] at h2
          exact absurd h2 (Nat.not_lt.2 h1)
        · rw [e] at q; cases q
      | done x t =>
        rw [e] at h2
        rw [e, state_done] at hE hF
        obtain ⟨hl, hi⟩ := hdone t e
        have hpend : t.mcuPending = true := by
          rcases decodeMcuBody_cases align s with ⟨_, q⟩ | ⟨_, _, ⟨_, u, _, hs, q⟩ | ⟨u, _, _, q⟩⟩
          · rw [e] at q; cases q
          · rw [e] at q; cases q
          · rw [e] at q; cases q; rfl
        have hR := reconMcuBody_engine t hE
        have hRF := reconMcuBody_runFrame t
        have hRL := reconMcuBody_lists t hE hpend a
        obtain ⟨src, v, _, _, ho, hr⟩ := reconMcuBody_done t hE hpend
        rw [hr] at hR hRF hRL
        simp only [andThen_done, hr, state_done] at h2 hR hRF hRL ⊢
        have hvi : (finishRecon v).mcuIdx.toNat = s.mcuIdx.toNat + 1 := by
          rw [← hi]; unfold OutOnly at ho; rw [ho]; rfl
        by_cases hm : m = s.mcuIdx.toNat
        · refine runLoop_listed align k _ a (hRL ?_)
          rw [hl, ← hm, hF.tile]; exact ha
        · exact ih _ hR (by omega) h2 (by rw [(hF.trans hRF).tile]; exact ha)
    · exact absurd h2 (Nat.not_lt.2 h1)

/-- RUN lists every byte of the tile of the pending MCU and of the MCUs it decodes (R503, R705). -/
theorem runBody_lists (align : Bool) (s : State) (h : EngineInv s) (a : Nat)
    (ha : (s.mcuPending = true ∧ a ∈ tileBytes s s.lastMcu.toNat) ∨
      ∃ m, s.mcuIdx.toNat ≤ m ∧ m < (runBody align s).state.mcuIdx.toNat ∧ a ∈ tileBytes s m) :
    (memRead (runBody align s).state.out a).isSome = true := by
  unfold runBody at ha ⊢
  split
  · rename_i hs
    rw [if_pos hs] at ha
    rcases ha with ⟨hp, _⟩ | ⟨m, h1, h2, _⟩
    · rw [(h.scan.2.1 hp).1] at hs; cases hs
    · exact absurd h2 (Nat.not_lt.2 h1)
  · rename_i hs
    rw [if_neg hs] at ha
    cases hp : s.mcuPending with
    | false =>
      have e : runPending s = .done () s := by unfold runPending; rw [hp]; rfl
      rw [e, andThen_done] at ha ⊢
      rcases ha with ⟨q, _⟩ | ⟨m, h1, h2, hm⟩
      · rw [hp] at q; cases q
      · exact runLoop_lists align _ s h a m h1 h2 hm
    | true =>
      have e : runPending s = reconMcuBody s := by unfold runPending; rw [hp]; rfl
      have hR := reconMcuBody_engine s h
      have hRF := reconMcuBody_runFrame s
      have hRL := reconMcuBody_lists s h hp a
      obtain ⟨src, v, _, _, ho, hr⟩ := reconMcuBody_done s h hp
      rw [e, hr, andThen_done] at ha ⊢
      rw [hr, state_done] at hR hRF hRL
      rcases ha with ⟨_, q⟩ | ⟨m, h1, h2, hm⟩
      · exact runLoop_listed align _ _ a (hRL q)
      · refine runLoop_lists align _ _ hR a m ?_ h2 (by rw [hRF.tile]; exact hm)
        unfold OutOnly at ho; rw [ho]; exact h1

/-! ## The aborted bytes (R705) -/

/-- The bytes a RUN could write are the listed bytes of the tiles it would have reconstructed. -/
theorem mem_writtenBytes_run (align : Bool) (s : State) (a : Nat) (h : a ∈ writtenBytes (runBody align) s) :
    (s.mcuPending = true ∧ a ∈ tileBytes s s.lastMcu.toNat) ∨
    ∃ m, s.mcuIdx.toNat ≤ m ∧ m < (runBody align s).state.mcuIdx.toNat ∧ a ∈ tileBytes s m := by
  by_contra hc
  simp only [not_or, not_and, not_exists] at hc
  obtain ⟨p, hp⟩ := runBody_withOut align [] s
  have hi : (runBody align (withOut [] s)).state.mcuIdx = (runBody align s).state.mcuIdx := by
    rw [hp]; cases runBody align s <;> rfl
  unfold writtenBytes at h
  rw [← memRead_isSome_iff] at h
  have := runBody_other align (withOut [] s) a hc.1 (fun m h1 h2 => hc.2 m h1 (by rw [← hi]; exact h2))
  rw [show ({ s with out := [] } : State) = withOut [] s from rfl, this] at h
  simp [withOut, memRead] at h

theorem writtenBytes_run_mem (align : Bool) (s : State) (hE : EngineInv s) (a : Nat)
    (h : (s.mcuPending = true ∧ a ∈ tileBytes s s.lastMcu.toNat) ∨
      ∃ m, s.mcuIdx.toNat ≤ m ∧ m < (runBody align s).state.mcuIdx.toNat ∧ a ∈ tileBytes s m) :
    a ∈ writtenBytes (runBody align) s := by
  obtain ⟨p, hp⟩ := runBody_withOut align [] s
  have hi : (runBody align (withOut [] s)).state.mcuIdx = (runBody align s).state.mcuIdx := by
    rw [hp]; cases runBody align s <;> rfl
  unfold writtenBytes
  rw [← memRead_isSome_iff]
  exact runBody_lists align (withOut [] s) hE.withOut a (by rw [hi]; exact h)

/-- The bytes a RECON_MCU could write are in its tile. -/
theorem mem_writtenBytes_recon (s : State) (a : Nat) (h : a ∈ writtenBytes reconMcuBody s) :
    s.mcuPending = true ∧ a ∈ tileBytes s s.lastMcu.toNat := by
  unfold writtenBytes at h
  rw [← memRead_isSome_iff] at h
  refine ⟨?_, ?_⟩
  · by_contra hp
    have e : reconMcuBody { s with out := [] } = .stop (.error .sequence 0) { s with out := [] } := by
      unfold reconMcuBody; rw [if_pos (by simpa using hp)]
    rw [e] at h
    simp [memRead] at h
  · by_contra hc
    rw [reconMcuBody_other { s with out := [] } a hc] at h
    simp [memRead] at h

theorem writtenBytes_recon_mem (s : State) (hE : EngineInv s) (hp : s.mcuPending = true) (a : Nat)
    (h : a ∈ tileBytes s s.lastMcu.toNat) : a ∈ writtenBytes reconMcuBody s := by
  unfold writtenBytes
  rw [← memRead_isSome_iff]
  exact reconMcuBody_lists (withOut [] s) hE.withOut hp a h

end Sys2Proof.Machine
end

