-- ==== Sys2Proof/Laws/Bus.lean ====
section
/-! SUPPORT. What a host write of a word can do, and which addresses STATUS and CMD have. -/

namespace Sys2Proof.Machine

/-- A data write is ignored, sets HOST_VIOL, or is applied: to OUT on an idle core, to anything else on one
that is neither frozen nor in a scan (R106 point 5). -/
theorem dataWrite_cases (t : Target) (v : Word) (s : State) :
    dataWrite t v s = s ∨ dataWrite t v s = hostViolation s ∨
    (s.busy = false ∧ ((s.err = false ∧ s.scanActive = false) ∨ ∃ w, t = .outWord w) ∧
      dataWrite t v s = applyData t v s) := by
  unfold dataWrite
  split
  · exact .inr (.inl rfl)
  · rename_i hb
    split
    · exact .inr (.inr ⟨by simpa using hb, .inr ⟨_, rfl⟩, rfl⟩)
    · split
      · exact .inl rfl
      · split
        · exact .inr (.inl rfl)
        · rename_i h1 h2
          exact .inr (.inr ⟨by simpa using hb, .inl ⟨by simpa using h1, by simpa using h2⟩, rfl⟩)

/-- Everything a host write of a word can do (R106). -/
def WriteCases (t : Target) (v : Word) (s u : State) : Prop :=
  u = s ∨ (t = .ctrl ∧ u = { s with ctrl := ctrlOfWord v }) ∨ (t = .status ∧ u = writeStatus v s) ∨
  (t = .cmd ∧ u = acceptCommand v s) ∨ u = hostViolation s ∨
  (s.busy = false ∧ ((s.err = false ∧ s.scanActive = false) ∨ ∃ w, t = .outWord w) ∧ u = applyData t v s)

theorem writeCases_dataWrite (t : Target) (v : Word) (s : State) : WriteCases t v s (dataWrite t v s) := by
  rcases dataWrite_cases t v s with h | h | h
  · exact .inl h
  · exact .inr (.inr (.inr (.inr (.inl h))))
  · exact .inr (.inr (.inr (.inr (.inr h))))

theorem writeTarget_cases (t : Target) (v : Word) (s : State) : WriteCases t v s (writeTarget t v s) := by
  cases t <;> first
    | exact writeCases_dataWrite _ v s
    | exact .inl rfl
    | exact .inr (.inl ⟨rfl, rfl⟩)
    | exact .inr (.inr (.inl ⟨rfl, rfl⟩))
    | exact .inr (.inr (.inr (.inl ⟨rfl, rfl⟩)))

/-- A command word other than RESET is dropped with HOST_VIOL, or latched on an idle core (R504). -/
theorem acceptCommand_cases (w : Word) (s : State) (h : w ≠ 0x00000001#32) :
    acceptCommand w s = hostViolation s ∨
    (s.busy = false ∧ ∃ d l,
      acceptCommand w s = { s with latch := some l, done := false, delays := d }) := by
  unfold acceptCommand
  rw [if_neg h]
  split
  · exact .inl rfl
  · rename_i hb
    refine .inr ⟨by simpa using hb, ?_⟩
    split <;> exact ⟨_, _, rfl⟩

/-- The only aligned address of CMD is 0x00C, and that of STATUS 0x008 (R102). -/
theorem decodeAddr_low {p : Params} {a : Nat} (ha : a % 4 = 0) :
    (decodeAddr p a = .cmd → a = 0x00C) ∧ (decodeAddr p a = .status → a = 0x008) := by
  have h1 : ∀ n : Fin 26, registerAt n.val = .cmd → n.val = 3 := by decide
  have h2 : ∀ n : Fin 26, registerAt n.val = .status → n.val = 2 := by decide
  unfold decodeAddr
  by_cases hl : a < 0x68
  · rw [if_pos hl]
    refine ⟨fun h => ?_, fun h => ?_⟩
    · have := h1 ⟨a / 4, by omega⟩ h; simp at this; omega
    · have := h2 ⟨a / 4, by omega⟩ h; simp at this; omega
  · rw [if_neg hl]
    unfold htWordAt
    refine ⟨fun h => ?_, fun h => ?_⟩ <;> (repeat' (split at h)) <;> cases h

end Sys2Proof.Machine
end

