-- ==== Sys2Proof/Laws/Payload.lean ====
section
/-! SUPPORT. What the bit reader and the Huffman decoder answer, in terms of the payload as one sequence of
bits: the field read, the cursor after it, and where BS_EXHAUSTED stops them. -/

namespace Sys2Proof.Machine

/-! ## The payload -/

theorem payloadField_congr {s t : State} (h : t.bs = s.bs) (start n : Nat) :
    payloadField t start n = payloadField s start n := by
  induction n with
  | zero => rfl
  | succ m ih => simp only [payloadField, payloadBit, State.bsByte, ih, h]

/-- The first bit of a field is its most significant one (R302). -/
theorem payloadField_front (s : State) (start m : Nat) :
    payloadField s start (m + 1) =
      (payloadBit s start).toNat * 2 ^ m + payloadField s (start + 1) m := by
  induction m with
  | zero => simp [payloadField]
  | succ k ih =>
    rw [payloadField, ih, payloadField, Nat.pow_succ, show start + (k + 1) = start + 1 + k by omega]
    ring

theorem payloadField_lt (s : State) (start n : Nat) : payloadField s start n < 2 ^ n := by
  induction n with
  | zero => simp [payloadField]
  | succ m ih =>
    have := Bool.toNat_lt (payloadBit s (start + m))
    rw [payloadField, Nat.pow_succ]
    omega

/-- A shorter field at the same start is the longer one without its last bits. -/
theorem payloadField_prefix (s : State) (start n d : Nat) :
    payloadField s start (n + d) / 2 ^ d = payloadField s start n := by
  induction d with
  | zero => simp
  | succ e ih =>
    have := Bool.toNat_lt (payloadBit s (start + (n + e)))
    rw [← Nat.add_assoc, payloadField, Nat.pow_succ, Nat.mul_comm (2 ^ e) 2, ← Nat.div_div_eq_div_mul,
      ← ih]
    congr 1
    omega

/-! ## ReadBits -/

theorem CursorStep.bs {s t : State} (h : CursorStep s t) : t.bs = s.bs := by rw [h.frame]

theorem CursorStep.bsLen {s t : State} (h : CursorStep s t) : t.bsLen = s.bsLen := by rw [h.frame]

theorem cursor_lt_iff (s : State) (n : Nat) : s.cursor < 8 * n ↔ s.byteIdx < n := by
  have := s.bitOff.isLt; unfold State.cursor; omega

/-- ReadBit inside the payload (R300). -/
theorem readBit_inside (comp : BitVec 2) (s : State) (hb : BsFits s)
    (h : s.cursor < 8 * s.bsLen.toNat) :
    readBit comp s = .done (payloadBit s s.cursor) (advanceBit s) ∧ CursorStep s (advanceBit s) := by
  rw [cursor_lt_iff] at h
  unfold BsFits at hb
  rcases readBit_cases comp s with ⟨k, _⟩ | ⟨_, k, e⟩ | ⟨_, k, _⟩
  · omega
  · exact ⟨e, advanceBit_step s k⟩
  · omega

/-- ReadBit at the end of the payload (R301). -/
theorem readBit_end (comp : BitVec 2) (s : State) (h : 8 * s.bsLen.toNat ≤ s.cursor) :
    readBit comp s = .stop (.error .bsExhausted comp) s := by
  have k : ¬ s.byteIdx < s.bsLen.toNat := by rw [← cursor_lt_iff]; omega
  unfold readBit
  rw [if_pos (by omega)]

/-- ReadBits inside the payload: the next n bits, and the cursor past them (R302). -/
theorem readBitsFrom_inside (comp : BitVec 2) (n v : Nat) (s : State) (hb : BsFits s)
    (h : s.cursor + n ≤ 8 * s.bsLen.toNat) :
    ∃ t, readBitsFrom comp n v s = .done (v * 2 ^ n + payloadField s s.cursor n) t ∧
      t.cursor = s.cursor + n ∧ CursorStep s t := by
  induction n generalizing v s with
  | zero => exact ⟨s, by simp [readBitsFrom, payloadField], rfl, CursorStep.refl s⟩
  | succ m ih =>
    obtain ⟨e, hs⟩ := readBit_inside comp s hb (by omega)
    obtain ⟨t, et, ct, st⟩ := ih (2 * v + (payloadBit s s.cursor).toNat) (advanceBit s) (hs.bsFits hb)
      (by rw [advanceBit_cursor, hs.bsLen]; omega)
    refine ⟨t, ?_, by rw [ct, advanceBit_cursor]; omega, hs.trans st⟩
    rw [readBitsFrom, e, andThen_done, et, payloadField_congr hs.bs, advanceBit_cursor,
      payloadField_front s s.cursor m, Nat.pow_succ]
    congr 1
    ring

/-- ReadBits past the end of the payload: BS_EXHAUSTED with every bit consumed (R301). -/
theorem readBitsFrom_end (comp : BitVec 2) (n v : Nat) (s : State) (hb : BsFits s) (hn : 0 < n)
    (h : 8 * s.bsLen.toNat < s.cursor + n) :
    ∃ t, readBitsFrom comp n v s = .stop (.error .bsExhausted comp) t ∧
      t.cursor = max s.cursor (8 * s.bsLen.toNat) ∧ CursorStep s t := by
  induction n generalizing v s with
  | zero => omega
  | succ m ih =>
    by_cases hc : 8 * s.bsLen.toNat ≤ s.cursor
    · exact ⟨s, by rw [readBitsFrom, readBit_end comp s hc, andThen_stop], by omega, CursorStep.refl s⟩
    · obtain ⟨e, hs⟩ := readBit_inside comp s hb (by omega)
      obtain ⟨t, et, ct, st⟩ := ih (2 * v + (payloadBit s s.cursor).toNat) (advanceBit s)
        (hs.bsFits hb) (by omega) (by rw [advanceBit_cursor, hs.bsLen]; omega)
      refine ⟨t, by rw [readBitsFrom, e, andThen_done, et], ?_, hs.trans st⟩
      rw [ct, advanceBit_cursor, hs.bsLen]
      omega

/-! ## HuffDecode -/

/-- A search in which no slot's code matches finds nothing (R307). -/
theorem searchSlots_none (h : HuffTable) (code i n : Nat) (hn : i + n ≤ 162)
    (hno : ∀ j : Fin 162, i ≤ j.val → j.val < i + n → h.code[j].toNat ≠ code) :
    searchSlots h code i n = .ok none := by
  induction n generalizing i with
  | zero => rfl
  | succ m ih =>
    have hi : i < 162 := by omega
    have h0 : h.code[i].toNat ≠ code := hno ⟨i, hi⟩ (Nat.le_refl _) (by simp)
    unfold searchSlots
    simp only [Vector.getElem?_eq_getElem hi, if_neg h0]
    exact ih (i + 1) (by omega) (fun j h1 h2 => hno j (by omega) (by omega))

/-- A search whose first match is slot `k` finds its symbol (R307). -/
theorem searchSlots_some (h : HuffTable) (code i n : Nat) (hn : i + n ≤ 162) (k : Fin 162)
    (h1 : i ≤ k.val) (h2 : k.val < i + n) (hk : h.code[k].toNat = code)
    (hno : ∀ j : Fin 162, i ≤ j.val → j.val < k.val → h.code[j].toNat ≠ code) :
    searchSlots h code i n = .ok (some h.symbol[k]) := by
  induction n generalizing i with
  | zero => omega
  | succ m ih =>
    have hi : i < 162 := by omega
    unfold searchSlots
    simp only [Vector.getElem?_eq_getElem hi]
    by_cases he : i = k.val
    · have hk' : h.code[i].toNat = code := by
        have e : (⟨i, hi⟩ : Fin 162) = k := Fin.ext he
        rw [← e] at hk; exact hk
      rw [if_pos hk']
      have e : (⟨i, hi⟩ : Fin 162) = k := Fin.ext he
      rw [← e]; rfl
    · have h0 : h.code[i].toNat ≠ code := hno ⟨i, hi⟩ (Nat.le_refl _) (by simp; omega)
      rw [if_neg h0]
      exact ih (i + 1) (by omega) (by omega) (by omega) hk (fun j a b => hno j (by omega) b)

/-- No slot of a class has the code: the class gives nothing (R307). -/
theorem searchClass_none (h : HuffTable) (hf : OffsetsFit h) (code : Nat) (l : Fin 16)
    (hno : ∀ i, InSlots h i l → h.code[i].toNat ≠ code) : searchClass h code l = .ok none := by
  have h2 := hf l.succ
  have h1 := hf l.castSucc
  refine searchSlots_none h code _ _ (by omega) (fun j a b => hno j ⟨a, by omega⟩)

/-- In a built table the class of the slot with the code gives its symbol (R307). -/
theorem searchClass_some {h : HuffTable} (hb : Built h) (l : Fin 16) (i : Fin 162)
    (hi : InSlots h i l) : searchClass h h.code[i].toNat l = .ok (some h.symbol[i]) := by
  have h1 := hi.low
  have h2 := hi.high
  have hf := hb.wf.1 l.succ
  refine searchSlots_some h _ _ _ (by omega) i h1 (by omega) rfl (fun j a b e => ?_)
  have := hb.code_injective (l := l) ⟨a, by omega⟩ hi e
  omega

/-- The walk over classes in which no code matches: one more bit for each (R307). -/
theorem huffWalk_skip (h : HuffTable) (comp : BitVec 2) (hf : OffsetsFit h) (s0 : State) (c0 : Nat)
    (d j : Nat) (s : State) (hd : j + d ≤ 16) (hb : BsFits s) (hbs : s.bs = s0.bs)
    (hc : s.cursor = c0 + j) (hin : c0 + j + d ≤ 8 * s.bsLen.toNat)
    (hno : ∀ (l : Fin 16), j ≤ l.val → l.val < j + d → ∀ i, InSlots h i l →
      h.code[i].toNat ≠ payloadField s0 c0 (l.val + 1)) :
    ∃ t, huffWalk h comp (16 - j) (payloadField s0 c0 j) s =
        huffWalk h comp (16 - (j + d)) (payloadField s0 c0 (j + d)) t ∧
      t.cursor = c0 + (j + d) ∧ CursorStep s t := by
  induction d generalizing j s with
  | zero => exact ⟨s, rfl, hc, CursorStep.refl s⟩
  | succ e ih =>
    obtain ⟨er, hs⟩ := readBit_inside comp s hb (by omega)
    have hbit : payloadBit s s.cursor = payloadBit s0 (c0 + j) := by
      simp only [payloadBit, State.bsByte, hbs, hc]
    obtain ⟨t, et, ct, st⟩ := ih (j + 1) (advanceBit s) (by omega) (hs.bsFits hb)
      (hs.bs.trans hbs) (by rw [advanceBit_cursor]; omega) (by rw [hs.bsLen]; omega)
      (fun l a b => hno l (by omega) (by omega))
    refine ⟨t, ?_, by omega, hs.trans st⟩
    rw [show j + (e + 1) = j + 1 + e by omega, ← et, show 16 - j = (16 - (j + 1)) + 1 by omega,
      huffWalk, er, andThen_done, hbit]
    have hl : Fin.ofNat 16 (15 - (16 - (j + 1))) = (⟨j, by omega⟩ : Fin 16) := by
      apply Fin.ext; simp [Fin.ofNat]; omega
    rw [hl, searchClass_none h hf _ _ (fun i hi => hno ⟨j, by omega⟩ (Nat.le_refl _) (by simp) i hi)]
    rfl

/-- With a set table, if the next bits are the code of a slot, HuffDecode gives its symbol and consumes
exactly these bits (R307). -/
theorem huffDecode_slot {h : HuffTable} (hb : Built h) (comp : BitVec 2) (s : State) (i : Fin 162)
    (l : Fin 16) (hf : BsFits s) (hi : InSlots h i l)
    (hc : payloadField s s.cursor (l.val + 1) = h.code[i].toNat)
    (hin : s.cursor + (l.val + 1) ≤ 8 * s.bsLen.toNat) :
    ∃ t, huffDecode h comp s = .done h.symbol[i] t ∧ t.cursor = s.cursor + (l.val + 1) ∧
      CursorStep s t := by
  obtain ⟨t, et, ct, st⟩ := huffWalk_skip h comp hb.wf.1 s s.cursor l.val 0 s (by omega) hf rfl rfl
    (by omega) (fun m _ hm k hk e => by
      have hlt : m.val < l.val := by omega
      have := hb.prefix_above (show m < l from hlt) hk hi
      rw [← hc, e, show l.val + 1 = m.val + 1 + (l.val - m.val) by omega, payloadField_prefix] at this
      omega)
  rw [Nat.zero_add] at et ct
  obtain ⟨er, hs⟩ := readBit_inside comp t (st.bsFits hf) (by rw [st.bsLen]; omega)
  refine ⟨advanceBit t, ?_, by rw [advanceBit_cursor]; omega, st.trans hs⟩
  show huffWalk h comp (16 - 0) (payloadField s s.cursor 0) s = _
  rw [et, show 16 - l.val = (15 - l.val) + 1 by omega, huffWalk, er, andThen_done]
  have hbit : payloadBit t t.cursor = payloadBit s (s.cursor + l.val) := by
    simp only [payloadBit, State.bsByte, st.bs, ct]
  have hl : Fin.ofNat 16 (15 - (15 - l.val)) = l := by
    apply Fin.ext; simp [Fin.ofNat]; omega
  have hcode : 2 * payloadField s s.cursor l.val + (payloadBit t t.cursor).toNat = h.code[i].toNat := by
    rw [hbit, ← hc]; rfl
  rw [hl, hcode, searchClass_some hb l i hi]

/-- If no code matches, HuffDecode consumes 16 bits and raises HUFF_NO_MATCH (R307). -/
theorem huffDecode_noMatch (h : HuffTable) (comp : BitVec 2) (s : State) (hf : OffsetsFit h)
    (hb : BsFits s)
    (hno : ∀ (i : Fin 162) (l : Fin 16), InSlots h i l →
      h.code[i].toNat ≠ payloadField s s.cursor (l.val + 1))
    (hin : s.cursor + 16 ≤ 8 * s.bsLen.toNat) :
    ∃ t, huffDecode h comp s = .stop (.error .huffNoMatch comp) t ∧ t.cursor = s.cursor + 16 ∧
      CursorStep s t := by
  obtain ⟨t, et, ct, st⟩ := huffWalk_skip h comp hf s s.cursor 16 0 s (by omega) hb rfl rfl
    (by omega) (fun l _ _ i hi => hno i l hi)
  exact ⟨t, et, by omega, st⟩

/-- If no code of the bits that are left matches and they are fewer than 16, HuffDecode raises BS_EXHAUSTED
(R301, R602). -/
theorem huffDecode_end (h : HuffTable) (comp : BitVec 2) (s : State) (hf : OffsetsFit h)
    (hb : BsFits s)
    (hno : ∀ (i : Fin 162) (l : Fin 16), s.cursor + (l.val + 1) ≤ 8 * s.bsLen.toNat → InSlots h i l →
      h.code[i].toNat ≠ payloadField s s.cursor (l.val + 1))
    (hin : 8 * s.bsLen.toNat < s.cursor + 16) :
    ∃ t, huffDecode h comp s = .stop (.error .bsExhausted comp) t ∧
      t.cursor = max s.cursor (8 * s.bsLen.toNat) ∧ CursorStep s t := by
  by_cases hc : 8 * s.bsLen.toNat ≤ s.cursor
  · refine ⟨s, ?_, by omega, CursorStep.refl s⟩
    rw [huffDecode, huffWalk, readBit_end comp s hc, andThen_stop]
  · obtain ⟨t, et, ct, st⟩ := huffWalk_skip h comp hf s s.cursor (8 * s.bsLen.toNat - s.cursor) 0 s
      (by omega) hb rfl rfl (by omega) (fun l _ hl i hi => hno i l (by omega) hi)
    refine ⟨t, ?_, by omega, st⟩
    show huffWalk h comp (16 - 0) (payloadField s s.cursor 0) s = _
    rw [et, show 16 - (0 + (8 * s.bsLen.toNat - s.cursor)) =
      (15 - (8 * s.bsLen.toNat - s.cursor)) + 1 by omega, huffWalk,
      readBit_end comp t (by rw [st.bsLen]; omega), andThen_stop]

end Sys2Proof.Machine
end

