-- ==== Sys2Proof/Laws/PerInstr.lean ====
section
/-! SUPPORT. Statements about every instruction as syntax, one lemma per constructor. -/

namespace Sys2Proof.Laws.EncodedWord

/-- The encoding of an instruction is a legal word (R141, R144), and it is what its assembly text
assembles to (R145). -/
def Statement (i : Instr) : Prop :=
  (encode i).legal = true ∧ (encode i).op.toNat < 8 ∧ assemble (assembly i) = some (encode i)

theorem nop : Statement .nop := by unfold Statement; decide

theorem reset : Statement .reset := by unfold Statement; decide

theorem setQt (t : TableId) : Statement (.setQt t) := by
  unfold Statement; revert t; decide

theorem buildHt (c : HuffClass) (t : TableId) : Statement (.buildHt c t) := by
  unfold Statement; revert t; cases c <;> decide

theorem startScan : Statement .startScan := by unfold Statement; decide

theorem decodeMcu : Statement .decodeMcu := by unfold Statement; decide

theorem reconMcu : Statement .reconMcu := by unfold Statement; decide

theorem run : Statement .run := by unfold Statement; decide

end Sys2Proof.Laws.EncodedWord
end

