-- ==== Sys2Proof/Laws/Step.lean ====
section
/-! SUPPORT. What one step can be: the completion of a latched command, or the host's turn; and what a
turn of the host can be. -/

namespace Sys2Proof.Machine

/-- A step that answers a next state is a completion or a turn of the host (R504, R720). -/
theorem step_next {s t : State} (h : step s = .next t) :
    (∃ l, s.latch = some l ∧ l.delay = 0 ∧ runWord l.word s = .next t) ∨
    ((∀ l, s.latch = some l → l.delay ≠ 0) ∧ t = hostTurn (passTurn s)) := by
  unfold step at h
  cases e : s.latch with
  | none => rw [e] at h; cases h; exact .inr ⟨fun _ z => (by cases z), by simp [passTurn, e]⟩
  | some l =>
    rw [e] at h
    dsimp only at h
    split at h
    · exact .inl ⟨l, rfl, by assumption, h⟩
    · cases h; exact .inr ⟨fun _ z => (by cases z; assumption), by simp [passTurn, e]⟩

/-- The completion of a word is that of the instruction it decodes to, or of an illegal word (R502). -/
theorem runWord_next {w : Word} {s t : State} (h : runWord w s = .next t) :
    (∃ i, decode w = .ok i ∧ exec i s = .next t) ∨ execIllegal s = .next t := by
  unfold runWord at h
  split at h
  · exact .inl ⟨_, by assumption, h⟩
  · exact .inr h

/-- The state before a turn of the host differs in the delay only. -/
theorem passTurn_frame (s : State) : passTurn s = { s with latch := (passTurn s).latch } := by
  unfold passTurn; split <;> rfl

theorem passTurn_busy (s : State) : (passTurn s).busy = s.busy := by
  unfold passTurn State.busy; split <;> simp [*]

/-- A turn of the host is an aligned write or read of a word, a change of the reset input, or leaves the
core as it is; whatever is done to the host's own fields (R100, R146, R701). -/
theorem hostTurn_cases (s : State) :
    ∃ u, hostTurn s = { u with program := (hostTurn s).program, responses := (hostTurn s).responses,
                               bindings := (hostTurn s).bindings } ∧
      (u = s ∨
      (∃ a v rest, s.resetIn = false ∧ a % 4 = 0 ∧
        (s.program = .wr a v :: rest ∨ s.program = .writeAccess a 4 v :: rest) ∧
        u = writeTarget (decodeAddr s.params a) v { s with program := rest }) ∨
      (u = { s with draws := s.draws + 1 }) ∨
      (∃ b rest, s.program = .resetPin b :: rest ∧ u = setResetPin b { s with program := rest })) := by
  have hw : ∀ (a n : Nat) (v : Word) (q : State),
      (busWrite a n v q).2 = q ∨ (q.resetIn = false ∧ n = 4 ∧ a % 4 = 0 ∧
        (busWrite a n v q).2 = writeTarget (decodeAddr q.params a) v q) := by
    intro a n v q
    unfold busWrite
    split
    · exact .inl rfl
    · rename_i hc
      simp only [supported, Bool.or_eq_true, Bool.not_eq_true', not_or, Bool.not_eq_true, Bool.not_eq_false,
        Bool.and_eq_true, beq_iff_eq] at hc
      exact .inr ⟨hc.1, hc.2.1, hc.2.2, rfl⟩
  have hr : ∀ (a n : Nat) (q : State), (busRead a n q).2 = q ∨ (busRead a n q).2 = { q with draws := q.draws + 1 } := by
    intro a n q
    unfold busRead readTarget
    split
    · exact .inl rfl
    · dsimp only
      split
      · exact .inl rfl
      · exact .inr rfl
  cases hp : s.program with
  | nil => exact ⟨s, by rw [show hostTurn s = s by simp [hostTurn, hp]], .inl rfl⟩
  | cons st rest =>
    cases st with
    | wr a v =>
      rcases hw a 4 v { s with program := rest } with e | ⟨h1, _, h3, e⟩
      · exact ⟨s, by simp [hostTurn, hp, hostWrite, recordResponse, e], .inl rfl⟩
      · exact ⟨_, by simp [hostTurn, hp, hostWrite, recordResponse, e], .inr (.inl ⟨a, v, rest, h1, h3, .inl rfl, rfl⟩)⟩
    | writeAccess a n v =>
      rcases hw a n v { s with program := rest } with e | ⟨h1, h2, h3, e⟩
      · exact ⟨s, by simp [hostTurn, hp, hostWrite, recordResponse, e], .inl rfl⟩
      · exact ⟨_, by simp [hostTurn, hp, hostWrite, recordResponse, e],
          .inr (.inl ⟨a, v, rest, h1, h3, .inr (by rw [h2]), rfl⟩)⟩
    | rd a name =>
      have hb : ∀ r q, bindResult name r q = { q with bindings := (bindResult name r q).bindings } := by
        intro r q; cases r <;> rfl
      rcases hr a 4 { s with program := rest } with e | e
      · exact ⟨s, by simp only [hostTurn, hp]; rw [hb]; simp [hostRead, recordResponse, e], .inl rfl⟩
      · exact ⟨_, by simp only [hostTurn, hp]; rw [hb]; simp [hostRead, recordResponse, e], .inr (.inr (.inl rfl))⟩
    | readAccess a n =>
      rcases hr a n { s with program := rest } with e | e
      · exact ⟨s, by simp [hostTurn, hp, hostRead, recordResponse, e], .inl rfl⟩
      · exact ⟨_, by simp [hostTurn, hp, hostRead, recordResponse, e], .inr (.inr (.inl rfl))⟩
    | wait =>
      refine ⟨s, ?_, .inl rfl⟩
      simp only [hostTurn, hp, waitTurn, recordResponse]
      split
      · rfl
      · split <;> rfl
    | resetPin b => exact ⟨_, by simp [hostTurn, hp], .inr (.inr (.inr ⟨b, rest, rfl, rfl⟩))⟩

end Sys2Proof.Machine
end

