-- ==== Sys2Proof/Tests/Slice0.lean ====
section
/-! SUPPORT. Tests of the model against spec/95_test_vectors.md and the encodings of spec/30_encoding.md,
one step each, and for every obligation with hypotheses a state and operands that meet them. -/

namespace Sys2Proof.Tests

set_option Elab.async false

open Sys2Proof Sys2Proof.Machine Sys2Proof.Claims

/-! ## Small states -/

/-- The outcome is a next state of which `p` holds. -/
def onNext (o : Host.Outcome State Fault Refusal) (p : State → Bool) : Bool :=
  match o with
  | .next t => p t
  | .fault _ => false
  | .refused _ => false

theorem onNext_elim {o : Host.Outcome State Fault Refusal} {p : State → Bool} (h : onNext o p = true) :
    ∃ t, o = .next t ∧ p t = true := by
  cases o with
  | next t => exact ⟨t, rfl, h⟩
  | fault f => simp [onNext] at h
  | refused r => simp [onNext] at h

/-- The sub-step succeeds with a value and a state of which `p` holds. -/
def onDone {α : Type} (r : Res α) (p : α → State → Bool) : Bool :=
  match r with
  | .done a t => p a t
  | .stop _ _ => false

theorem onDone_elim {α : Type} {r : Res α} {p : α → State → Bool} (h : onDone r p = true) :
    ∃ a t, r = .done a t ∧ p a t = true := by
  cases r with
  | done a t => exact ⟨a, t, rfl, h⟩
  | stop e t => simp [onDone] at h

/-- The sub-step stops with an error and leaves a state of which `p` holds. -/
def onStop {α : Type} (r : Res α) (p : Stop → State → Bool) : Bool :=
  match r with
  | .done _ _ => false
  | .stop e t => p e t

theorem onStop_elim {α : Type} {r : Res α} {p : Stop → State → Bool} (h : onStop r p = true) :
    ∃ e t, r = .stop e t ∧ p e t = true := by
  cases r with
  | done a t => simp [onStop] at h
  | stop e t => exact ⟨e, t, rfl, h⟩

/-- Bytes at consecutive indexes from `a`. -/
def bytesFrom (a : Nat) (bytes : List Byte) : List Host.Cell :=
  match bytes with
  | [] => []
  | b :: rest => (a, b) :: bytesFrom (a + 1) rest

/-- A vector that begins with the listed values and goes on with `d`. -/
def padded {α : Type} (l : List α) (n : Nat) (d : α) (h : l.length ≤ n) : Vector α n :=
  ⟨(l ++ List.replicate (n - l.length) d).toArray, by simp; omega⟩

/-- The DC table of V2, each symbol its own slot: category n has the code of n ones and a zero. -/
def dcTable : HuffTable :=
  { count := Vector.replicate 16 1
    symbol := padded [0, 1, 2, 3, 4, 5, 6, 7, 8, 9, 10, 11, 12, 13, 14, 15] 162 0 (by decide)
    offset := padded [0, 1, 2, 3, 4, 5, 6, 7, 8, 9, 10, 11, 12, 13, 14, 15, 16] 17 0 (by decide)
    code := padded [0, 2, 6, 14, 30, 62, 126, 254, 510, 1022, 2046, 4094, 8190, 16382, 32766, 65534] 162 0
      (by decide)
    set := true }

/-- AC table A of section 6: only the end of block, with the code 0. -/
def acA : HuffTable :=
  { count := padded [1] 16 0 (by decide)
    symbol := Vector.replicate 162 0
    offset := padded [0] 17 1 (by decide)
    code := Vector.replicate 162 0
    set := true }

/-- AC table B of section 6. -/
def acB : HuffTable :=
  { count := padded [1, 1, 1, 1, 1] 16 0 (by decide)
    symbol := padded [0x00, 0x01, 0xF0, 0x12, 0x05] 162 0 (by decide)
    offset := padded [0, 1, 2, 3, 4] 17 5 (by decide)
    code := padded [0, 2, 6, 14, 30] 162 0 (by decide)
    set := true }

/-- A table with only COUNT and SYMBOL written. -/
def rawTable (counts symbols : List Byte) (hc : counts.length ≤ 16) (hs : symbols.length ≤ 162) :
    HuffTable :=
  { HuffTable.reset with count := padded counts 16 0 hc, symbol := padded symbols 162 0 hs }

theorem tableWf_of (h : HuffTable) (hn : symbolCount h ≤ 162)
    (ho : ∀ l : Fin 17, h.offset[l] = BitVec.ofNat 8 ((offsetsFrom 0 (countList h)).getD l.val 0))
    (hc : ∀ i : Fin 162, h.code[i] = BitVec.ofNat 24 ((codesFrom 0 (countList h)).getD i.val 0)) :
    tableWf h := by
  have e1 : h.offset = (buildTable h).offset := by
    refine Vector.ext fun i hi => ?_; simpa [buildTable] using ho ⟨i, hi⟩
  have e2 : h.code = (buildTable h).code := by
    refine Vector.ext fun i hi => ?_; simpa [buildTable] using hc ⟨i, hi⟩
  exact (built_of_build hn rfl e1 e2).wf

theorem dcTable_wf : tableWf dcTable :=
  tableWf_of _ (by decide +kernel) (by decide +kernel) (by decide +kernel)

theorem acA_wf : tableWf acA := tableWf_of _ (by decide +kernel) (by decide +kernel) (by decide +kernel)

theorem acB_wf : tableWf acB := tableWf_of _ (by decide +kernel) (by decide +kernel) (by decide +kernel)

/-- SETUP of section 6, with the payload loaded. -/
def setup (w h : Half) (n : BitVec 3) (sc : ScanCfg) (q : Half) (ac : HuffTable) (ri : Half)
    (bytes : List Byte) : State :=
  { State.reset with
    done := true
    width := w
    height := h
    ncomp := n
    scanCfg := sc
    restart := ri
    bsLen := BitVec.ofNat 32 bytes.length
    qt := #v[{ entry := Vector.replicate 64 q, set := true }, QuantTable.reset, QuantTable.reset,
      QuantTable.reset]
    dcHt := #v[dcTable, HuffTable.reset, HuffTable.reset, HuffTable.reset]
    acHt := #v[ac, HuffTable.reset, HuffTable.reset, HuffTable.reset]
    bs := bytesFrom 0 bytes }

/-- SCAN_CFG 0x00000011. -/
def oneComp : ScanCfg := { n := 1, id0 := 1, id1 := 0, id2 := 0 }

/-- SCAN_CFG 0x00003213. -/
def threeComps : ScanCfg := { n := 3, id0 := 1, id1 := 2, id2 := 3 }

/-- A scan of `cols` columns and one row begun on a set-up core. -/
def scanOf (cols : Nat) (s : State) : State :=
  { s with
    mcuCols := BitVec.ofNat 16 cols, mcuRows := 1, mcuTotal := BitVec.ofNat 32 cols, scanActive := true }

/-- Program P1 before START_SCAN. -/
def p1 : State := setup 8 8 1 oneComp 1 acA 0 [0xFE, 0xA0]

/-- Program P1 after START_SCAN. -/
def scan1 : State := scanOf 1 p1

/-- The coefficients in which component 1 has only DC. -/
def dcOnly (v : Half) : Vector (Vector Half 64) 3 :=
  #v[(Vector.replicate 64 0).set 0 v, Vector.replicate 64 0, Vector.replicate 64 0]

/-- Program P1 after START_SCAN and DECODE_MCU. -/
def pending1 : State :=
  { scan1 with
    byteIdx := 2, pred := #v[80, 0, 0], coef := dcOnly 80, mcuIdx := 1, mcuPending := true }

/-- Program P2 after START_SCAN. -/
def scan2 : State := scanOf 1 (setup 8 8 3 threeComps 1 acA 0 [0xFE, 0xA0, 0xFF, 0x2F, 0xBF, 0xDE, 0x00])

/-- Program P2 with its MCU decoded: Y 80, Cb -160, Cr 240. -/
def pending2 : State :=
  { scan2 with
    byteIdx := 6, bitOff := 4, pred := #v[80, 0xFF60, 240]
    coef := #v[(Vector.replicate 64 0).set 0 80, (Vector.replicate 64 0).set 0 0xFF60,
      (Vector.replicate 64 0).set 0 240]
    mcuIdx := 1, mcuPending := true }

/-- Program P3 with MCU 0 decoded and reconstructed: MCU 1 is at a restart boundary. -/
def scan3 : State :=
  { scanOf 2 (setup 12 8 1 oneComp 1 acA 1 [0xFE, 0xA0, 0xFA, 0x00]) with
    byteIdx := 2, pred := #v[80, 0, 0], coef := dcOnly 80, mcuIdx := 1 }

/-- Program P4 after START_SCAN. -/
def scan4 : State := scanOf 1 (setup 8 8 1 oneComp 4 acB 0 [0x7A, 0x1C, 0x00])

/-- Program P5 after START_SCAN. -/
def scan5 : State := scanOf 1 (setup 8 8 1 oneComp 1 acA 0 [0xFE])

/-- Program P6 after START_SCAN, with a payload. -/
def scan6 (bytes : List Byte) : State := scanOf 1 (setup 8 8 1 oneComp 1 acB 0 bytes)

/-- V28: a DC table whose only symbol is 16, with the code 0. -/
def scan28 : State :=
  let h : HuffTable := { acA with symbol := Vector.replicate 162 16 }
  { scanOf 1 (setup 8 8 1 oneComp 1 acA 0 [0x00]) with dcHt := Vector.replicate 4 h }

/-- A core frozen by an illegal command word. -/
def frozen : State := { State.reset with done := true, err := true, errCode := 0x01 }

/-- A core with a command word in its latch and a delay. -/
def latched (w : Word) (delay : Nat) (s : State) : State :=
  { s with latch := some { word := w, rstAlign := s.ctrl.rstAlign, delay := delay }, done := false }

theorem setup_tables (w h : Half) (n : BitVec 3) (sc : ScanCfg) (q : Half) (ac : HuffTable) (ri : Half)
    (bytes : List Byte) (hac : tableWf ac) : (setup w h n sc q ac ri bytes).tablesWf := by
  intro c t
  cases c
  · fin_cases t
    · exact dcTable_wf
    · exact tableWf_reset
    · exact tableWf_reset
    · exact tableWf_reset
  · fin_cases t
    · exact hac
    · exact tableWf_reset
    · exact tableWf_reset
    · exact tableWf_reset

theorem scan1_inv : scan1.Inv where
  params := by decide
  memories := by unfold State.memoriesWf; decide +kernel
  errors := by unfold State.errorWf; decide +kernel
  cursor := by unfold State.cursorWf; decide +kernel
  tables := setup_tables 8 8 1 oneComp 1 acA 0 [0xFE, 0xA0] acA_wf
  scan := by unfold State.scanWf State.scanConfigured; decide +kernel
  latch := by decide +kernel
  held := by intro h; cases h

theorem pending1_inv : pending1.Inv where
  params := by decide
  memories := by unfold State.memoriesWf; decide +kernel
  errors := by unfold State.errorWf; decide +kernel
  cursor := by unfold State.cursorWf; decide +kernel
  tables := setup_tables 8 8 1 oneComp 1 acA 0 [0xFE, 0xA0] acA_wf
  scan := by unfold State.scanWf State.scanConfigured; decide +kernel
  latch := by decide +kernel
  held := by intro h; cases h

theorem pending2_inv : pending2.Inv where
  params := by decide
  memories := by unfold State.memoriesWf; decide +kernel
  errors := by unfold State.errorWf; decide +kernel
  cursor := by unfold State.cursorWf; decide +kernel
  tables :=
    setup_tables 8 8 3 threeComps 1 acA 0 [0xFE, 0xA0, 0xFF, 0x2F, 0xBF, 0xDE, 0x00] acA_wf
  scan := by unfold State.scanWf State.scanConfigured; decide +kernel
  latch := by decide +kernel
  held := by intro h; cases h

theorem scan3_inv : scan3.Inv where
  params := by decide
  memories := by unfold State.memoriesWf; decide +kernel
  errors := by unfold State.errorWf; decide +kernel
  cursor := by unfold State.cursorWf; decide +kernel
  tables := setup_tables 12 8 1 oneComp 1 acA 1 [0xFE, 0xA0, 0xFA, 0x00] acA_wf
  scan := by unfold State.scanWf State.scanConfigured; decide +kernel
  latch := by decide +kernel
  held := by intro h; cases h

theorem scan5_inv : scan5.Inv where
  params := by decide
  memories := by unfold State.memoriesWf; decide +kernel
  errors := by unfold State.errorWf; decide +kernel
  cursor := by unfold State.cursorWf; decide +kernel
  tables := setup_tables 8 8 1 oneComp 1 acA 0 [0xFE] acA_wf
  scan := by unfold State.scanWf State.scanConfigured; decide +kernel
  latch := by decide +kernel
  held := by intro h; cases h


/-! ## What is well formed, and what the checks refuse (R11, R141, R144, R147) -/

theorem test_params_default : Params.default.legal = true := by decide

theorem test_params_bounds :
    ({ bsBytes := 4, outBytes := 192 } : Params).legal = true ∧
    ({ bsBytes := 16777216, outBytes := 16777216 } : Params).legal = true := by decide

theorem test_params_bs_refused :
    ({ bsBytes := 6, outBytes := 192 } : Params).bsLegal = false ∧
    ({ bsBytes := 0, outBytes := 192 } : Params).bsLegal = false ∧
    ({ bsBytes := 16777220, outBytes := 192 } : Params).bsLegal = false := by decide

theorem test_params_out_refused :
    ({ bsBytes := 4, outBytes := 194 } : Params).outLegal = false ∧
    ({ bsBytes := 4, outBytes := 188 } : Params).outLegal = false ∧
    ({ bsBytes := 4, outBytes := 16777220 } : Params).outLegal = false := by decide

/-- A word that fails each check: the opcode, the two reserved fields at both ends, T and C. -/
theorem test_word_refused :
    Word.legal 0x00000008#32 = false ∧ Word.legal 0x000000FF#32 = false ∧
    Word.reservedZero 0x00000403#32 = false ∧ Word.reservedZero 0x00000803#32 = false ∧
    Word.reservedZero 0x00002003#32 = false ∧ Word.reservedZero 0x80000003#32 = false ∧
    Word.tLegal 0x00000101#32 = false ∧ Word.tLegal 0x00000204#32 = false ∧
    Word.cLegal 0x00001002#32 = false ∧ Word.cLegal 0x00001000#32 = false := by decide

theorem test_word_legal :
    Word.legal 0x00000302#32 = true ∧ Word.legal 0x00001303#32 = true ∧ Word.legal 0x00000007#32 = true := by
  decide

theorem test_pseudo_refused :
    pseudoWf (.loadQt 0 (List.replicate 63 1)) = false ∧
    pseudoWf (.loadHt .dc 0 (List.replicate 15 0) []) = false ∧
    pseudoWf (.loadHt .dc 0 (List.replicate 16 1) [0]) = false := by decide

/-! ## Decoding, word by word: 19 reserved bits, C, 2 reserved bits, T, OP (R141, R143) -/

theorem test_decode_nop : decode 0b0000000000000000000_0_00_00_00000000#32 = .ok .nop := by decide

theorem test_decode_reset : decode 0b0000000000000000000_0_00_00_00000001#32 = .ok .reset := by decide

theorem test_decode_setQt : decode 0b0000000000000000000_0_00_11_00000010#32 = .ok (.setQt 3) := by decide

theorem test_decode_buildHt_ac :
    decode 0b0000000000000000000_1_00_10_00000011#32 = .ok (.buildHt .ac 2) := by decide

theorem test_decode_buildHt_dc :
    decode 0b0000000000000000000_0_00_01_00000011#32 = .ok (.buildHt .dc 1) := by decide

theorem test_decode_startScan :
    decode 0b0000000000000000000_0_00_00_00000100#32 = .ok .startScan := by decide

theorem test_decode_decodeMcu :
    decode 0b0000000000000000000_0_00_00_00000101#32 = .ok .decodeMcu := by decide

theorem test_decode_reconMcu :
    decode 0b0000000000000000000_0_00_00_00000110#32 = .ok .reconMcu := by decide

theorem test_decode_run : decode 0b0000000000000000000_0_00_00_00000111#32 = .ok .run := by decide

/-- The encoder on the same words, and the assembler's text (R145). -/
theorem test_encode :
    encode (.setQt 3) = 0x00000302#32 ∧ encode (.buildHt .ac 2) = 0x00001203#32 ∧
    assemble "BUILD_HT ac, 1" = some 0x00001103#32 ∧ assemble "SET_QT 4" = none := by decide

/-- The first word after reset runs through the decoder and the step (V20: STATUS 0x00000002). -/
theorem test_fetch_nop : onNext (step (State.reset.withFetchWord 32 0)) (fun t => statusWord t == 2) = true := by
  decide +kernel

/-! ## One step of each command -/

/-- V24: on a core frozen by ILLEGAL_CMD a command is a no-op and STATUS stays 0x00000106. -/
theorem test_nop_frozen : onNext (exec .nop frozen) (fun t => statusWord t == 0x106) = true := by
  decide +kernel

/-- P5: RESET leaves STATUS and TABLE_SET 0. -/
theorem test_reset_clears :
    onNext (exec .reset { scan5 with err := true, errCode := 0x10 })
      (fun t => statusWord t == 0 && tableSetWord t == 0 && frameSizeWord t == 0 && t.bsByte 0 == 0xFE) =
      true := by
  decide +kernel

/-- V21: the word 0x00000101 is no reset but illegal. -/
theorem test_reset_word_illegal :
    onNext (step (State.reset.withFetchWord 32 0x101)) (fun t => statusWord t == 0x106) = true := by
  decide +kernel

/-- V21: SET_QT 1 from reset gives TABLE_SET 0x00000002 and STATUS 0x00000002. -/
theorem test_setQt :
    onNext (exec (.setQt 1) State.reset) (fun t => tableSetWord t == 2 && statusWord t == 2) = true := by
  decide +kernel

/-- V22: SET_QT 0 during a scan gives STATUS 0x00000B16. -/
theorem test_setQt_in_scan : onNext (exec (.setQt 0) scan1) (fun t => statusWord t == 0xB16) = true := by
  decide +kernel

/-- V1: the codes and offsets of slots 1, 6 and 12 and of class 3, and TABLE_SET 0x00000020. -/
theorem test_buildHt_codes :
    onNext
      (exec (.buildHt .dc 1)
        { State.reset with
          dcHt := #v[HuffTable.reset,
            rawTable [0, 1, 5, 1, 1, 1, 1, 1, 1] [] (by decide) (by decide), HuffTable.reset,
            HuffTable.reset] })
      (fun t => tableSetWord t == 0x20 && (t.huff .dc 1).code[(1 : Fin 162)] == 2 &&
        (t.huff .dc 1).code[(6 : Fin 162)] == 0xE && (t.huff .dc 1).code[(11 : Fin 162)] == 0x1FE &&
        (t.huff .dc 1).code[(12 : Fin 162)] == 0 && (t.huff .dc 1).offset[(3 : Fin 17)] == 6) = true := by
  decide +kernel

/-- V4: 163 symbols give STATUS 0x00000206 and no flag. -/
theorem test_buildHt_overflow :
    onNext
      (exec (.buildHt .dc 0)
        { State.reset with
          dcHt := Vector.replicate 4
            { HuffTable.reset with count := (Vector.replicate 16 0).set 15 163 } })
      (fun t => statusWord t == 0x206 && tableSetWord t == 0) = true := by
  decide +kernel

/-- P1: after START_SCAN STATUS is 0x00000012, MCU_GEOM 0x00010001 and MCU_TOTAL 1. -/
theorem test_startScan :
    onNext (exec .startScan p1)
      (fun t => statusWord t == 0x12 && mcuGeomWord t == 0x00010001 && t.mcuTotal == 1) = true := by
  decide +kernel

/-- V30: an unset AC table is AC_NOT_SET with component 1. -/
theorem test_startScan_ac_not_set :
    onNext (exec .startScan (p1.withCfg .c1 (compCfgOfWord 0x100#32)))
      (fun t => t.errCode == 0x08 && t.errComp == 1) = true := by
  decide +kernel

/-- P4: BIT_POS 18, +16 at natural index 1, -3 at natural index 16, STATUS 0x00000032. -/
theorem test_decodeMcu :
    onNext (exec .decodeMcu scan4)
      (fun t => statusWord t == 0x32 && t.bitPos == 18 && (t.block .c1)[(0 : Fin 64)] == 0 &&
        (t.block .c1)[(1 : Fin 64)] == 16 && (t.block .c1)[(16 : Fin 64)] == 0xFFFD) = true := by
  decide +kernel

/-- V27, V28 and P6b: HUFF_NO_MATCH gives STATUS 0x00001116 at bit 16, DC_CATEGORY 0x00001216 at bit 1, and a
ZRL past position 64 is AC_OVERRUN, 0x00001316, at bit 13. -/
theorem test_decodeMcu_errors :
    onNext (exec .decodeMcu (scan6 [0xFF, 0xFF]))
      (fun t => statusWord t == 0x1116 && t.errBitPos == 16 && t.errComp == 1 && t.errMcu == 0) = true ∧
    onNext (exec .decodeMcu scan28)
      (fun t => statusWord t == 0x1216 && t.errBitPos == 1 && t.errComp == 1) = true ∧
    onNext (exec .decodeMcu (scan6 [0x6D, 0xB0]))
      (fun t => statusWord t == 0x1316 && t.errBitPos == 13 && t.errComp == 1) = true := by
  decide +kernel

/-- P2: the first pixel is (180, 123, 103), STATUS is 0x00000002, and byte 192 is not written. -/
theorem test_reconMcu :
    onNext (exec .reconMcu pending2)
      (fun t => statusWord t == 2 && memRead t.out 0 == some 180 && memRead t.out 1 == some 123 &&
        memRead t.out 2 == some 103 && memRead t.out 192 == none) = true := by
  decide +kernel

/-- V22: RECON_MCU right after START_SCAN gives STATUS 0x00000B16. -/
theorem test_reconMcu_sequence : onNext (exec .reconMcu scan1) (fun t => statusWord t == 0xB16) = true := by
  decide +kernel

/-- P1: RUN ends the scan with every pixel 138, BIT_POS 16, PRED1 80. -/
theorem test_run :
    onNext (exec .run scan1)
      (fun t => statusWord t == 2 && t.bitPos == 16 && predWord t .c1 == 80 &&
        memRead t.out 0 == some 138 && memRead t.out 191 == some 138) = true := by
  decide +kernel

/-- P5: RUN on an exhausted payload gives STATUS 0x00001016 at bit 8, in component 1, and writes nothing. -/
theorem test_run_exhausted :
    onNext (exec .run scan5)
      (fun t => statusWord t == 0x1016 && t.errBitPos == 8 && t.errComp == 1 && t.mcuIdx == 0 &&
        t.out == []) = true := by
  decide +kernel

/-! ## The shared operations -/

/-- V7. -/
theorem test_extend :
    extend 0 1 = -1 ∧ extend 1 2 = -2 ∧ extend 2 2 = 2 ∧ extend 1023 11 = -1024 ∧ extend 1024 11 = 1024 ∧
    extend 16383 15 = -16384 ∧ extend 0 15 = -32767 := by decide

/-- V16. -/
theorem test_zigzag : zz 2 = 8 ∧ zz 3 = 16 ∧ zz 49 = 59 ∧ zz 53 = 31 ∧ zz 54 = 39 ∧ zz 62 = 62 := by decide

/-- P7: the predictor wraps: 32767 + 1 gives -32768. -/
theorem test_wrap16 : wrap16 (32767 + 1) = 0x8000#16 := by decide

/-- V14: D[1] = 100 gives the row 145 .. 111, and D[8] = 100 the column. -/
theorem test_idct :
    reconBlock ((Vector.replicate 64 0).set 1 100) (Vector.replicate 64 1) 0 = 145 ∧
    reconBlock ((Vector.replicate 64 0).set 1 100) (Vector.replicate 64 1) 6 = 113 ∧
    reconBlock ((Vector.replicate 64 0).set 8 100) (Vector.replicate 64 1) 24 = 131 ∧
    reconBlock ((Vector.replicate 64 0).set 63 200) (Vector.replicate 64 1) 9 = 143 := by
  decide +kernel

/-- V13: ties round up, and the product with the largest table value stays exact. -/
theorem test_level_shift :
    reconBlock ((Vector.replicate 64 0).set 0 4) (Vector.replicate 64 1) 0 = 129 ∧
    reconBlock ((Vector.replicate 64 0).set 0 0xFFFC) (Vector.replicate 64 1) 0 = 128 ∧
    reconBlock ((Vector.replicate 64 0).set 0 0xFFFB) (Vector.replicate 64 1) 0 = 127 ∧
    reconBlock ((Vector.replicate 64 0).set 0 0x8000) (Vector.replicate 64 0xFFFF) 0 = 0 := by
  decide +kernel

/-- V15. -/
theorem test_ycc :
    ycc 128 128 255 = { r := 255, g := 37, b := 128 } ∧ ycc 138 108 158 = { r := 180, g := 123, b := 103 } ∧
    ycc 255 0 0 = { r := 76, g := 255, b := 28 } ∧ ycc 128 127 129 = { r := 129, g := 128, b := 126 } := by
  decide

/-- V9: the ninth bit with BS_LEN = 1 is BS_EXHAUSTED and the cursor stays. -/
theorem test_readBit_end :
    onStop (readBit 1 { scan5 with byteIdx := 1 })
      (fun e t => e == .error .bsExhausted 1 && t.bitPos == 8) = true := by
  decide +kernel

/-! ## The slave port -/

/-- V6: the QT window is in zigzag order, and a write clears the set flag. -/
theorem test_qt_window :
    (busWrite 0x408 4 7 State.reset).2.qt[(0 : Fin 4)].entry[(8 : Fin 64)] = 7 ∧
    tableSetWord (busWrite 0x404 4 5 p1).2 = 0x110 := by
  decide +kernel

/-- V23: FRAME_SIZE is locked during a scan; STATUS becomes 0x0000001A. -/
theorem test_config_lock :
    statusWord (busWrite 0x010 4 0x00100010 { scan1 with done := true }).2 = 0x1A ∧
    frameSizeWord (busWrite 0x010 4 0x00100010 { scan1 with done := true }).2 = 0x00080008 := by
  decide +kernel

/-- V24: a frozen core takes OUT writes and ignores table writes. -/
theorem test_frozen_writes :
    (busRead 0x2000000 4 (busWrite 0x2000000 4 0x11223344 frozen).2).1 = .data 0x11223344 ∧
    (busRead 0x400 4 (busWrite 0x400 4 9 frozen).2).1 = .data 0 := by
  decide +kernel

/-- V26 and R100: ID and the parameters; a misaligned or a narrow access is a bus error. -/
theorem test_identity :
    (busRead 0x000 4 State.reset).1 = .data 0x4A504744 ∧ (busRead 0x060 4 State.reset).1 = .data 0x00100000 ∧
    (busRead 0x064 4 State.reset).1 = .data 0x00400000 ∧ (busRead 0x002 4 State.reset).1 = .busError ∧
    (busRead 0x000 2 State.reset).1 = .busError := by
  decide +kernel

/-- R713: a read of CMD while BUSY is a free draw, and one of a reserved word is not. -/
theorem test_read_busy :
    (busRead 0x00C 4 (latched 5 1 scan1)).2.draws = 1 ∧ (busRead 0x068 4 (latched 5 1 scan1)).2.draws = 0 ∧
    (busRead 0x00C 4 scan1).1 = .data 0 := by
  decide +kernel

/-- V25: irq follows DONE and ERR under their enables. -/
theorem test_irq :
    State.irq { State.reset with ctrl := ctrlOfWord 3, done := true } = true ∧
    State.irq { frozen with ctrl := ctrlOfWord 3, done := false } = true ∧
    State.irq { frozen with ctrl := ctrlOfWord 1, done := false } = false := by
  decide +kernel

/-- V29: LOAD_BS packs four bytes to a word, the first in bits [7:0]. -/
theorem test_load_bs :
    expand (.loadBs [0xFE, 0xA0, 0xFF, 0x2F, 0xBF, 0xDE, 0x00]) =
      [.wr 0x1000000 0x2FFFA0FE, .wr 0x1000004 0x0000DEBF, .wr 0x02C 7] := by
  decide +kernel

/-- R504: acceptance clears DONE and latches the word; the next step runs it when no latency is listed. -/
theorem test_acceptance :
    onNext (step { p1 with program := [.wr 0x00C 4] })
      (fun t => statusWord t == 0x01 && (t.latch.map (fun l => l.word)) == some 4) = true := by
  decide +kernel

/-- R146: a WR reaches BS_LEN, an RD binds the word it reads, and an RD at a misaligned address binds nothing. -/
theorem test_host_statements :
    (hostTurn { State.reset with program := [.wr 0x02C 7] }).bsLen = 7 ∧
    (hostTurn { State.reset with program := [.rd 0x000 "id"] }).bindings = [("id", 0x4A504744)] ∧
    (hostTurn { State.reset with program := [.rd 0x001 "id"] }).bindings = [] ∧
    (hostTurn { State.reset with program := [.rd 0x001 "id"] }).responses = [.busError] := by
  decide +kernel

/-! ## Witnesses: for each obligation a state and operands that meet its hypotheses -/

theorem frozen_inv : frozen.Inv where
  params := by decide
  memories := by unfold State.memoriesWf; decide +kernel
  errors := by unfold State.errorWf; decide +kernel
  cursor := by unfold State.cursorWf; decide +kernel
  tables := fun c t => by cases c <;> fin_cases t <;> exact tableWf_reset
  scan := ⟨(fun h => by cases h), (fun h => by cases h), (fun h => by cases h)⟩
  latch := by decide +kernel
  held := by intro h; cases h

/-- A latched DECODE_MCU on program P1. -/
theorem latched_inv : (latched 5 2 scan1).Inv where
  params := by decide
  memories := by unfold State.memoriesWf; decide +kernel
  errors := by unfold State.errorWf; decide +kernel
  cursor := by unfold State.cursorWf; decide +kernel
  tables := setup_tables 8 8 1 oneComp 1 acA 0 [0xFE, 0xA0] acA_wf
  scan := by unfold State.scanWf State.scanConfigured; decide +kernel
  latch := by decide +kernel
  held := by intro h; cases h

/-- A latched RECON_MCU on program P1. -/
theorem latchedRecon_inv : (latched 6 0 pending1).Inv where
  params := by decide
  memories := by unfold State.memoriesWf; decide +kernel
  errors := by unfold State.errorWf; decide +kernel
  cursor := by unfold State.cursorWf; decide +kernel
  tables := setup_tables 8 8 1 oneComp 1 acA 0 [0xFE, 0xA0] acA_wf
  scan := by unfold State.scanWf State.scanConfigured; decide +kernel
  latch := by decide +kernel
  held := by intro h; cases h

/-- A latched RUN on program P1. -/
theorem latchedRun_inv : (latched 7 0 scan1).Inv where
  params := by decide
  memories := by unfold State.memoriesWf; decide +kernel
  errors := by unfold State.errorWf; decide +kernel
  cursor := by unfold State.cursorWf; decide +kernel
  tables := setup_tables 8 8 1 oneComp 1 acA 0 [0xFE, 0xA0] acA_wf
  scan := by unfold State.scanWf State.scanConfigured; decide +kernel
  latch := by decide +kernel
  held := by intro h; cases h

theorem witness_DecodeEncodeAgree :
    Instr.wf (.setQt 3) = true ∧ decode 0x00001303#32 = .ok (.buildHt .ac 3) := by decide

theorem witness_IllegalWordsRejected :
    8 ≤ ((0x00000008#32).extractLsb' 0 8).toNat ∧ 8 ≤ ((0x000000FF#32).extractLsb' 0 8).toNat ∧
    ((0x00000407#32).extractLsb' 0 8).toNat < 8 ∧ Word.legal 0x00000407#32 = false ∧
    Word.legal 0x00001303#32 = true := by decide

theorem witness_LatchedWordRuns :
    (∃ l, (latched 5 0 scan1).latch = some l ∧ l.delay = 0 ∧ decode l.word = .ok .decodeMcu ∧
      Instr.wf .decodeMcu = true) ∧
    (∃ l, (latched 1 0 scan1).latch = some l ∧ l.delay = 0 ∧ l.word = 0x00000001#32) ∧
    (∃ l, (latched 8 0 frozen).latch = some l ∧ l.delay = 0 ∧ l.word ≠ 0x00000001#32 ∧
      (latched 8 0 frozen).err = true) ∧
    (∃ l, (latched 8 0 scan1).latch = some l ∧ l.delay = 0 ∧ (latched 8 0 scan1).err = false ∧
      ∀ i : Instr, decode l.word ≠ .ok i) :=
  ⟨⟨_, rfl, by decide⟩, ⟨_, rfl, by decide⟩, ⟨_, rfl, by decide⟩,
    ⟨_, rfl, rfl, rfl, fun i h => by
      rw [show decode _ = .error .reservedOpcode from rfl] at h; cases h⟩⟩

theorem witness_HostTakesTurns :
    State.reset.latch = none ∧ (∃ l, (latched 5 1 scan1).latch = some l ∧ l.delay ≠ 0) ∧
    State.reset.program = [] ∧
    (∀ st ∈ [HostStmt.wait, .wr 0x02C 7, .writeAccess 0x02E 2 7, .readAccess 0x001 8, .rd 0x02C "n", .resetPin true,
        .resetPin false],
      ({ latched 5 1 scan1 with program := [st] } : State).program = st :: []) ∧
    ({ latched 5 1 scan1 with program := [.wait] } : State).busy = true ∧
    ({ scan1 with program := [.wait] } : State).busy = false ∧
    ({ State.reset with resetIn := true, program := [.wait] } : State).resetIn = true ∧
    (busRead 0x02C 4 { scan1 with program := [] }).1 = .data 2 ∧
    (busRead 0x02D 4 { scan1 with program := [] }).1 = .busError :=
  ⟨rfl, ⟨_, rfl, by decide⟩, rfl, fun _ _ => rfl, rfl, rfl, rfl, by decide +kernel, by decide +kernel⟩

theorem witness_FrozenCommandIsNoOp : frozen.err = true ∧ Instr.run ≠ .reset := by decide

theorem witness_CompletionFlags :
    Instr.nop ≠ .reset ∧
    ∃ t, exec .nop { State.reset with ctrl := ctrlOfWord 1 } = .next t ∧ t.irq = true :=
  ⟨by decide, onNext_elim (p := fun t => t.irq) (by decide +kernel)⟩

theorem witness_AcceptanceRule :
    State.reset.resetIn = false ∧ State.reset.busy = false ∧ (5 : Word) ≠ 0x00000001#32 ∧
    (latched 5 1 scan1).resetIn = false ∧ (latched 5 1 scan1).busy = true := by decide

theorem witness_InFlightCommandIgnoresCtrl :
    Instr.decodeMcu ≠ .reset ∧ (∃ l, (latched 5 0 scan1).latch = some l) ∧
    ∃ t, exec .decodeMcu (latched 5 0 scan1) = .next t ∧ (t.err == false) = true :=
  ⟨by decide, ⟨_, rfl⟩, onNext_elim (p := fun t => t.err == false) (by decide +kernel)⟩

theorem witness_CommandCompletesAfterDelay :
    (∃ l, (latched 5 2 scan1).latch = some l ∧ l.delay = 2) ∧ (latched 5 2 scan1).program = [] ∧
    (latched 5 2 scan1).Inv :=
  ⟨⟨_, rfl, rfl⟩, rfl, latched_inv⟩

theorem witness_BothResetsLeaveResetState :
    scan1.busy = false ∧ (0x2FFFFFC : Nat) % 4 = 0 ∧ (0x068 : Nat) < 0x1000000 := by decide

/-- The byte 192 is the first above the image, 191 the last of the tile. -/
theorem witness_ResetAbortsCommand :
    3 * (latched 6 0 pending1).width.toNat * (latched 6 0 pending1).height.toNat ≤ 192 ∧
    (latched 6 0 frozen).err = true ∧
    (∃ l, (latched 5 0 scan1).latch = some l ∧ l.word ≠ 0x00000006#32 ∧ l.word ≠ 0x00000007#32) ∧
    (∃ l, (latched 6 0 scan1).latch = some l ∧ l.word = 0x00000006#32 ∧
      (latched 6 0 scan1).mcuPending = false) ∧
    (∃ l, (latched 6 0 pending1).latch = some l ∧ l.word = 0x00000006#32) ∧
    (latched 6 0 pending1).Inv ∧ (latched 6 0 pending1).err = false ∧
    (latched 6 0 pending1).mcuPending = true ∧
    191 ∈ tileBytes (latched 6 0 pending1) (latched 6 0 pending1).lastMcu.toNat ∧
    192 ∉ tileBytes (latched 6 0 pending1) (latched 6 0 pending1).lastMcu.toNat :=
  ⟨by decide +kernel, rfl, ⟨_, rfl, by decide⟩, ⟨_, rfl, rfl, rfl⟩, ⟨_, rfl, rfl⟩, latchedRecon_inv, rfl,
    rfl, by decide +kernel, by decide +kernel⟩

/-- A RUN aborted with no scan active, and one of program P1 that would write byte 191 and not byte 192. -/
theorem witness_ResetAbortsCommand_run :
    (∃ l, (latched 7 0 p1).latch = some l ∧ l.word = 0x00000007#32 ∧ (latched 7 0 p1).scanActive = false) ∧
    (∃ l, (latched 7 0 scan1).latch = some l ∧ l.word = 0x00000007#32) ∧
    (latched 7 0 scan1).Inv ∧ (latched 7 0 scan1).err = false ∧
    ∃ r, exec .run (latched 7 0 scan1) = .next r ∧
      runWrites (latched 7 0 scan1) r 191 ∧ ¬runWrites (latched 7 0 scan1) r 192 := by
  refine ⟨⟨_, rfl, rfl, rfl⟩, ⟨_, rfl, rfl⟩, latchedRun_inv, rfl, ?_⟩
  obtain ⟨r, hr, hi⟩ := onNext_elim (o := exec .run (latched 7 0 scan1)) (p := fun t => t.mcuIdx == 1)
    (by decide +kernel)
  have hi' : r.mcuIdx = 1 := by simpa using hi
  refine ⟨r, hr, .inr ⟨0, by decide +kernel, by rw [hi']; decide, by decide +kernel⟩, ?_⟩
  rintro (⟨h, _⟩ | ⟨m, _, h, hm⟩)
  · cases h
  · rw [hi'] at h
    obtain rfl : m = 0 := by simpa using h
    revert hm; decide +kernel

theorem witness_ResetIsNotDecodable :
    ∃ t, exec .reset scan1 = .next t ∧ (tableSetWord t == 0) = true :=
  onNext_elim (p := fun t => tableSetWord t == 0) (by decide +kernel)

theorem witness_SetQtRule :
    0x00000302#32 &&& 0xFFFFFCFF#32 = 0x00000002#32 ∧ frozen.err = true ∧ scan1.err = false ∧
    scan1.scanActive = true ∧ State.reset.err = false ∧ State.reset.scanActive = false ∧
    (0 : TableId) ≠ 3 := by decide

/-- 162 and 163 symbols, the two sides of the limit. -/
theorem witness_BuildHtRule :
    0x00001303#32 &&& 0xFFFFECFF#32 = 0x00000003#32 ∧ frozen.err = true ∧ scan1.scanActive = true ∧
    total { HuffTable.reset with count := (Vector.replicate 16 0).set 15 163 } = 163 ∧
    total { HuffTable.reset with count := (Vector.replicate 16 0).set 15 162 } = 162 := by
  decide +kernel

theorem witness_CodesBelowTwoPow23 :
    total { HuffTable.reset with count := ((Vector.replicate 16 0).set 0 161).set 15 1 } ≤ 162 := by
  decide +kernel

theorem witness_CanonicalCodesPrefixFree :
    total dcTable ≤ 162 ∧
    ((List.finRange 16).map (fun l => count dcTable l * 2 ^ (15 - l.val))).sum ≤ 2 ^ 16 ∧
    inClass (buildTable dcTable) 0 0 ∧ inClass (buildTable dcTable) 15 15 ∧
    (0 : Fin 162) ≠ 15 ∧ (0 : Fin 16) ≤ 15 := by
  unfold inClass; decide +kernel

theorem witness_ReadBitAndAlignRule :
    scan5.bsLen.toNat ≤ ({ scan5 with byteIdx := 1 } : State).byteIdx ∧
    scan1.byteIdx < scan1.bsLen.toNat ∧ scan1.byteIdx < scan1.params.bsBytes ∧ scan1.bitOff = 0 ∧
    ({ scan1 with bitOff := 7 } : State).bitOff.val = 7 ∧ ({ scan1 with bitOff := 6 } : State).bitOff.val ≠ 7 ∧
    ({ scan1 with bitOff := 7 } : State).bitOff ≠ 0 := by
  decide +kernel

/-- A field that ends with the payload, and one that is a bit longer. -/
theorem witness_ReadBitsRule :
    scan1.bsLen.toNat ≤ scan1.params.bsBytes ∧ scan1.cursor + 16 ≤ 8 * scan1.bsLen.toNat ∧
    0 < 17 ∧ 8 * scan1.bsLen.toNat < scan1.cursor + 17 := by
  decide +kernel

theorem witness_ExtendRule :
    (0 : Nat) < 2 ^ 0 ∧ (16383 : Nat) < 2 ^ (15 - 1) ∧ 2 ^ (15 - 1) ≤ (16384 : Nat) ∧ 16384 < 2 ^ 15 := by
  decide

/-- The last slot of the table, the code of 15 ones and a zero. -/
theorem witness_HuffDecodeFindsCode :
    tableWf dcTable ∧ dcTable.set = true ∧ (scan6 [0xFF, 0xFE]).bsLen.toNat ≤ (scan6 [0xFF, 0xFE]).params.bsBytes ∧
    inClass dcTable 15 15 ∧
    payloadField (scan6 [0xFF, 0xFE]) (scan6 [0xFF, 0xFE]).cursor 16 = dcTable.code[(15 : Fin 162)].toNat ∧
    (scan6 [0xFF, 0xFE]).cursor + 16 ≤ 8 * (scan6 [0xFF, 0xFE]).bsLen.toNat :=
  ⟨dcTable_wf, rfl, by decide +kernel, by unfold inClass; decide +kernel, by decide +kernel,
    by decide +kernel⟩

/-- The table of V2 gives each length one slot, in order. -/
theorem dcTable_offsets : ∀ m : Fin 16,
    dcTable.offset[m.castSucc].toNat = m.val ∧ dcTable.offset[m.succ].toNat = m.val + 1 := by
  decide +kernel

/-- No code of the table of V2 is all ones, with 16 bits of payload and with 8. -/
theorem ones_match_nothing :
    (∀ m : Fin 16, payloadField (scan6 [0xFF, 0xFF]) (scan6 [0xFF, 0xFF]).cursor (m.val + 1) ≠
      (dcTable.code.toList.getD m.val 0).toNat) ∧
    ∀ m : Fin 16, (scan6 [0xFF]).cursor + (m.val + 1) ≤ 8 * (scan6 [0xFF]).bsLen.toNat →
      payloadField (scan6 [0xFF]) (scan6 [0xFF]).cursor (m.val + 1) ≠
        (dcTable.code.toList.getD m.val 0).toNat := by
  decide +kernel

/-- V27: sixteen ones match no code of the table of V2, with 16 bits there and with 8. -/
theorem witness_HuffDecodeNoMatch :
    tableWf dcTable ∧
    (∀ bytes ∈ [[(0xFF : Byte), 0xFF], [0xFF]],
      (scan6 bytes).bsLen.toNat ≤ (scan6 bytes).params.bsBytes ∧
      ∀ (i : Fin 162) (l : Fin 16), inClass dcTable i l →
        (scan6 bytes).cursor + (l.val + 1) ≤ 8 * (scan6 bytes).bsLen.toNat →
        payloadField (scan6 bytes) (scan6 bytes).cursor (l.val + 1) ≠ dcTable.code[i].toNat) ∧
    (scan6 [0xFF, 0xFF]).cursor + 16 ≤ 8 * (scan6 [0xFF, 0xFF]).bsLen.toNat ∧
    8 * (scan6 [0xFF]).bsLen.toNat < (scan6 [0xFF]).cursor + 16 := by
  refine ⟨dcTable_wf, fun bytes hb => ⟨?_, fun i l h hl => ?_⟩, by decide +kernel, by decide +kernel⟩
  · revert bytes; decide +kernel
  have h1 := dcTable_offsets l
  obtain ⟨ha, hb'⟩ := h
  have hi : i.val = l.val := by omega
  have e : dcTable.code[i] = dcTable.code.toList.getD l.val 0 := by
    rw [← hi]; simp
  rw [e]
  rcases List.mem_pair.mp hb with rfl | rfl
  · exact ones_match_nothing.1 l
  · exact ones_match_nothing.2 l hl

/-- A category of 7 with its field, one of 16, a field that the payload cuts off, and no code at all. -/
theorem witness_DcCoefficientRule :
    (∃ (n : Byte) (t : State), huffDecode ((scan1).huff .dc ((scan1).cfg .c1).dcId) (Comp.bits .c1) scan1 = .done n t ∧
      (decide (n.toNat ≤ 15) && onDone (readBits (Comp.bits .c1) n.toNat t) (fun v _ => v == 80)) = true) ∧
    (∃ (n : Byte) (t : State), huffDecode ((scan5).huff .dc ((scan5).cfg .c1).dcId) (Comp.bits .c1) scan5 = .done n t ∧
      (decide (n.toNat ≤ 15) && onStop (readBits (Comp.bits .c1) n.toNat t) (fun _ _ => true)) = true) ∧
    (∃ (n : Byte) (t : State), huffDecode (scan28.huff .dc (scan28.cfg .c1).dcId) (Comp.bits .c1) scan28 = .done n t ∧
      (decide (15 < n.toNat)) = true) ∧
    ∃ (e : Stop) (t : State), huffDecode ((scan6 []).huff .dc ((scan6 []).cfg .c1).dcId) (Comp.bits .c1)
      (scan6 []) = .stop e t ∧ (e == .error .bsExhausted 1) = true :=
  ⟨onDone_elim (p := fun (n : Byte) (t : State) => decide (n.toNat ≤ 15) &&
      onDone (readBits (Comp.bits .c1) n.toNat t) (fun v _ => v == 80)) (by decide +kernel),
    onDone_elim (p := fun (n : Byte) (t : State) => decide (n.toNat ≤ 15) &&
      onStop (readBits (Comp.bits .c1) n.toNat t) (fun _ _ => true)) (by decide +kernel),
    onDone_elim (p := fun (n : Byte) (_ : State) => decide (15 < n.toNat)) (by decide +kernel),
    onStop_elim (p := fun (e : Stop) (_ : State) => e == .error .bsExhausted 1) (by decide +kernel)⟩

/-- The symbols of table B: end of block, a run of 16 at k = 48 and at k = 49, a coefficient at k = 62 and
one past 63, and a payload that ends before the code and before the field. -/
theorem witness_AcCoefficientRule :
    (∃ (y : Byte) (t : State), huffDecode acB (Comp.bits .c1) (scan6 [0x00]) = .done y t ∧ (y == 0x00) = true) ∧
    (∃ (y : Byte) (t : State), huffDecode acB (Comp.bits .c1) (scan6 [0xC0]) = .done y t ∧
      (y == 0xF0 && decide (48 + 16 ≤ 64) && decide (64 < 49 + 16)) = true) ∧
    (∃ (y : Byte) (t : State), huffDecode acB (Comp.bits .c1) (scan6 [0xE0]) = .done y t ∧
      (y != 0x00 && y != 0xF0 && decide (62 + (y.extractLsb' 4 4).toNat < 64) &&
        decide (63 < 63 + (y.extractLsb' 4 4).toNat) &&
        onDone (readBits (Comp.bits .c1) (y.extractLsb' 0 4).toNat t) (fun _ _ => true)) = true) ∧
    (∃ (y : Byte) (t : State), huffDecode acB (Comp.bits .c1) (scan6 [0xF0]) = .done y t ∧
      (y != 0x00 && y != 0xF0 && decide (63 + (y.extractLsb' 4 4).toNat < 64) &&
        onStop (readBits (Comp.bits .c1) (y.extractLsb' 0 4).toNat t) (fun _ _ => true)) = true) ∧
    ∃ e t, huffDecode acB (Comp.bits .c1) (scan6 []) = .stop e t ∧ (t.bitPos == 0) = true := by
  refine ⟨onDone_elim (p := fun (y : Byte) (_ : State) => y == 0x00) (by decide +kernel),
    onDone_elim (p := fun (y : Byte) (_ : State) => y == 0xF0 && decide (48 + 16 ≤ 64) && decide (64 < 49 + 16))
      (by decide +kernel),
    onDone_elim (p := fun (y : Byte) (t : State) => y != 0x00 && y != 0xF0 && decide (62 + (y.extractLsb' 4 4).toNat < 64) &&
        decide (63 < 63 + (y.extractLsb' 4 4).toNat) &&
        onDone (readBits (Comp.bits .c1) (y.extractLsb' 0 4).toNat t) (fun _ _ => true)) (by decide +kernel),
    onDone_elim (p := fun (y : Byte) (t : State) => y != 0x00 && y != 0xF0 && decide (63 + (y.extractLsb' 4 4).toNat < 64) &&
        onStop (readBits (Comp.bits .c1) (y.extractLsb' 0 4).toNat t) (fun _ _ => true)) (by decide +kernel),
    onStop_elim (p := fun (_ : Stop) (t : State) => t.bitPos == 0) (by decide +kernel)⟩

/-- V30: each check of START_SCAN fails on a change of P1's setup, and none on P1's setup. -/
theorem witness_StartScanRule :
    frozen.err = true ∧ p1.err = false ∧
    startScanError { p1 with width := 0 } = some (.badDimensions, 0) ∧
    startScanError { p1 with ncomp := 2 } = some (.badNcomp, 0) ∧
    startScanError { p1 with scanCfg := threeComps } = some (.badScan, 0) ∧
    startScanError { p1 with scanCfg := { oneComp with id0 := 0 } } = some (.badScan, 0) ∧
    startScanError (p1.withCfg .c1 { qtId := 1, dcId := 0, acId := 0 }) = some (.qtNotSet, 1) ∧
    startScanError { p1 with bsLen := 0x00100001 } = some (.bsLenRange, 0) ∧
    startScanError { p1 with width := 2048, height := 2048 } = some (.outTooSmall, 0) ∧
    startScanError p1 = none := by
  decide +kernel

theorem witness_DecodeMcuRule :
    frozen.err = true ∧ p1.err = false ∧ p1.scanActive = false ∧ pending1.err = false ∧
    pending1.mcuTotal.toNat ≤ pending1.mcuIdx.toNat ∧ (latched 5 0 scan1).err = false ∧
    (latched 5 0 scan1).scanActive = true ∧
    (latched 5 0 scan1).mcuIdx.toNat < (latched 5 0 scan1).mcuTotal.toNat ∧
    (∃ l, (latched 5 0 scan1).latch = some l ∧ l.rstAlign = false) ∧
    onDone (decodeBlocks (scanIds scan1.scanCfg) (afterBoundary false (latched 5 0 scan1)))
      (fun _ _ => true) = true ∧
    onStop (decodeBlocks (scanIds scan5.scanCfg) (afterBoundary false (latched 5 0 scan5)))
      (fun e _ => e == .error .bsExhausted 1) = true ∧
    onDone (decodeDc .c1 { scan1 with coef := scan1.coef.set 0 (Vector.replicate 64 0) })
      (fun _ v => onDone (decodeAc .c1 v) (fun _ _ => true)) = true ∧
    onStop (decodeDc .c1 { scan5 with coef := scan5.coef.set 0 (Vector.replicate 64 0) })
      (fun _ _ => true) = true ∧
    onDone (decodeDc .c1 (scan6 [0x6D, 0xB0])) (fun _ v => onStop (decodeAc .c1 v) (fun _ _ => true)) =
      true := by
  refine ⟨rfl, rfl, rfl, rfl, by decide +kernel, rfl, rfl, by decide +kernel, ⟨_, rfl, rfl⟩, ?_, ?_,
    by decide +kernel, by decide +kernel, by decide +kernel⟩
  · rw [show afterBoundary false (latched 5 0 scan1) = latched 5 0 scan1 from if_neg (by decide +kernel)]
    decide +kernel
  · rw [show afterBoundary false (latched 5 0 scan5) = latched 5 0 scan5 from if_neg (by decide +kernel)]
    decide +kernel

/-- Each of the four errors of R601 arises in a block. -/
theorem witness_DecodeMcuRule_errors :
    ∀ x ∈ [(scan5, Stop.error .bsExhausted 1), (scan6 [0xFF, 0xFF], .error .huffNoMatch 1),
        (scan28, .error .dcCategory 1), (scan6 [0x6D, 0xB0], .error .acOverrun 1)],
      onStop (decodeBlocks (scanIds x.1.scanCfg) (latched 5 0 x.1)) (fun e _ => e == x.2) = true := by
  decide +kernel

/-- Program P1: the DC code is slot 7 of length 8, its field is 80, the end of block is slot 0. -/
theorem witness_DcOnlyMcuDecodes :
    scan1.Inv ∧ scan1.err = false ∧ scan1.scanActive = true ∧ scan1.mcuIdx.toNat < scan1.mcuTotal.toNat ∧
    scan1 = afterBoundary scan1.sampledAlign scan1 ∧ scanIds scan1.scanCfg = [Comp.bits .c1] ∧
    inClass (scan1.huff .dc (scan1.cfg .c1).dcId) 7 7 ∧ inClass (scan1.huff .ac (scan1.cfg .c1).acId) 0 0 ∧
    (scan1.huff .dc (scan1.cfg .c1).dcId).symbol[(7 : Fin 162)].toNat = 7 ∧
    (scan1.huff .ac (scan1.cfg .c1).acId).symbol[(0 : Fin 162)] = 0 ∧
    payloadField scan1 scan1.cursor (7 + 1) =
      (scan1.huff .dc (scan1.cfg .c1).dcId).code[(7 : Fin 162)].toNat ∧
    payloadField scan1 (scan1.cursor + (7 + 1) + 7) (0 + 1) =
      (scan1.huff .ac (scan1.cfg .c1).acId).code[(0 : Fin 162)].toNat ∧
    scan1.cursor + (7 + 1) + 7 + (0 + 1) ≤ 8 * scan1.bsLen.toNat :=
  ⟨scan1_inv, rfl, rfl, by decide +kernel,
    (show afterBoundary scan1.sampledAlign scan1 = scan1 from if_neg (by decide +kernel)).symm,
    by unfold inClass; decide +kernel⟩

/-- Program P3, MCU 1: at a restart boundary the DC code is slot 5 of length 6, its field is 16. -/
theorem witness_DcOnlyMcuDecodes_restart :
    scan3.Inv ∧ scan3.err = false ∧ scan3.scanActive = true ∧ scan3.mcuIdx.toNat < scan3.mcuTotal.toNat ∧
    { scan3 with pred := Vector.replicate 3 0 } = afterBoundary scan3.sampledAlign scan3 ∧
    scanIds scan3.scanCfg = [Comp.bits .c1] ∧
    inClass (scan3.huff .dc (scan3.cfg .c1).dcId) 5 5 ∧ inClass (scan3.huff .ac (scan3.cfg .c1).acId) 0 0 ∧
    (scan3.huff .dc (scan3.cfg .c1).dcId).symbol[(5 : Fin 162)].toNat = 5 ∧
    payloadField scan3 scan3.cursor (5 + 1) =
      (scan3.huff .dc (scan3.cfg .c1).dcId).code[(5 : Fin 162)].toNat ∧
    payloadField scan3 (scan3.cursor + (5 + 1) + 5) (0 + 1) =
      (scan3.huff .ac (scan3.cfg .c1).acId).code[(0 : Fin 162)].toNat ∧
    scan3.cursor + (5 + 1) + 5 + (0 + 1) ≤ 8 * scan3.bsLen.toNat :=
  ⟨scan3_inv, rfl, rfl, by decide +kernel,
    (show afterBoundary scan3.sampledAlign scan3 = { scan3 with pred := Vector.replicate 3 0 } from
      (if_pos (by decide +kernel)).trans (if_neg (by decide +kernel))).symm,
    by unfold inClass; decide +kernel⟩

theorem witness_RestartForgetsPredictors :
    scan3.err = false ∧ scan3.scanActive = true ∧ scan3.mcuIdx.toNat < scan3.mcuTotal.toNat ∧
    scan3.restart ≠ 0 ∧ scan3.mcuIdx ≠ 0 ∧ scan3.mcuIdx.toNat % scan3.restart.toNat = 0 := by
  decide +kernel

theorem witness_DecodeMcuFrame :
    (∃ t, exec .decodeMcu scan1 = .next t ∧ (!t.err) = true) ∧ scan5.err = false ∧
    ∃ t, exec .decodeMcu scan5 = .next t ∧ t.err = true :=
  ⟨onNext_elim (p := fun t => !t.err) (by decide +kernel), rfl,
    onNext_elim (p := fun t => t.err) (by decide +kernel)⟩

theorem witness_CursorNeverGoesBack :
    Instr.decodeMcu ≠ .startScan ∧ Instr.decodeMcu ≠ .reset ∧
    ∃ t, exec .decodeMcu scan1 = .next t ∧ (t.byteIdx == 2) = true :=
  ⟨by decide, by decide, onNext_elim (p := fun t => t.byteIdx == 2) (by decide +kernel)⟩

theorem witness_BlockSamplesRule :
    ∀ i : Fin 64, i ≠ 0 →
      ((Vector.replicate 64 (0 : Half)).set 0 80)[i].toInt *
        (((Vector.replicate 64 (1 : Half)))[i].toNat : Int) = 0 := by
  decide +kernel

/-- A pixel at the corner of a gray tile and of a colour tile, and the first byte past the image. -/
theorem witness_ReconMcuRule :
    frozen.err = true ∧ scan1.err = false ∧ scan1.mcuPending = false ∧
    pending1.Inv ∧ pending1.err = false ∧ pending1.mcuPending = true ∧ pixInside pending1 63 ∧
    pending1.ncomp.toNat ≠ 3 ∧ Comp.bits .c1 = pending1.scanCfg.id0 ∧
    pending2.Inv ∧ pending2.err = false ∧ pending2.mcuPending = true ∧ pixInside pending2 63 ∧
    pending2.ncomp.toNat = 3 ∧
    (∀ p, pixInside pending1 p →
      192 ≠ pixAddr pending1 p ∧ 192 ≠ pixAddr pending1 p + 1 ∧ 192 ≠ pixAddr pending1 p + 2) := by
  refine ⟨rfl, rfl, rfl, pending1_inv, rfl, rfl, ?_, by decide +kernel, by decide +kernel, pending2_inv,
    rfl, rfl, ?_, by decide +kernel, fun p _ => ?_⟩
  · unfold pixInside; decide +kernel
  · unfold pixInside; decide +kernel
  · have h : ∀ q : Fin 64,
        192 ≠ pixAddr pending1 q ∧ 192 ≠ pixAddr pending1 q + 1 ∧ 192 ≠ pixAddr pending1 q + 2 := by
      decide +kernel
    exact h p

theorem witness_OutsideImageNeverWritten :
    (∃ t, exec .reconMcu pending1 = .next t ∧ (!t.err) = true) ∧
    (∃ t, exec .run scan1 = .next t ∧ (!t.err) = true) ∧
    3 * pending1.width.toNat * pending1.height.toNat ≤ 192 :=
  ⟨onNext_elim (p := fun t => !t.err) (by decide +kernel),
    onNext_elim (p := fun t => !t.err) (by decide +kernel), by decide +kernel⟩

theorem witness_EachPixelInOneTile :
    scan1.scanConfigured ∧ 7 < scan1.width.toNat ∧ 7 < scan1.height.toNat :=
  ⟨scan1_inv.scan.1 rfl, by decide +kernel, by decide +kernel⟩

theorem witness_RunIsRepeatedStepping :
    frozen.err = true ∧ p1.err = false ∧ p1.scanActive = false ∧
    ({ pending1 with mcuPending := false } : State).scanActive = true ∧
    ({ pending1 with mcuPending := false } : State).mcuTotal.toNat ≤ pending1.mcuIdx.toNat ∧
    pending1.err = false ∧ pending1.scanActive = true ∧ pending1.mcuPending = true ∧
    (∃ t, exec .reconMcu pending1 = .next t ∧ (!t.scanActive) = true) ∧
    scan1.err = false ∧ scan1.scanActive = true ∧ scan1.mcuPending = false ∧
    scan1.mcuIdx.toNat < scan1.mcuTotal.toNat ∧
    (∃ t, exec .decodeMcu scan1 = .next t ∧
      (!t.err && onNext (exec .reconMcu t) (fun u => !u.scanActive)) = true) ∧
    ∃ t, exec .decodeMcu scan5 = .next t ∧ t.err = true :=
  ⟨rfl, rfl, rfl, rfl, by decide +kernel, rfl, rfl, rfl, onNext_elim (p := fun t => !t.scanActive) (by decide +kernel), rfl, rfl, rfl,
    by decide +kernel,
    onNext_elim (p := fun t => !t.err && onNext (exec .reconMcu t) (fun u => !u.scanActive))
      (by decide +kernel),
    onNext_elim (p := fun t => t.err) (by decide +kernel)⟩

theorem witness_RunCompletes :
    scan1.Inv ∧ scan1.err = false ∧ scan1.scanActive = true ∧
    (∃ t, exec .run scan1 = .next t ∧ (!t.err) = true) ∧
    scan5.Inv ∧ scan5.err = false ∧ scan5.scanActive = true ∧
    ∃ t, exec .run scan5 = .next t ∧ t.err = true :=
  ⟨scan1_inv, rfl, rfl, onNext_elim (p := fun t => !t.err) (by decide +kernel), scan5_inv, rfl, rfl,
    onNext_elim (p := fun t => t.err) (by decide +kernel)⟩

theorem witness_RunReconstructsLastMcu :
    pending1.Inv ∧ pending1.err = false ∧ pending1.mcuPending = true ∧ pending1.mcuIdx = pending1.mcuTotal :=
  ⟨pending1_inv, rfl, rfl, by decide +kernel⟩

theorem witness_RunFrame :
    (∃ t, exec .run scan1 = .next t ∧ (t.mcuIdx == 1) = true) ∧
    (scan1.mcuPending = true → 192 ∉ tileBytes scan1 scan1.lastMcu.toNat) ∧
    (∀ m, scan1.mcuIdx.toNat ≤ m → m < 1 → 192 ∉ tileBytes scan1 m) := by
  refine ⟨onNext_elim (p := fun t => t.mcuIdx == 1) (by decide +kernel), (fun h => by cases h), fun m _ h => ?_⟩
  obtain rfl : m = 0 := by omega
  decide +kernel

theorem witness_UnsupportedAccessHasNoEffect :
    ((2 : Nat) ≠ 4) ∧ ((0x00E : Nat) % 4 ≠ 0) ∧
    ({ State.reset with resetIn := true } : State).resetIn = true ∧
    ((0x2FFFFFC : Nat) % 4 = 0 ∧ (0x2FFFFFC : Nat) < 0x3000000 ∧ State.reset.resetIn = false) := by decide

/-- The last word of each memory at the default parameters. -/
theorem witness_AddressMapRule :
    Params.default.legal = true ∧ 4 * 0x3FFFF < Params.default.bsBytes ∧
    4 * 0xFFFFF < Params.default.outBytes := by decide

/-- The first and the last word of each range. -/
theorem witness_ReservedWordsRule :
    State.reset.params.legal = true ∧ State.reset.resetIn = false ∧
    ∀ a ∈ [(0x068 : Nat), 0x3FC, 0x800, 0xFFC, 0x5300, 0xFFFFFC, 0x1100000, 0x1FFFFFC, 0x2400000, 0x2FFFFFC,
        0x1084, 0x10FC, 0x1388, 0x13FC, 0x1688, 0x17FC, 0x4FFC],
      a % 4 = 0 ∧
      ((0x068 ≤ a ∧ a < 0x400) ∨ (0x800 ≤ a ∧ a < 0x1000) ∨ (0x5300 ≤ a ∧ a < 0x1000000) ∨
        (0x1000000 + State.reset.params.bsBytes ≤ a ∧ a < 0x2000000) ∨
        (0x2000000 + State.reset.params.outBytes ≤ a ∧ a < 0x3000000) ∨
        (0x1000 ≤ a ∧ a < 0x5000 ∧
          ((0x084 ≤ a % 0x800 ∧ a % 0x800 < 0x100) ∨ (0x388 ≤ a % 0x800 ∧ a % 0x800 < 0x400) ∨
            0x688 ≤ a % 0x800))) := by
  decide

theorem witness_HostWriteOrder :
    State.reset.resetIn = false ∧ decodeAddr State.reset.params 0x004 = .ctrl ∧
    decodeAddr State.reset.params 0x008 = .status ∧ decodeAddr State.reset.params 0x00C = .cmd ∧
    readOnly (decodeAddr State.reset.params 0x048) ∧
    decodeAddr State.reset.params 0x2000004 = .outWord 1 ∧
    dataTarget (decodeAddr State.reset.params 0x010) ∧ dataTarget (decodeAddr State.reset.params 0x10FFFFC) ∧
    (0x2000004 : Nat) % 4 = 0 ∧ (0x2000004 : Nat) < 0x3000000 := by
  refine ⟨rfl, by decide, by decide, by decide, ?_, by decide, ?_, ?_, by decide⟩
  · rw [show decodeAddr State.reset.params 0x048 = .pred .c3 by decide]
    simp [readOnly]
  · rw [show decodeAddr State.reset.params 0x010 = .frameSize by decide]
    simp [dataTarget]
  · rw [show decodeAddr State.reset.params 0x10FFFFC = .bsWord 0x3FFFF by decide]
    simp [dataTarget]

/-- A reserved word, a busy and an idle core, and CMD among the words that are free draws while busy. -/
theorem witness_HostReadRule :
    State.reset.resetIn = false ∧ (latched 5 1 scan1).resetIn = false ∧
    (0x2FFFFFC : Nat) < 0x3000000 ∧ decodeAddr State.reset.params 0x2FFFFFC = .reserved ∧
    (latched 5 1 scan1).busy = true ∧
    decodeAddr (latched 5 1 scan1).params 0x00C ∉ [.id, .ctrl, .status, .paramBs, .paramOut, .reserved] ∧
    decodeAddr (latched 5 1 scan1).params 0x030 ∉ [.id, .ctrl, .status, .paramBs, .paramOut, .reserved] ∧
    scan1.busy = false ∧ scan1.params.legal = true ∧ 4 * 0x3FFFF < scan1.params.bsBytes ∧
    4 * 0xFFFFF < scan1.params.outBytes := by decide

theorem witness_writable : writable State.reset := ⟨rfl, rfl, rfl, rfl⟩

theorem witness_ConfigReadBack : State.reset.resetIn = false ∧ writable State.reset ∧ Comp.c1 ≠ .c3 :=
  ⟨rfl, witness_writable, by decide⟩

theorem witness_QtWindowRule : writable State.reset ∧ (0 : Fin 64) ≠ zz 63 ∧ (0 : TableId) ≠ 3 :=
  ⟨witness_writable, by decide⟩

theorem witness_HtWindowRule :
    writable State.reset ∧ ((HuffClass.dc, (0 : TableId)) ≠ (HuffClass.ac, (3 : TableId))) :=
  ⟨witness_writable, by decide⟩

/-- The last word of BS on a writable core; the last word of OUT on a frozen one. -/
theorem witness_MemoryWindowRule :
    State.reset.params.legal = true ∧ writable State.reset ∧ 4 * 0x3FFFF < State.reset.params.bsBytes ∧
    frozen.params.legal = true ∧ frozen.resetIn = false ∧ frozen.busy = false ∧
    4 * 0xFFFFF < frozen.params.outBytes :=
  ⟨by decide, witness_writable, by decide⟩

theorem witness_SignedWindowsRule : scan1.resetIn = false ∧ scan1.busy = false := by decide +kernel

theorem witness_PseudoExpansions :
    (List.replicate 64 (1 : Half)).length = 64 ∧ (List.replicate 16 (1 : Byte)).length = 16 := by decide

theorem witness_FrozenUntilReset :
    ({ frozen with program := [.wr 0x2000000 7] } : State).err = true ∧
    (∃ t, step { frozen with program := [.wr 0x2000000 7] } = .next t ∧ (t.outByte 0 == 7) = true) ∧
    ¬resetsNext { frozen with program := [.wr 0x2000000 7] } := by
  refine ⟨rfl, onNext_elim (p := fun t => t.outByte 0 == 7) (by decide +kernel), ?_⟩
  rintro (⟨l, h, _⟩ | ⟨_, _, _, r, h | h⟩ | ⟨_, r, h⟩) <;> cases h

theorem witness_ConfigLockedDuringScan :
    scan3.scanActive = true ∧
    ∃ t, step { scan3 with program := [.wr 0x010 0] } = .next t ∧ t.scanActive = true :=
  ⟨rfl, onNext_elim (p := fun t => t.scanActive) (by decide +kernel)⟩

/-- Each flag rises in some step. -/
theorem witness_FlagsChangeOnlyByTheirOperations_rise :
    (∃ t, step (latched 2 0 State.reset) = .next t ∧ t.qtSet 0 = true) ∧
    (∃ t, step (latched 3 0 State.reset) = .next t ∧ t.htSet .dc 0 = true) ∧
    (∃ t, step (latched 4 0 p1) = .next t ∧ t.scanActive = true) ∧
    (∃ t, step (latched 5 0 scan1) = .next t ∧ t.mcuPending = true) ∧
    (∃ t, step (latched 8 0 State.reset) = .next t ∧ (t.err && t.done) = true) ∧
    (∃ t, step { State.reset with program := [.wr 0x00C 5] } = .next t ∧ t.busy = true) ∧
    (∃ t, step { latched 5 2 scan1 with program := [.wr 0x00C 5] } = .next t ∧ t.hostViol = true) ∧
    (∃ t, step { latched 5 2 scan1 with program := [.wr 0x2000000 5] } = .next t ∧ t.hostViol = true) ∧
    (∃ t, step { scan1 with program := [.wr 0x010 5] } = .next t ∧ t.hostViol = true) :=
  ⟨onNext_elim (p := fun t => t.qtSet 0) (by decide +kernel),
    onNext_elim (p := fun t => t.htSet .dc 0) (by decide +kernel),
    onNext_elim (p := fun t => t.scanActive) (by decide +kernel),
    onNext_elim (p := fun t => t.mcuPending) (by decide +kernel),
    onNext_elim (p := fun t => t.err && t.done) (by decide +kernel),
    onNext_elim (p := fun t => t.busy) (by decide +kernel),
    onNext_elim (p := fun t => t.hostViol) (by decide +kernel),
    onNext_elim (p := fun t => t.hostViol) (by decide +kernel),
    onNext_elim (p := fun t => t.hostViol) (by decide +kernel)⟩

/-- Each flag falls in some step: BUSY at a completion; DONE at an acceptance and by writing 1; ERR by a RESET;
HOST_VIOL by writing 1; the scan's flags by RECON_MCU and by RUN, MCU_PENDING by START_SCAN too; the flags of
tables by writes of an entry, of the last count and of the last symbol. -/
theorem witness_FlagsChangeOnlyByTheirOperations_fall :
    (latched 8 0 State.reset).busy = true ∧ p1.done = true ∧ frozen.err = true ∧ pending1.scanActive = true ∧
    pending1.mcuPending = true ∧ p1.qtSet 0 = true ∧ p1.htSet .ac 0 = true ∧ p1.htSet .dc 0 = true ∧
    (∃ t, step (latched 8 0 State.reset) = .next t ∧ (!t.busy) = true) ∧
    (∃ t, step { p1 with program := [.wr 0x00C 4] } = .next t ∧ (!t.done) = true) ∧
    (∃ t, step { p1 with program := [.wr 0x008 2] } = .next t ∧ (!t.done) = true) ∧
    (∃ t, step { frozen with program := [.wr 0x00C 1] } = .next t ∧ (!t.err) = true) ∧
    (∃ t, step { p1 with hostViol := true, program := [.wr 0x008 8] } = .next t ∧ (!t.hostViol) = true) ∧
    (∃ t, step (latched 6 0 pending1) = .next t ∧ (!t.scanActive && !t.mcuPending) = true) ∧
    (∃ t, step (latched 7 0 pending1) = .next t ∧ (!t.scanActive && !t.mcuPending) = true) ∧
    (∃ t, step (latched 4 0 pending1) = .next t ∧ (!t.mcuPending) = true) ∧
    (∃ t, step { p1 with program := [.wr 0x4FC 1] } = .next t ∧ (!t.qtSet 0) = true) ∧
    (∃ t, step { p1 with program := [.wr 0x303C 1] } = .next t ∧ (!t.htSet .ac 0) = true) ∧
    (∃ t, step { p1 with program := [.wr 0x1384 1] } = .next t ∧ (!t.htSet .dc 0) = true) :=
  ⟨rfl, rfl, rfl, rfl, rfl, rfl, rfl, rfl,
    onNext_elim (p := fun t => !t.busy) (by decide +kernel),
    onNext_elim (p := fun t => !t.done) (by decide +kernel),
    onNext_elim (p := fun t => !t.done) (by decide +kernel),
    onNext_elim (p := fun t => !t.err) (by decide +kernel),
    onNext_elim (p := fun t => !t.hostViol) (by decide +kernel),
    onNext_elim (p := fun t => !t.scanActive && !t.mcuPending) (by decide +kernel),
    onNext_elim (p := fun t => !t.scanActive && !t.mcuPending) (by decide +kernel),
    onNext_elim (p := fun t => !t.mcuPending) (by decide +kernel),
    onNext_elim (p := fun t => !t.qtSet 0) (by decide +kernel),
    onNext_elim (p := fun t => !t.htSet .ac 0) (by decide +kernel),
    onNext_elim (p := fun t => !t.htSet .dc 0) (by decide +kernel)⟩

theorem witness_StepKeepsInvariant :
    scan1.Inv ∧ (latched 5 2 scan1).Inv ∧ frozen.Inv ∧
    ∃ t, step (latched 5 0 scan1) = .next t ∧ t.mcuPending = true :=
  ⟨scan1_inv, latched_inv, frozen_inv, onNext_elim (p := fun t => t.mcuPending) (by decide +kernel)⟩

theorem witness_NoFaultNoRefusal : pending2.Inv := pending2_inv

end Sys2Proof.Tests
end

section
/-! PROOFS. Host accesses to the configuration registers (O48). -/

namespace Sys2Proof.Machine

open Sys2Proof.Claims

/-! ## A register's word of a written word is the word masked to the fields (R42, R47, R48) -/

theorem ctrlWord_ctrlOfWord (v : Word) : ctrlWord (ctrlOfWord v) = v &&& 0x00000007#32 := by
  apply BitVec.eq_of_getLsbD_eq
  intro i hi
  change BitVec.getLsbD (w := 29 + 1 + 1 + 1) (ctrlWord (ctrlOfWord v)) i = _
  simp only [ctrlWord, ctrlOfWord, BitVec.getLsbD_append]
  interval_cases i <;> simp [-BitVec.getLsbD_eq_getElem]

theorem compCfgWord_compCfgOfWord (v : Word) :
    compCfgWord (compCfgOfWord v) = v &&& 0x00000333#32 := by
  have ofFin_toFin (x : BitVec 2) : BitVec.ofFin x.toFin = x := rfl
  apply BitVec.eq_of_getLsbD_eq
  intro i hi
  change BitVec.getLsbD (w := 22 + 2 + 2 + 2 + 2 + 2) (compCfgWord (compCfgOfWord v)) i = _
  simp only [compCfgWord, compCfgOfWord, ofFin_toFin, BitVec.getLsbD_append]
  interval_cases i <;> simp [-BitVec.getLsbD_eq_getElem]

theorem scanCfgWord_scanCfgOfWord (v : Word) :
    scanCfgWord (scanCfgOfWord v) = v &&& 0x00003337#32 := by
  apply BitVec.eq_of_getLsbD_eq
  intro i hi
  change BitVec.getLsbD (w := 18 + 2 + 2 + 2 + 2 + 2 + 1 + 3) (scanCfgWord (scanCfgOfWord v)) i = _
  simp only [scanCfgWord, scanCfgOfWord, BitVec.getLsbD_append]
  interval_cases i <;> simp [-BitVec.getLsbD_eq_getElem]

/-- The low `n` bits, zero-extended, are the word masked to them. -/
theorem setWidth_extractLsb'_zero (v : Word) (n : Nat) :
    (v.extractLsb' 0 n).setWidth 32 = v &&& BitVec.ofNat 32 (2 ^ n - 1) := by
  apply BitVec.eq_of_getLsbD_eq
  intro i hi
  simp [-BitVec.getLsbD_eq_getElem, BitVec.getLsbD_ofNat, Nat.testBit_two_pow_sub_one, hi,
    Bool.and_comm]

/-! ## Accesses the core answers (R100) -/

theorem busWrite_aligned {s : State} (hr : s.resetIn = false) {a : Nat} (ha : a % 4 = 0) (v : Word) :
    busWrite a 4 v s = (.completed, writeTarget (decodeAddr s.params a) v s) := by
  simp [busWrite, supported, hr, ha]

/-- A read of an idle core gives the word's current value (R107). -/
theorem busRead_idle {s : State} (hr : s.resetIn = false) (hb : s.busy = false) {a : Nat}
    (ha : a % 4 = 0) :
    busRead a 4 s = (.data (currentValue s (decodeAddr s.params a)), s) := by
  simp [busRead, supported, readTarget, hr, hb, ha]

/-- The register of each component's configuration (R47). -/
theorem decodeAddr_compCfg (p : Params) (c : Comp) :
    decodeAddr p (0x018 + 4 * c.idx.val) = .compCfg c := by
  cases c <;> rfl

/-- A data write to a writable core is applied (R106 point 5). -/
theorem dataWrite_writable {s : State} (h : writable s) (t : Target) (v : Word) :
    dataWrite t v s = applyData t v s := by
  obtain ⟨_, hb, he, ha⟩ := h
  unfold dataWrite
  split
  · simp_all
  · cases t <;> simp [he, ha]

/-- A data write keeps what decides whether an access is answered. -/
theorem applyData_access (t : Target) (v : Word) (s : State) :
    (applyData t v s).params = s.params ∧ (applyData t v s).resetIn = s.resetIn ∧
      (applyData t v s).busy = s.busy := by
  obtain ⟨hq, hl, _⟩ := applyData_quiet t v s
  refine ⟨?_, hq.resetIn, congrArg Option.isSome hl⟩
  cases t with
  | htCount c => cases c <;> rfl
  | htSymbol c => cases c <;> rfl
  | _ => rfl

/-- A configuration register: a data-write target whose word, read after a write to it is applied, is the
written word masked (R45 to R50). -/
def ReadsMasked (t : Target) (mask : Word) : Prop :=
  ∀ s v, writeTarget t v s = dataWrite t v s ∧ currentValue (applyData t v s) t = v &&& mask

theorem frameSize_readsMasked : ReadsMasked .frameSize 0xFFFFFFFF#32 := fun s v => ⟨rfl, by
  rw [show 0xFFFFFFFF#32 = BitVec.allOnes 32 from rfl, BitVec.and_allOnes]
  exact BitVec.extractLsb'_append_extractLsb' (w := 16) (len := 16)⟩

theorem frameNcomp_readsMasked : ReadsMasked .frameNcomp 0x00000007#32 := fun _ v =>
  ⟨rfl, setWidth_extractLsb'_zero v 3⟩

theorem compCfg_readsMasked (c : Comp) : ReadsMasked (.compCfg c) 0x00000333#32 := fun s v => ⟨rfl, by
  rw [← compCfgWord_compCfgOfWord]
  exact congrArg compCfgWord (withCfg_cfg s c (compCfgOfWord v))⟩

theorem scanCfg_readsMasked : ReadsMasked .scanCfg 0x00003337#32 := fun _ v =>
  ⟨rfl, scanCfgWord_scanCfgOfWord v⟩

theorem restart_readsMasked : ReadsMasked .restart 0x0000FFFF#32 := fun _ v =>
  ⟨rfl, setWidth_extractLsb'_zero v 16⟩

theorem bsLen_readsMasked : ReadsMasked .bsLen 0xFFFFFFFF#32 := fun _ v =>
  ⟨rfl, (BitVec.and_allOnes (x := v)).symm⟩

/-- A write of a configuration register that is applied (R106). -/
theorem ReadsMasked.busWrite {t : Target} {mask : Word} (h : ReadsMasked t mask) {s : State}
    (hw : writable s) {a : Nat} (ha : a % 4 = 0) (ht : decodeAddr s.params a = t) (v : Word) :
    Machine.busWrite a 4 v s = (.completed, applyData t v s) := by
  rw [busWrite_aligned hw.1 ha, ht, (h s v).1, dataWrite_writable hw]

/-- A configuration register reads back masked. -/
theorem ReadsMasked.readBack {t : Target} {mask : Word} (h : ReadsMasked t mask) {s : State}
    (hw : writable s) {a : Nat} (ha : a % 4 = 0) (ht : decodeAddr s.params a = t) (v : Word) :
    (busRead a 4 (Machine.busWrite a 4 v s).2).1 = .data (v &&& mask) := by
  obtain ⟨hp, hr, hb⟩ := applyData_access t v s
  rw [h.busWrite hw ha ht, busRead_idle (hr.trans hw.1) (hb.trans hw.2.1) ha, hp, ht, (h s v).2]

/-- Settles O48: CTRL is written and read whatever the core does; each other register is a target that
reads masked. -/
theorem configReadBack : Obligations.ConfigReadBack := by
  unfold Obligations.ConfigReadBack
  intro s v hr
  have hctrl : busWrite 0x004 4 v s = (.completed, { s with ctrl := ctrlOfWord v }) :=
    busWrite_aligned hr rfl v
  refine ⟨hctrl, ?_, fun hw => ⟨?_, ?_, fun c => ?_, ?_, ?_, ?_, ?_⟩⟩
  · rw [hctrl, ← ctrlWord_ctrlOfWord]
    simp [busRead, supported, hr, readTarget, decodeAddr, registerAt, readableBusy, currentValue]
  · exact frameSize_readsMasked.busWrite hw rfl rfl v
  · exact frameNcomp_readsMasked.busWrite hw rfl rfl v
  · refine ⟨_, (compCfg_readsMasked c).busWrite hw (by omega) (decodeAddr_compCfg _ c) v, rfl,
      fun d hd => withCfg_cfg_other s c d _ hd.symm, ?_⟩
    simp only [applyData, withCfg_cfg]
    exact ⟨rfl, rfl, rfl⟩
  · exact scanCfg_readsMasked.busWrite hw rfl rfl v
  · exact restart_readsMasked.busWrite hw rfl rfl v
  · exact bsLen_readsMasked.busWrite hw rfl rfl v
  · simp only [List.forall_mem_cons]
    exact ⟨frameSize_readsMasked.readBack hw rfl rfl v, frameNcomp_readsMasked.readBack hw rfl rfl v,
      (compCfg_readsMasked .c1).readBack hw rfl rfl v, (compCfg_readsMasked .c2).readBack hw rfl rfl v,
      (compCfg_readsMasked .c3).readBack hw rfl rfl v, scanCfg_readsMasked.readBack hw rfl rfl v,
      restart_readsMasked.readBack hw rfl rfl v, bsLen_readsMasked.readBack hw rfl rfl v,
      fun _ h => by cases h⟩

end Sys2Proof.Machine
end

section
/-! PROOFS. The decoder against the encoder. -/

namespace Sys2Proof.Machine

open Sys2Proof.Claims

/-! ## A word that decodes is the encoding of its instruction (R141 to R143) -/

@[simp] theorem ofBit_bit (b : Bool) : (HuffClass.ofBit b).bit = b := by cases b <;> rfl

/-- The bits of a command word: OP, T and C in their fields, every other bit zero (R141). -/
theorem getLsbD_commandWord (op : BitVec 8) (c : Bool) (t : BitVec 2) (i : Nat) :
    (commandWord op c t.toFin).getLsbD i =
      if i < 8 then op.getLsbD i else if i < 10 then t.getLsbD (i - 8)
      else (decide (i = 12) && c) := by
  have ofFin_toFin : BitVec.ofFin t.toFin = t := rfl
  change BitVec.getLsbD (w := 19 + 1 + 2 + 2 + 8) (commandWord op c t.toFin) i = _
  simp only [commandWord, ofFin_toFin, BitVec.getLsbD_append]
  grind

/-- A word whose bits outside T and C are those of OP is the command word of its own fields. -/
theorem eq_commandWord_of_and {w : Word} {op : BitVec 8}
    (h : w &&& 0xFFFFECFF#32 = op.setWidth 32) :
    w = commandWord op w.cField w.tField.toFin := by
  apply BitVec.eq_of_getLsbD_eq
  intro i hi
  have hbit : (w.getLsbD i && BitVec.getLsbD 0xFFFFECFF#32 i) = (op.setWidth 32).getLsbD i := by
    rw [← h, BitVec.getLsbD_and]
  clear h
  rw [getLsbD_commandWord]
  interval_cases i <;>
    simp_all [-BitVec.getLsbD_eq_getElem, Word.tField, Word.cField]

/-- A word that selects a row of R143 is the encoding of the row's instruction. -/
theorem eq_encode_of_selects {r : OpcodeRow} (hr : r ∈ opcodeTable) {w : Word}
    (h : w &&& r.mask = r.pattern) : w = encode (r.instr w) := by
  simp only [opcodeTable, List.mem_cons, List.not_mem_nil, or_false] at hr
  have hall (p : Word) (e : w &&& 0xFFFFFFFF#32 = p) : w = p := by
    rwa [show 0xFFFFFFFF#32 = BitVec.allOnes 32 from rfl, BitVec.and_allOnes] at e
  rcases hr with rfl | rfl | rfl | rfl | rfl | rfl | rfl | rfl
  case inr.inr.inl =>
    have hc : w.cField = false := by
      have := congrArg (BitVec.getLsbD · 12) h
      simpa [-BitVec.getLsbD_eq_getElem, Word.cField] using this
    have hw : w &&& 0xFFFFECFF#32 = BitVec.setWidth 32 (2#8) := by
      rw [show 0xFFFFECFF#32 = 0xFFFFFCFF#32 &&& 0xFFFFECFF#32 from rfl, ← BitVec.and_assoc, h]
      rfl
    have := eq_commandWord_of_and hw
    rwa [hc] at this
  case inr.inr.inr.inl =>
    have := eq_commandWord_of_and (op := 3) h
    simpa [encode, operandC, operandT] using this
  all_goals exact hall _ h

/-- A word decodes only to the instruction whose encoding it is (R143). -/
theorem eq_encode_of_decode {w : Word} {i : Instr} (h : decode w = .ok i) : w = encode i := by
  unfold decode at h
  split at h
  · rename_i r hr
    cases h
    have hsel : w &&& r.mask = r.pattern := by simpa [OpcodeRow.selects] using List.find?_some hr
    exact eq_encode_of_selects (List.mem_of_find?_eq_some hr) hsel
  · split at h <;> cases h

end Sys2Proof.Machine
end

section
/-! PROOFS. The flags of R68 as one record, and what the state's updates and the engine do to them. -/

namespace Sys2Proof.Machine

open Sys2Proof.Claims

/-! ## The flags of a state -/

/-- The eight kinds of flag of R68. -/
structure Flags where
  qt : TableId → Bool
  ht : HuffClass → TableId → Bool
  scanActive : Bool
  mcuPending : Bool
  err : Bool
  done : Bool
  busy : Bool
  hostViol : Bool

/-- The flags of a state, as STATUS and TABLE_SET show them (R43, R56). -/
def State.flags (s : State) : Flags :=
  { qt := s.qtSet, ht := s.htSet, scanActive := s.scanActive, mcuPending := s.mcuPending, err := s.err
    done := s.done, busy := s.busy, hostViol := s.hostViol }

/-- Every flag 0, as a reset leaves them (R700). -/
def Flags.clear : Flags :=
  { qt := fun _ => false, ht := fun _ _ => false, scanActive := false, mcuPending := false, err := false
    done := false, busy := false, hostViol := false }

/-- A command has completed (R504). -/
def Flags.ended (f : Flags) : Flags := { f with busy := false, done := true }

/-- The flag of quantization table `t` is `b`. -/
def Flags.setQt (f : Flags) (t : TableId) (b : Bool) : Flags :=
  { f with qt := fun u => if t = u then b else f.qt u }

/-- The flag of Huffman table (c, t) is `b`. -/
def Flags.setHt (f : Flags) (c : HuffClass) (t : TableId) (b : Bool) : Flags :=
  { f with ht := fun d u => if c = d ∧ t = u then b else f.ht d u }

theorem flags_withQt (s : State) (t : TableId) (q : QuantTable) :
    (s.withQt t q).flags = s.flags.setQt t q.set := by
  have hqt : (s.withQt t q).qtSet = (s.flags.setQt t q.set).qt := by
    funext u
    by_cases h : t = u
    · subst h
      exact (congrArg QuantTable.set (withQt_get s t q)).trans (if_pos rfl).symm
    · exact (congrArg QuantTable.set (withQt_get_other s t u q h)).trans (if_neg h).symm
  simp only [State.flags, hqt]
  rfl

theorem flags_withHuff (s : State) (c : HuffClass) (t : TableId) (h : HuffTable) :
    (s.withHuff c t h).flags = s.flags.setHt c t h.set := by
  have hht : (s.withHuff c t h).htSet = (s.flags.setHt c t h.set).ht := by
    funext d u
    simp only [State.htSet, huff_withHuff, Flags.setHt, State.flags]
    split <;> rfl
  have hqt : (s.withHuff c t h).qtSet = s.qtSet := by cases c <;> rfl
  simp [State.flags, hht, hqt, State.busy, Flags.setHt]

theorem flags_resetState (s : State) : (resetState s).flags = Flags.clear := by
  have hqt : (resetState s).qtSet = fun _ => false := by
    funext t; simp [State.qtSet, QuantTable.reset]
  have hht : (resetState s).htSet = fun _ _ => false := by
    funext c t; cases c <;> simp [State.htSet, State.huff, HuffTable.reset]
  simp [State.flags, hqt, hht, State.busy, Flags.clear]

/-- A part of a RUN moves SCAN_ACTIVE and MCU_PENDING only (R503). -/
theorem RunFrame.flags {s t : State} (h : RunFrame s t) :
    t.flags = { s.flags with scanActive := t.scanActive, mcuPending := t.mcuPending } := by
  unfold RunFrame at h; rw [h]; rfl

theorem DecodeStep.flags {s t : State} (h : DecodeStep s t) : t.flags = s.flags := by
  rw [h.frame]; rfl

theorem passTurn_flags (s : State) : (passTurn s).flags = s.flags := by
  have hb := passTurn_busy s
  rw [passTurn_frame] at hb ⊢
  simp only [State.flags, hb]
  rfl

/-! ## The two flags of a scan in a RECON_MCU or RUN -/

/-- Reconstruction stops with a model fault only (R413). -/
theorem writeTile_errors (s0 : State) (src : PixelSource) (m : Nat) (ps : List (Fin 64)) (s : State) :
    ErrorsIn [] (writeTile s0 src m ps s) := by
  have houtWrite (a : Nat) (v : Byte) (u : State) : ErrorsIn [] (outWrite a v u) := by
    unfold outWrite; split
    · exact errorsIn_done _ _ _
    · exact errorsIn_fault _ _ _
  induction ps generalizing s with
  | nil => exact errorsIn_done _ _ _
  | cons p rest ih =>
    unfold writeTile; split
    · refine errorsIn_andThen ?_ fun _ t _ => ih t
      exact errorsIn_andThen (houtWrite _ _ _) fun _ _ _ =>
        errorsIn_andThen (houtWrite _ _ _) fun _ _ _ => houtWrite _ _ _
    · exact ih s

/-- RECON_MCU's body raises no error while an MCU is pending (R413). -/
theorem reconMcuBody_errors {s : State} (hp : s.mcuPending = true) : ErrorsIn [] (reconMcuBody s) := by
  unfold reconMcuBody
  rw [if_neg (by simp [hp])]
  split
  · exact errorsIn_fault _ _ _
  · split
    · exact errorsIn_fault _ _ _
    · exact errorsIn_andThen (writeTile_errors _ _ _ _ _) fun _ _ _ => errorsIn_done _ _ _

/-- RECON_MCU's body leaves no MCU pending (R413). -/
theorem reconMcuBody_notPending {s u : State} (h : reconMcuBody s = .done () u) :
    u.mcuPending = false := by
  unfold reconMcuBody at h
  split at h
  · cases h
  · split at h
    · cases h
    · split at h
      · cases h
      · obtain ⟨_, t, _, ht⟩ := andThen_eq_done.1 h
        cases ht; rfl

/-- A stop that is no error concludes in no next state. -/
theorem ErrorsIn.not_next {r : Res Unit} {e : Stop} {u t : State} (h : ErrorsIn [] r)
    (hr : r = .stop e u) : conclude r ≠ .next t := by
  intro hc
  rcases conclude_next hc with ⟨_, hd, _⟩ | ⟨c, b, v, hs, _⟩
  · cases hr.symm.trans hd
  · cases h c b v hs

/-- RECON_MCU's body ends with no MCU pending, if it does not meet a model fault. -/
theorem reconMcuBody_ends {s t : State} (h : s.mcuPending = false)
    (hc : conclude (reconMcuBody s) = .next t) : t.mcuPending = false := by
  unfold reconMcuBody at hc
  rw [if_pos h] at hc
  cases hc; exact h

/-- RUN's loop decodes and reconstructs each MCU, so it ends with none pending if it began so (R503). -/
theorem runLoop_ends (align : Bool) (n : Nat) {s t : State} (h : s.mcuPending = false)
    (hc : conclude (runLoop align n s) = .next t) : t.mcuPending = false := by
  induction n generalizing s with
  | zero => cases hc; exact h
  | succ m ih =>
    unfold runLoop at hc
    split at hc
    · rcases decodeMcuBody_cases align s with ⟨_, e⟩ | ⟨_, _, ⟨x, u, _, hs, e⟩ | ⟨u, _, _, e⟩⟩ <;>
        rw [e] at hc
      · cases hc; exact h
      · have hu : u.mcuPending = false := by rw [hs.frame]; exact h
        rcases conclude_next hc with ⟨_, hd, _⟩ | ⟨_, _, _, hd, rfl⟩ <;> cases hd
        exact hu
      · rw [andThen_done] at hc
        cases hr : reconMcuBody
            { u with lastMcu := s.mcuIdx, mcuIdx := s.mcuIdx + 1, mcuPending := true } with
        | stop x v =>
          rw [hr, andThen_stop, ← hr] at hc
          exact absurd hc ((reconMcuBody_errors rfl).not_next hr)
        | done a v =>
          rw [hr, andThen_done] at hc
          exact ih (reconMcuBody_notPending hr) hc
    · cases hc; exact h

theorem runBody_ends (align : Bool) {s t : State} (h : s.mcuPending = false)
    (hc : conclude (runBody align s) = .next t) : t.mcuPending = false := by
  unfold runBody runPending at hc
  rw [if_neg (show ¬s.mcuPending = true by simp [h])] at hc
  split at hc
  · cases hc; exact h
  · exact runLoop_ends align _ h hc

/-- No part of a RUN begins a scan (R503). -/
def NoScanBegins (s t : State) : Prop := t.scanActive = true → s.scanActive = true

theorem NoScanBegins.trans {s t u : State} (h : NoScanBegins s t) (k : NoScanBegins t u) :
    NoScanBegins s u := h ∘ k

theorem reconMcuBody_noScanBegins (s : State) : NoScanBegins s (reconMcuBody s).state := by
  have hw (src : PixelSource) :
      (writeTile s src s.lastMcu.toNat (List.finRange 64) s).state.scanActive = s.scanActive := by
    have := writeTile_only s src s.lastMcu.toNat (List.finRange 64) s
    unfold OutOnly at this; rw [this]
  unfold NoScanBegins
  rcases reconMcuBody_cases s with e | ⟨src, _, _, e | e⟩ <;> rw [e]
  · exact id
  · rw [hw]; exact id
  · simp [finishRecon, hw src]; exact fun h _ => h

theorem runLoop_noScanBegins (align : Bool) (n : Nat) (s : State) :
    NoScanBegins s (runLoop align n s).state := by
  induction n generalizing s with
  | zero => exact id
  | succ m ih =>
    have hd : NoScanBegins s (decodeMcuBody align s).state := by
      have := decodeMcuBody_frame align s
      unfold McuFrame at this; rw [this]; exact id
    unfold runLoop
    split
    · exact andThen_rel (R := NoScanBegins) NoScanBegins.trans hd fun _ t _ =>
        andThen_rel (R := NoScanBegins) NoScanBegins.trans (reconMcuBody_noScanBegins t) fun _ u _ => ih u
    · exact id

theorem runBody_noScanBegins (align : Bool) (s : State) : NoScanBegins s (runBody align s).state := by
  unfold runBody; split
  · exact id
  · refine andThen_rel (R := NoScanBegins) NoScanBegins.trans ?_
      fun _ t _ => runLoop_noScanBegins align _ t
    unfold runPending; split
    · exact reconMcuBody_noScanBegins s
    · exact id

end Sys2Proof.Machine
end

section
/-! PROOFS. The operations of R68, one step each, and how each moves each flag (O57). -/

namespace Sys2Proof.Machine

open Sys2Proof.Claims

/-! ## What one step does to the flags -/

/-- The error record is that of an error entry at a completion (R603). -/
def IsRaised (t : State) : Prop := t.errCode ∈ errorBytes ∧ t = raised t.errCode t.errComp t

theorem isRaised_errorEntry (c : ErrCode) (b : BitVec 2) (s : State) : IsRaised (errorEntry c b s) :=
  ⟨errorByte_mem c, rfl⟩

/-- A host write that R106 or R504 ignores as a violation: a command word or a data write while BUSY, or a
data write to something other than OUT during a scan. -/
def Violates (s : State) (a : Nat) (v : Word) : Prop :=
  (a = 0x00C ∧ v ≠ 0x00000001#32 ∧ s.busy = true) ∨
  ((dataTarget (decodeAddr s.params a) ∨ ∃ w, decodeAddr s.params a = .outWord w) ∧ s.busy = true) ∨
  (dataTarget (decodeAddr s.params a) ∧ s.busy = false ∧ s.err = false ∧ s.scanActive = true)

/-- The operations a step from `s` to `t` can be, each with the flags it leaves: the rows of R68. -/
inductive FlagStep (s t : State) : Prop where
  | quiet (e : t.flags = s.flags)
  | resets (h : resetsNext s) (e : t.flags = Flags.clear)
  | ends (w : Word) (hc : completesNext s w) (hw : w ≠ 0x00000001#32) (e : t.flags = s.flags.ended)
  | fails (w : Word) (hc : completesNext s w) (hw : w ≠ 0x00000001#32) (hr : IsRaised t)
      (e : t.flags = { s.flags.ended with err := true })
  | setsQt (k : TableId) (hc : completesNext s (encode (.setQt k)))
      (e : t.flags = s.flags.ended.setQt k true)
  | buildsHt (c : HuffClass) (k : TableId) (hc : completesNext s (encode (.buildHt c k)))
      (e : t.flags = s.flags.ended.setHt c k true)
  | startsScan (hc : completesNext s 0x00000004#32) (he : s.err = false)
      (e : t.flags = { s.flags.ended with scanActive := true, mcuPending := false })
  | decodesMcu (hc : completesNext s 0x00000005#32)
      (e : t.flags = { s.flags.ended with mcuPending := true })
  | recons (w : Word) (hc : completesNext s w) (hw : w = 0x00000006#32 ∨ w = 0x00000007#32)
      (he : s.err = false) (hr : t.err = true → IsRaised t)
      (hp : s.mcuPending = false → t.mcuPending = false)
      (ha : t.scanActive = true → s.scanActive = true) (ho : s.scanActive = true → ScanOver t)
      (e : t.flags = { s.flags.ended with
        scanActive := t.scanActive, mcuPending := t.mcuPending, err := t.err })
  | accepts (w : Word) (h : writesNext s 0x00C w) (hw : w ≠ 0x00000001#32) (hb : s.busy = false)
      (e : t.flags = { s.flags with busy := true, done := false })
  | violates (a : Nat) (v : Word) (h : writesNext s a v) (hv : Violates s a v)
      (e : t.flags = { s.flags with hostViol := true })
  | writesStatus (v : Word) (h : writesNext s 0x008 v)
      (e : t.flags = { s.flags with
        done := s.done && !v.getLsbD 1, hostViol := s.hostViol && !v.getLsbD 3 })
  | writesQt (a : Nat) (v : Word) (k : TableId) (j : Fin 64) (h : writesNext s a v) (hw : writable s)
      (hd : decodeAddr s.params a = .qtEntry k j) (e : t.flags = s.flags.setQt k false)
  | writesHt (a : Nat) (v : Word) (c : HuffClass) (k : TableId) (h : writesNext s a v) (hw : writable s)
      (hd : (∃ l, decodeAddr s.params a = .htCount c k l) ∨ ∃ i, decodeAddr s.params a = .htSymbol c k i)
      (e : t.flags = s.flags.setHt c k false)

/-! ### Completions -/

theorem encode_ne_reset {i : Instr} (h : i ≠ .reset) : encode i ≠ 0x00000001#32 := by
  have hqt : ∀ k, encode (.setQt k) ≠ 0x00000001#32 := by decide
  have hht : ∀ b k, encode (.buildHt (.ofBit b) k) ≠ 0x00000001#32 := by decide
  cases i with
  | reset => exact absurd rfl h
  | setQt k => exact hqt k
  | buildHt c k => cases c; exacts [hht false k, hht true k]
  | _ => decide

/-- A command whose errors leave the flags alone is a no-op while frozen or an error entry, or does what
its body does. -/
theorem flagStep_unlessFrozen {w : Word} {body : State → Res Unit} {s t : State}
    (hc : completesNext s w) (hw : w ≠ 0x00000001#32) (h : unlessFrozen body s = .next t)
    (hstop : ∀ c b u, body s = .stop (.error c b) u → u.flags = s.flags)
    (hdone : s.err = false → ∀ u, body s = .done () u → FlagStep s (complete u)) : FlagStep s t := by
  rcases unlessFrozen_next h with ⟨_, rfl⟩ | ⟨he, u, hu, rfl⟩ | ⟨he, c, b, u, hu, rfl⟩
  · exact .ends w hc hw rfl
  · exact hdone he u hu
  · refine .fails w hc hw (isRaised_errorEntry c b u) ?_
    rw [← hstop c b u hu]; rfl

theorem flagStep_nop {s t : State} (hc : completesNext s (encode .nop)) (h : execNop s = .next t) :
    FlagStep s t :=
  flagStep_unlessFrozen hc (by decide) h (fun _ _ _ e => by cases e)
    fun _ u e => by cases e; exact .ends _ hc (by decide) rfl

theorem flagStep_illegal {w : Word} {s t : State} (hc : completesNext s w) (hw : w ≠ 0x00000001#32)
    (h : execIllegal s = .next t) : FlagStep s t :=
  flagStep_unlessFrozen hc hw h (fun _ _ _ e => by cases e; rfl) fun _ _ e => by cases e

theorem flagStep_setQt {k : TableId} {s t : State} (hc : completesNext s (encode (.setQt k)))
    (h : execSetQt k s = .next t) : FlagStep s t := by
  refine flagStep_unlessFrozen hc (encode_ne_reset (by simp)) h (fun c b u e => ?_) fun _ u e => ?_ <;>
    unfold unlessScanning at e <;> split at e <;> cases e
  · rfl
  · exact .setsQt k hc (congrArg Flags.ended (flags_withQt s k _))

theorem flagStep_buildHt {c : HuffClass} {k : TableId} {s t : State}
    (hc : completesNext s (encode (.buildHt c k))) (h : execBuildHt c k s = .next t) : FlagStep s t := by
  refine flagStep_unlessFrozen hc (encode_ne_reset (by simp)) h (fun _ b u e => ?_) fun _ u e => ?_ <;>
    unfold unlessScanning buildHtBody at e <;> split at e
  · cases e; rfl
  · split at e <;> cases e; rfl
  · cases e
  · split at e <;> cases e
    exact .buildsHt c k hc (congrArg Flags.ended (flags_withHuff s c k _))

theorem flagStep_startScan {s t : State} (hc : completesNext s (encode .startScan))
    (h : execStartScan s = .next t) : FlagStep s t := by
  refine flagStep_unlessFrozen hc (by decide) h (fun c b u e => ?_) fun he u e => ?_ <;>
    unfold startScanBody at e <;> split at e <;> cases e
  · rfl
  · exact .startsScan hc he rfl

theorem flagStep_decodeMcu {s t : State} (hc : completesNext s (encode .decodeMcu))
    (h : execDecodeMcu s = .next t) : FlagStep s t := by
  refine flagStep_unlessFrozen hc (by decide) h (fun c b u e => ?_) fun _ u e => ?_ <;>
    rcases decodeMcuBody_cases s.sampledAlign s with ⟨_, e'⟩ | ⟨_, _, ⟨_, v, _, hs, e'⟩ | ⟨v, _, hs, e'⟩⟩ <;>
    cases e'.symm.trans e
  · rfl
  · exact hs.flags
  · exact .decodesMcu hc (by rw [← hs.flags]; rfl)

/-- RECON_MCU and RUN, from what their bodies do to the two flags of the scan. -/
theorem flagStep_recons {w : Word} {body : State → Res Unit} {s t : State} (hc : completesNext s w)
    (hw : w = 0x00000006#32 ∨ w = 0x00000007#32) (h : unlessFrozen body s = .next t)
    (hf : RunFrame s (body s).state)
    (hp : s.mcuPending = false → conclude (body s) = .next t → t.mcuPending = false)
    (ha : NoScanBegins s (body s).state) (ho : s.scanActive = true → ScanOver (body s).state) :
    FlagStep s t := by
  have hw1 : w ≠ 0x00000001#32 := by rcases hw with rfl | rfl <;> decide
  rcases unlessFrozen_next h with ⟨_, rfl⟩ | ⟨he, u, hu, rfl⟩ | ⟨he, c, b, u, hu, rfl⟩
  · exact .ends w hc hw1 rfl
  · rw [hu] at hf hp ha ho
    have herr : u.err = s.err := congrArg Flags.err hf.flags
    refine .recons w hc hw he (fun hr => by cases (herr.trans he).symm.trans hr) (fun h0 => hp h0 rfl)
      ha ho ?_
    exact (congrArg Flags.ended hf.flags).trans (by simp [Flags.ended, State.flags, herr])
  · rw [hu] at hf hp ha ho
    refine .recons w hc hw he (fun _ => isRaised_errorEntry c b u) (fun h0 => hp h0 rfl) ha ho ?_
    exact congrArg (fun f => { Flags.ended f with err := true }) hf.flags

/-- The completion of a command word. -/
theorem flagStep_runWord {w : Word} {s t : State} (hc : completesNext s w) (h : runWord w s = .next t) :
    FlagStep s t := by
  unfold runWord at h
  cases hd : decode w with
  | error x =>
    rw [hd] at h
    have hreset : decode 0x00000001#32 = .ok .reset := by decide
    exact flagStep_illegal hc (by rintro rfl; cases hreset.symm.trans hd) h
  | ok i =>
    rw [hd] at h
    have hw := eq_encode_of_decode hd
    subst hw
    cases i with
    | nop => exact flagStep_nop hc h
    | reset => cases h; exact .resets (.inl hc) (flags_resetState _)
    | setQt k => exact flagStep_setQt hc h
    | buildHt c k => exact flagStep_buildHt hc h
    | startScan => exact flagStep_startScan hc h
    | decodeMcu => exact flagStep_decodeMcu hc h
    | reconMcu =>
      exact flagStep_recons hc (.inl rfl) h (reconMcuBody_runFrame s) reconMcuBody_ends
        (reconMcuBody_noScanBegins s) (reconMcuBody_over s)
    | run =>
      exact flagStep_recons hc (.inr rfl) h (runBody_frame _ s) (runBody_ends _)
        (runBody_noScanBegins _ s) (runBody_over _ s)

/-! ### Turns of the host -/

theorem flagStep_acceptCommand {s q t : State} {v : Word} (h : writesNext s 0x00C v)
    (hq : q.flags = s.flags) (ht : t.flags = (acceptCommand v q).flags) : FlagStep s t := by
  have hbusy : q.busy = s.busy := congrArg Flags.busy hq
  unfold acceptCommand at ht
  split at ht
  case isTrue hv => exact .resets (.inr (.inl (hv ▸ h))) (ht.trans (flags_resetState _))
  case isFalse hv =>
    split at ht
    case isTrue hb =>
      exact .violates _ v h (.inl ⟨rfl, hv, hbusy ▸ hb⟩) (by rw [ht, ← hq]; rfl)
    case isFalse hb =>
      refine .accepts v h hv (by simpa [hbusy] using hb) ?_
      rw [ht, ← hq]
      split <;> rfl

/-- An applied data write clears a table's flag or moves none (R108, R109). -/
theorem flagStep_applyData {s q t : State} {a : Nat} {v : Word} (h : writesNext s a v)
    (hq : q.flags = s.flags) (hw : writable s ∨ ∃ w, decodeAddr s.params a = .outWord w)
    (ht : t.flags = (applyData (decodeAddr s.params a) v q).flags) : FlagStep s t := by
  cases hd : decodeAddr s.params a with
  | qtEntry k j =>
    rw [hd] at ht
    exact .writesQt a v k j h (hw.resolve_right (by simp [hd])) hd (by rw [ht, applyData, flags_withQt, hq])
  | htCount c k l =>
    rw [hd] at ht
    exact .writesHt a v c k h (hw.resolve_right (by simp [hd])) (.inl ⟨l, hd⟩)
      (by rw [ht, applyData, flags_withHuff, hq])
  | htSymbol c k i =>
    rw [hd] at ht
    exact .writesHt a v c k h (hw.resolve_right (by simp [hd])) (.inr ⟨i, hd⟩)
      (by rw [ht, applyData, flags_withHuff, hq])
  | _ => rw [hd] at ht; exact .quiet (ht.trans hq)

/-- A data write is ignored, a violation or applied (R106 point 5). -/
theorem flagStep_dataWrite {s q t : State} {a : Nat} {v : Word} (h : writesNext s a v)
    (hq : q.flags = s.flags)
    (hd : dataTarget (decodeAddr s.params a) ∨ ∃ w, decodeAddr s.params a = .outWord w)
    (ht : t.flags = (dataWrite (decodeAddr s.params a) v q).flags) : FlagStep s t := by
  have ⟨_, hr, _⟩ := h
  have hbusy : q.busy = s.busy := congrArg Flags.busy hq
  have herr : q.err = s.err := congrArg Flags.err hq
  have hscan : q.scanActive = s.scanActive := congrArg Flags.scanActive hq
  have hviol (hv : Violates s a v) (e : t.flags = (hostViolation q).flags) : FlagStep s t :=
    .violates a v h hv (by rw [e, ← hq]; rfl)
  unfold dataWrite at ht
  rw [hbusy, herr, hscan] at ht
  split at ht
  case isTrue hb => exact hviol (.inr (.inl ⟨hd, hb⟩)) ht
  case isFalse hb =>
    have hb := Bool.eq_false_iff.2 hb
    split at ht
    · rename_i w hw
      exact flagStep_applyData h hq (.inr ⟨w, hw⟩) (hw ▸ ht)
    · rename_i hno
      split at ht
      · exact .quiet (ht.trans hq)
      · rename_i he
        have he := Bool.eq_false_iff.2 he
        have hd := hd.resolve_right (fun ⟨w, hw⟩ => hno w hw)
        split at ht
        · rename_i ha
          exact hviol (.inr (.inr ⟨hd, hb, he, ha⟩)) ht
        · rename_i ha
          exact flagStep_applyData h hq (.inl ⟨hr, hb, he, Bool.eq_false_iff.2 ha⟩) ht

/-- Every word is one of those R106 decides on. -/
theorem target_cases (t : Target) : t = .ctrl ∨ t = .status ∨ t = .cmd ∨ readOnly t ∨
    (dataTarget t ∨ ∃ w, t = .outWord w) := by
  cases t <;> simp [readOnly, dataTarget]

theorem writeTarget_readOnly {t : Target} (h : readOnly t) (v : Word) (s : State) :
    writeTarget t v s = s := by
  rcases h with rfl | rfl | rfl | rfl | rfl | ⟨_, rfl⟩ | rfl | rfl | rfl | rfl | rfl | rfl | rfl |
    ⟨_, _, _, rfl⟩ | ⟨_, _, _, rfl⟩ | ⟨_, _, rfl⟩ | rfl <;> rfl

theorem writeTarget_data {t : Target} (h : dataTarget t ∨ ∃ w, t = .outWord w) (v : Word) (s : State) :
    writeTarget t v s = dataWrite t v s := by
  rcases h with (rfl | rfl | ⟨_, rfl⟩ | rfl | rfl | rfl | ⟨_, _, rfl⟩ | ⟨_, _, _, rfl⟩ | ⟨_, _, _, rfl⟩ |
    ⟨_, rfl⟩) | ⟨_, rfl⟩ <;> rfl

/-- A host write of a word (R106). -/
theorem flagStep_writeTarget {s q t : State} {a : Nat} {v : Word} (h : writesNext s a v)
    (hq : q.flags = s.flags) (ht : t.flags = (writeTarget (decodeAddr s.params a) v q).flags) :
    FlagStep s t := by
  have ⟨_, _, haligned, _⟩ := h
  obtain ⟨hcmd, hstatus⟩ := decodeAddr_low (p := s.params) haligned
  rcases target_cases (decodeAddr s.params a) with hd | hd | hd | hd | hd
  · rw [hd] at ht; exact .quiet (ht.trans hq)
  · rw [hd] at ht
    refine .writesStatus v (hstatus hd ▸ h) ?_
    rw [ht, ← hq, show s.done = q.done from (congrArg Flags.done hq).symm,
      show s.hostViol = q.hostViol from (congrArg Flags.hostViol hq).symm]
    rfl
  · rw [hd] at ht; exact flagStep_acceptCommand (hcmd hd ▸ h) hq ht
  · rw [writeTarget_readOnly hd] at ht; exact .quiet (ht.trans hq)
  · rw [writeTarget_data hd] at ht; exact flagStep_dataWrite h hq hd ht

/-- Asserting the reset input clears every flag (R700). -/
theorem flags_assertReset (s : State) : (setResetPin true s).flags = Flags.clear := flags_resetState s

/-- A turn of the host (R100, R146, R700). -/
theorem flagStep_hostTurn {s t : State} (hm : hostMoves s) (h : t = hostTurn (passTurn s)) :
    FlagStep s t := by
  have hq := passTurn_flags s
  have hframe := passTurn_frame s
  have hparams : (passTurn s).params = s.params := by rw [hframe]
  have hreset : (passTurn s).resetIn = s.resetIn := by rw [hframe]
  have hprogram : (passTurn s).program = s.program := by rw [hframe]
  obtain ⟨u, e, hu⟩ := hostTurn_cases (passTurn s)
  have ht : t.flags = u.flags := by rw [h, e]; rfl
  rw [hparams, hreset, hprogram] at hu
  rcases hu with rfl | ⟨a, v, rest, hr, ha, hp, rfl⟩ | rfl | ⟨b, rest, hp, rfl⟩
  · exact .quiet (ht.trans hq)
  · refine flagStep_writeTarget ⟨hm, hr, ha, rest, hp⟩ ?_ ht
    exact hq
  · exact .quiet (ht.trans hq)
  · cases b with
    | true => exact .resets (.inr (.inr ⟨hm, rest, hp⟩)) (ht.trans (flags_assertReset _))
    | false => exact .quiet (ht.trans hq)

/-- Every step is one of the operations of R68. -/
theorem flagStep_step {s t : State} (h : step s = .next t) : FlagStep s t := by
  rcases step_next h with ⟨l, hl, hd, hr⟩ | ⟨hm, ht⟩
  · exact flagStep_runWord ⟨l, hl, hd, rfl⟩ hr
  · exact flagStep_hostTurn hm ht

/-! ## How each flag moves -/

/-- A flag that is `b` before and `b'` after rises only by `rise` and falls only by `fall`. -/
def Moves (b b' : Bool) (rise fall : Prop) : Prop :=
  (b = false → b' = true → rise) ∧ (b = true → b' = false → fall)

theorem Moves.kept {b b' : Bool} {rise fall : Prop} (e : b' = b) : Moves b b' rise fall := by
  subst e; exact ⟨fun h0 h1 => (by cases h0.symm.trans h1), fun h1 h0 => (by cases h0.symm.trans h1)⟩

theorem Moves.up {b b' : Bool} {rise fall : Prop} (e : b' = true) (h : rise) : Moves b b' rise fall :=
  ⟨fun _ _ => h, fun _ h0 => (by cases e.symm.trans h0)⟩

theorem Moves.down {b b' : Bool} {rise fall : Prop} (e : b' = false) (h : fall) : Moves b b' rise fall :=
  ⟨fun _ h1 => (by cases e.symm.trans h1), fun _ _ => h⟩

theorem FlagStep.qtSet {s t : State} (h : FlagStep s t) (k : TableId) :
    Moves (s.qtSet k) (t.qtSet k) (completesNext s (encode (.setQt k)))
      ((∃ a v j, writesNext s a v ∧ writable s ∧ decodeAddr s.params a = .qtEntry k j) ∨ resetsNext s) := by
  cases h with
  | resets h e => exact .down (congrArg (fun f => f.qt k) e) (.inr h)
  | setsQt i hc e =>
    have e := congrArg (fun f => f.qt k) e
    by_cases hk : i = k
    · subst hk; exact .up (e.trans (if_pos rfl)) hc
    · exact .kept (e.trans (if_neg hk))
  | writesQt a v i j h hw hd e =>
    have e := congrArg (fun f => f.qt k) e
    by_cases hk : i = k
    · subst hk; exact .down (e.trans (if_pos rfl)) (.inl ⟨a, v, j, h, hw, hd⟩)
    · exact .kept (e.trans (if_neg hk))
  | _ => rename_i e; exact .kept (congrArg (fun f => f.qt k) e)

theorem FlagStep.htSet {s t : State} (h : FlagStep s t) (c : HuffClass) (k : TableId) :
    Moves (s.htSet c k) (t.htSet c k) (completesNext s (encode (.buildHt c k)))
      ((∃ a v, writesNext s a v ∧ writable s ∧
        ((∃ l, decodeAddr s.params a = .htCount c k l) ∨ ∃ i, decodeAddr s.params a = .htSymbol c k i)) ∨
      resetsNext s) := by
  cases h with
  | resets h e => exact .down (congrArg (fun f => f.ht c k) e) (.inr h)
  | buildsHt d i hc e =>
    have e := congrArg (fun f => f.ht c k) e
    by_cases hk : d = c ∧ i = k
    · obtain ⟨rfl, rfl⟩ := hk; exact .up (e.trans (if_pos ⟨rfl, rfl⟩)) hc
    · exact .kept (e.trans (if_neg hk))
  | writesHt a v d i h hw hd e =>
    have e := congrArg (fun f => f.ht c k) e
    by_cases hk : d = c ∧ i = k
    · obtain ⟨rfl, rfl⟩ := hk; exact .down (e.trans (if_pos ⟨rfl, rfl⟩)) (.inl ⟨a, v, h, hw, hd⟩)
    · exact .kept (e.trans (if_neg hk))
  | _ => rename_i e; exact .kept (congrArg (fun f => f.ht c k) e)

theorem FlagStep.scanActive {s t : State} (h : FlagStep s t) :
    Moves s.scanActive t.scanActive (completesNext s 0x00000004#32)
      (((completesNext s 0x00000006#32 ∨ completesNext s 0x00000007#32) ∧ s.err = false ∧
        t.mcuIdx = t.mcuTotal ∧ t.mcuPending = false) ∨ resetsNext s) := by
  cases h with
  | resets h e => exact .down (congrArg Flags.scanActive e) (.inr h)
  | startsScan hc _ e => exact .up (congrArg Flags.scanActive e) hc
  | recons w hc hw he _ _ ha ho _ =>
    refine ⟨fun h0 h1 => (by cases h0.symm.trans (ha h1)), fun h1 h0 => .inl ⟨?_, he, ho h1 h0⟩⟩
    rcases hw with rfl | rfl
    exacts [.inl hc, .inr hc]
  | _ => rename_i e; exact .kept (congrArg Flags.scanActive e)

theorem FlagStep.mcuPending {s t : State} (h : FlagStep s t) :
    Moves s.mcuPending t.mcuPending (completesNext s 0x00000005#32)
      (completesNext s 0x00000006#32 ∨ completesNext s 0x00000007#32 ∨
        (completesNext s 0x00000004#32 ∧ t.err = false ∧ t.scanActive = true) ∨ resetsNext s) := by
  cases h with
  | resets h e => exact .down (congrArg Flags.mcuPending e) (.inr (.inr (.inr h)))
  | startsScan hc he e =>
    exact .down (congrArg Flags.mcuPending e)
      (.inr (.inr (.inl ⟨hc, (congrArg Flags.err e).trans he, congrArg Flags.scanActive e⟩)))
  | decodesMcu hc e => exact .up (congrArg Flags.mcuPending e) hc
  | recons w hc hw _ _ hp _ _ _ =>
    refine ⟨fun h0 h1 => (by cases (hp h0).symm.trans h1), fun _ _ => ?_⟩
    rcases hw with rfl | rfl
    exacts [.inl hc, .inr (.inl hc)]
  | _ => rename_i e; exact .kept (congrArg Flags.mcuPending e)

theorem FlagStep.err {s t : State} (h : FlagStep s t) :
    Moves s.err t.err ((∃ w, completesNext s w ∧ w ≠ 0x00000001#32) ∧ IsRaised t) (resetsNext s) := by
  cases h with
  | resets h e => exact .down (congrArg Flags.err e) h
  | fails w hc hw hr e => exact .up (congrArg Flags.err e) ⟨⟨w, hc, hw⟩, hr⟩
  | recons w hc hw he hr _ _ _ _ =>
    refine ⟨fun _ h1 => ⟨⟨w, hc, ?_⟩, hr h1⟩, fun h1 => (by cases he.symm.trans h1)⟩
    rcases hw with rfl | rfl <;> decide
  | _ => rename_i e; exact .kept (congrArg Flags.err e)

theorem FlagStep.done {s t : State} (h : FlagStep s t) :
    Moves s.done t.done (∃ w, completesNext s w ∧ w ≠ 0x00000001#32)
      ((∃ w, writesNext s 0x00C w ∧ w ≠ 0x00000001#32 ∧ s.busy = false) ∨
        (∃ v, writesNext s 0x008 v ∧ v.getLsbD 1 = true) ∨ resetsNext s) := by
  cases h with
  | resets h e => exact .down (congrArg Flags.done e) (.inr (.inr h))
  | accepts w h hw hb e => exact .down (congrArg Flags.done e) (.inl ⟨w, h, hw, hb⟩)
  | writesStatus v h e =>
    have e : t.done = (s.done && !v.getLsbD 1) := congrArg Flags.done e
    cases hv : v.getLsbD 1 with
    | true => exact .down (by rw [e, hv, Bool.not_true, Bool.and_false]) (.inr (.inl ⟨v, h, hv⟩))
    | false => exact .kept (by rw [e, hv, Bool.not_false, Bool.and_true])
  | ends w hc hw e => exact .up (congrArg Flags.done e) ⟨w, hc, hw⟩
  | fails w hc hw _ e => exact .up (congrArg Flags.done e) ⟨w, hc, hw⟩
  | setsQt _ hc e => exact .up (congrArg Flags.done e) ⟨_, hc, encode_ne_reset (by simp)⟩
  | buildsHt _ _ hc e => exact .up (congrArg Flags.done e) ⟨_, hc, encode_ne_reset (by simp)⟩
  | startsScan hc _ e => exact .up (congrArg Flags.done e) ⟨_, hc, by decide⟩
  | decodesMcu hc e => exact .up (congrArg Flags.done e) ⟨_, hc, by decide⟩
  | recons w hc hw _ _ _ _ _ e =>
    exact .up (congrArg Flags.done e) ⟨w, hc, by rcases hw with rfl | rfl <;> decide⟩
  | _ => rename_i e; exact .kept (congrArg Flags.done e)

theorem FlagStep.busy {s t : State} (h : FlagStep s t) :
    Moves s.busy t.busy (∃ w, writesNext s 0x00C w ∧ w ≠ 0x00000001#32)
      ((∃ w, completesNext s w) ∨ resetsNext s) := by
  cases h with
  | resets h e => exact .down (congrArg Flags.busy e) (.inr h)
  | accepts w h hw _ e => exact .up (congrArg Flags.busy e) ⟨w, h, hw⟩
  | ends w hc _ e => exact .down (congrArg Flags.busy e) (.inl ⟨w, hc⟩)
  | fails w hc _ _ e => exact .down (congrArg Flags.busy e) (.inl ⟨w, hc⟩)
  | setsQt _ hc e => exact .down (congrArg Flags.busy e) (.inl ⟨_, hc⟩)
  | buildsHt _ _ hc e => exact .down (congrArg Flags.busy e) (.inl ⟨_, hc⟩)
  | startsScan hc _ e => exact .down (congrArg Flags.busy e) (.inl ⟨_, hc⟩)
  | decodesMcu hc e => exact .down (congrArg Flags.busy e) (.inl ⟨_, hc⟩)
  | recons w hc _ _ _ _ _ _ e => exact .down (congrArg Flags.busy e) (.inl ⟨w, hc⟩)
  | _ => rename_i e; exact .kept (congrArg Flags.busy e)

theorem FlagStep.hostViol {s t : State} (h : FlagStep s t) :
    Moves s.hostViol t.hostViol (∃ a v, writesNext s a v ∧ Violates s a v)
      ((∃ v, writesNext s 0x008 v ∧ v.getLsbD 3 = true) ∨ resetsNext s) := by
  cases h with
  | resets h e => exact .down (congrArg Flags.hostViol e) (.inr h)
  | violates a v h hv e => exact .up (congrArg Flags.hostViol e) ⟨a, v, h, hv⟩
  | writesStatus v h e =>
    have e : t.hostViol = (s.hostViol && !v.getLsbD 3) := congrArg Flags.hostViol e
    cases hv : v.getLsbD 3 with
    | true => exact .down (by rw [e, hv, Bool.not_true, Bool.and_false]) (.inl ⟨v, h, hv⟩)
    | false => exact .kept (by rw [e, hv, Bool.not_false, Bool.and_true])
  | _ => rename_i e; exact .kept (congrArg Flags.hostViol e)

/-- Settles O57: a step is one of the operations of R68, and each of them moves each flag as R68 says. -/
theorem flagsChangeOnlyByTheirOperations : Obligations.FlagsChangeOnlyByTheirOperations := by
  unfold Obligations.FlagsChangeOnlyByTheirOperations
  intro s t h
  have f := flagStep_step h
  exact ⟨fun k => (f.qtSet k).1, fun c k => (f.htSet c k).1, f.scanActive.1, f.mcuPending.1, f.err.1,
    f.done.1, f.busy.1, f.hostViol.1, f.busy.2, f.done.2, f.err.2, f.hostViol.2, f.scanActive.2,
    f.mcuPending.2, fun k => (f.qtSet k).2, fun c k => (f.htSet c k).2⟩

end Sys2Proof.Machine
end

section
/-! PROOFS. Every step keeps the invariant, and from it no step ends in a model fault (O59, O60). -/

namespace Sys2Proof.Machine

/-! ## Updates outside the engine -/

/-- The invariant binds CTRL, HOST_VIOL and the latencies to nothing, and DONE and the latch to each other
only (R504). -/
theorem inv_sideUpdate {s : State} (h : s.Inv) (c : Ctrl) (d v : Bool) (l : Option Latch) (r : Bool)
    (ds : List Nat) (hd : l.isSome = true → d = false) (hr : r = false) :
    State.Inv { s with ctrl := c, done := d, hostViol := v, latch := l, resetIn := r, delays := ds } :=
  inv_of_engine
    (h.engine.congr ⟨rfl, rfl, rfl, rfl, rfl, rfl, rfl, rfl, rfl, rfl⟩ rfl rfl rfl rfl rfl rfl rfl rfl rfl
      rfl rfl)
    h.errors hd hr

/-- Under the reset input no command is in flight (R700, R701). -/
theorem State.Inv.released {s : State} (h : s.Inv) {l : Latch} (hl : s.latch = some l) :
    s.resetIn = false := by
  cases hr : s.resetIn with
  | false => rfl
  | true =>
    have := congrArg State.latch (h.held hr)
    rw [resetState_latch, hl] at this
    cases this

theorem passTurn_inv {s : State} (h : s.Inv) : (passTurn s).Inv := by
  cases hl : s.latch with
  | none => simpa [passTurn, hl] using h
  | some l =>
    have hd : s.done = false := h.latch (by simp [State.busy, hl])
    have := inv_sideUpdate h s.ctrl s.done s.hostViol (some { l with delay := l.delay - 1 }) s.resetIn
      s.delays (fun _ => hd) (h.released hl)
    simpa [passTurn, hl] using this

/-! ## Completions -/

/-- A table command's body keeps the engine's invariant if it does so outside a scan (R201). -/
theorem unlessScanning_engine {body : State → Res Unit} {s : State} (h : EngineInv s)
    (hb : s.scanActive = false → EngineInv (body s).state) :
    EngineInv (unlessScanning body s).state := by
  unfold unlessScanning
  split
  case isTrue => exact h
  case isFalse ha => exact hb (by simpa using ha)

theorem markQt_engine (t : TableId) {s : State} (h : EngineInv s) (ha : s.scanActive = false) :
    EngineInv (markQt t s).state :=
  withQt_engine h ha t _

theorem buildHtBody_engine (c : HuffClass) (t : TableId) {s : State} (h : EngineInv s)
    (ha : s.scanActive = false) : EngineInv (buildHtBody c t s).state := by
  unfold buildHtBody
  split
  case isTrue => exact h
  case isFalse hn => exact withHuff_engine h ha c t _ (tableWf_build _ (by omega))

theorem startScanBody_engine {s : State} (h : EngineInv s) : EngineInv (startScanBody s).state := by
  unfold startScanBody
  split
  · exact h
  · exact beginScan_engine h ‹_›

/-- A table command touches neither the error registers nor the reset input if its body does not. -/
theorem unlessScanning_quiet {body : State → Res Unit} {s : State} (hb : Quiet s (body s).state) :
    Quiet s (unlessScanning body s).state := by
  unfold unlessScanning
  split
  · exact quiet_refl s
  · exact hb

theorem buildHtBody_quiet (c : HuffClass) (t : TableId) (s : State) :
    Quiet s (buildHtBody c t s).state := by
  unfold buildHtBody
  split
  · exact quiet_refl s
  · constructor <;> simp

theorem startScanBody_quiet (s : State) : Quiet s (startScanBody s).state := by
  unfold startScanBody
  split
  · exact quiet_refl s
  · exact ⟨rfl, rfl, rfl, rfl, rfl, rfl⟩

/-- Every command keeps the invariant (R603, R604). -/
theorem exec_inv {i : Instr} {s t : State} (h : s.Inv) (hr : s.resetIn = false)
    (hx : exec i s = .next t) : t.Inv := by
  have he := h.engine
  cases i with
  | nop => exact unlessFrozen_inv (body := fun u => .done () u) h hr (quiet_refl s) he hx
  | reset => cases hx; exact resetCommand_inv h
  | setQt k =>
    exact unlessFrozen_inv h hr (unlessScanning_quiet ⟨rfl, rfl, rfl, rfl, rfl, rfl⟩)
      (unlessScanning_engine he (markQt_engine k he)) hx
  | buildHt c k =>
    exact unlessFrozen_inv h hr (unlessScanning_quiet (buildHtBody_quiet c k s))
      (unlessScanning_engine he (buildHtBody_engine c k he)) hx
  | startScan => exact unlessFrozen_inv h hr (startScanBody_quiet s) (startScanBody_engine he) hx
  | decodeMcu =>
    exact unlessFrozen_inv h hr (decodeMcuBody_runFrame _ s).quiet (decodeMcuBody_engine _ s he) hx
  | reconMcu => exact unlessFrozen_inv h hr (reconMcuBody_runFrame s).quiet (reconMcuBody_engine s he) hx
  | run => exact unlessFrozen_inv h hr (runBody_frame _ s).quiet (runBody_engine _ s he) hx

theorem runWord_inv {w : Word} {s t : State} (h : s.Inv) (hr : s.resetIn = false)
    (hx : runWord w s = .next t) : t.Inv := by
  rcases runWord_next hx with ⟨i, _, hi⟩ | hi
  · exact exec_inv h hr hi
  · exact unlessFrozen_inv (body := fun u => .stop (.error .illegalCmd 0) u) h hr (quiet_refl s)
      h.engine hi

/-! ## Turns of the host -/

theorem acceptCommand_inv {s : State} (h : s.Inv) (hr : s.resetIn = false) (w : Word) :
    (acceptCommand w s).Inv := by
  by_cases hw : w = 0x00000001#32
  · simpa [acceptCommand, hw] using resetCommand_inv h
  · rcases acceptCommand_cases w s hw with e | ⟨_, d, l, e⟩ <;> rw [e]
    · exact hostViolation_inv h hr
    · exact inv_sideUpdate h s.ctrl false s.hostViol (some l) s.resetIn d (fun _ => rfl) hr

/-- A data write that is applied keeps the invariant (R106). -/
theorem applyData_inv {s : State} (h : s.Inv) (hr : s.resetIn = false) {t : Target} (v : Word)
    (ht : TargetFits s.params t) (ha : s.scanActive = false ∨ ∃ w, t = .outWord w) :
    (applyData t v s).Inv := by
  obtain ⟨hq, hl, hd⟩ := applyData_quiet t v s
  have he : EngineInv (applyData t v s) := by
    rcases ha with ha | ⟨w, rfl⟩
    · exact applyData_engine h.engine ha t v ht
    · exact applyData_out_engine h.engine w v ht
  refine inv_of_engine he (hq.errorWf h.errors) ?_ (hq.resetIn.trans hr)
  unfold State.busy
  rw [hl, hd]
  exact h.latch

/-- A host write of a word keeps the invariant (R106). -/
theorem writeTarget_inv {s : State} (h : s.Inv) (hr : s.resetIn = false) {t : Target} (v : Word)
    (ht : TargetFits s.params t) : (writeTarget t v s).Inv := by
  rcases writeTarget_cases t v s with
    e | ⟨_, e⟩ | ⟨_, e⟩ | ⟨_, e⟩ | e | ⟨_, ha, e⟩ <;> rw [e]
  · exact h
  · exact inv_sideUpdate h (ctrlOfWord v) s.done s.hostViol s.latch s.resetIn s.delays h.latch hr
  · exact inv_sideUpdate h s.ctrl _ _ s.latch s.resetIn s.delays (fun hb => by simp [h.latch hb]) hr
  · exact acceptCommand_inv h hr v
  · exact hostViolation_inv h hr
  · exact applyData_inv h hr v ht (ha.imp_left And.right)

/-- The reset input keeps the invariant, asserted or released (R700, R701). -/
theorem setResetPin_inv {s : State} (h : s.Inv) (b : Bool) : (setResetPin b s).Inv := by
  cases b with
  | true => exact resetState_inv (s := { s with resetIn := true }) h.params h.memories
  | false => exact inv_sideUpdate h s.ctrl s.done s.hostViol s.latch false s.delays h.latch rfl

/-- What the host has still to do does not matter to the invariant. -/
theorem inv_program {s : State} (h : s.Inv) (p : List HostStmt) : State.Inv { s with program := p } :=
  inv_model h p s.responses s.bindings s.draws

theorem hostTurn_inv {s : State} (h : s.Inv) : (hostTurn s).Inv := by
  obtain ⟨u, e, hu⟩ := hostTurn_cases s
  have hInv : u.Inv := by
    rcases hu with rfl | ⟨a, v, rest, hr, ha, _, rfl⟩ | rfl | ⟨b, rest, _, rfl⟩
    · exact h
    · exact writeTarget_inv (inv_program h rest) hr v (decodeAddr_fits s.params a ha)
    · exact inv_model h s.program s.responses s.bindings (s.draws + 1)
    · exact setResetPin_inv (inv_program h rest) b
  rw [e]
  exact inv_model hInv _ _ _ u.draws

/-- Settles O59: a completion keeps the engine's invariant and enters its error, and a turn of the host
writes one word, reads one, or moves the reset input. -/
theorem stepKeepsInvariant : Obligations.StepKeepsInvariant := by
  unfold Obligations.StepKeepsInvariant
  intro s t h hx
  rcases step_next hx with ⟨l, hl, _, hw⟩ | ⟨_, rfl⟩
  · exact runWord_inv h (h.released hl) hw
  · exact hostTurn_inv (passTurn_inv h)

/-! ## No fault and no refusal -/

theorem unlessFrozen_of_noFault {body : State → Res Unit} {s : State} (h : NoFault (body s)) :
    ∃ t, unlessFrozen body s = .next t := by
  unfold unlessFrozen
  split
  · exact ⟨_, rfl⟩
  · exact conclude_of_noFault h

theorem unlessScanning_noFault {body : State → Res Unit} {s : State} (h : NoFault (body s)) :
    NoFault (unlessScanning body s) := by
  unfold unlessScanning
  split
  · exact noFault_error _ _ _
  · exact h

theorem buildHtBody_noFault (c : HuffClass) (t : TableId) (s : State) : NoFault (buildHtBody c t s) := by
  unfold buildHtBody
  split
  · exact noFault_error _ _ _
  · exact noFault_done _ _

theorem startScanBody_noFault (s : State) : NoFault (startScanBody s) := by
  unfold startScanBody
  split
  · exact noFault_error _ _ _
  · exact noFault_done _ _

/-- From the engine's invariant every command completes (R113). -/
theorem exec_completes (i : Instr) {s : State} (h : EngineInv s) : ∃ t, exec i s = .next t := by
  cases i with
  | nop => exact unlessFrozen_of_noFault (noFault_done _ _)
  | reset => exact ⟨_, rfl⟩
  | setQt k => exact unlessFrozen_of_noFault (unlessScanning_noFault (noFault_done _ _))
  | buildHt c k => exact unlessFrozen_of_noFault (unlessScanning_noFault (buildHtBody_noFault c k s))
  | startScan => exact unlessFrozen_of_noFault (startScanBody_noFault s)
  | decodeMcu => exact unlessFrozen_of_noFault (decodeMcuBody_noFault _ s h)
  | reconMcu => exact unlessFrozen_of_noFault (reconMcuBody_noFault s h)
  | run => exact unlessFrozen_of_noFault (runBody_noFault _ s h)

theorem runWord_completes (w : Word) {s : State} (h : EngineInv s) : ∃ t, runWord w s = .next t := by
  unfold runWord
  split
  · exact exec_completes _ h
  · exact unlessFrozen_of_noFault (noFault_error _ _ _)

theorem exec_not_refused (i : Instr) (s : State) (r : Refusal) : exec i s ≠ .refused r := by
  cases i with
  | reset => exact fun h => by cases h
  | _ => exact unlessFrozen_not_refused _ s r

theorem runWord_not_refused (w : Word) (s : State) (r : Refusal) : runWord w s ≠ .refused r := by
  unfold runWord
  split
  · exact exec_not_refused _ s r
  · exact unlessFrozen_not_refused _ s r

/-- A step completes the latched command, or answers a next state at once (R504, R720). -/
theorem step_eq (s : State) :
    (∃ l, s.latch = some l ∧ step s = runWord l.word s) ∨ ∃ t, step s = .next t := by
  cases hl : s.latch with
  | none => exact .inr ⟨hostTurn s, by simp [step, hl]⟩
  | some l =>
    by_cases hd : l.delay = 0
    · exact .inl ⟨l, rfl, by simp [step, hl, hd]⟩
    · exact .inr ⟨_, by simp [step, hl, hd]; rfl⟩

/-- Settles O60: a turn of the host always answers a next state, and a completion does so because no body
meets a model fault under the engine's invariant. -/
theorem noFaultNoRefusal : Obligations.NoFaultNoRefusal := by
  unfold Obligations.NoFaultNoRefusal
  intro s
  rcases step_eq s with ⟨l, _, e⟩ | ⟨t, e⟩ <;> rw [e]
  · exact ⟨fun h => runWord_completes l.word h.engine, runWord_not_refused l.word s⟩
  · exact ⟨fun _ => ⟨t, rfl⟩, fun r hr => by cases hr⟩

end Sys2Proof.Machine
end

section
/-! PROOFS. RECON_MCU and RUN write no OUT byte outside the image (O37). -/

namespace Sys2Proof.Machine

/-- A command whose body keeps an OUT byte keeps it, on an error and on a frozen core too (R603, R604). -/
theorem unlessFrozen_outByte {body : State → Res Unit} {s t : State} {a : Nat}
    (hb : memRead (body s).state.out a = memRead s.out a) (hx : unlessFrozen body s = .next t) :
    t.outByte a = s.outByte a := by
  unfold State.outByte
  rcases unlessFrozen_next hx with ⟨_, rfl⟩ | ⟨_, u, hu, rfl⟩ | ⟨_, e, b, u, hu, rfl⟩
  · rfl
  · rw [hu] at hb; exact congrArg (Option.getD · _) hb
  · rw [hu] at hb; exact congrArg (Option.getD · _) hb

/-- Settles O37: both commands write bytes of tiles only, and every tile lies inside the image. -/
theorem outsideImageNeverWritten : Obligations.OutsideImageNeverWritten := by
  unfold Obligations.OutsideImageNeverWritten
  intro s t a hx ha
  have hout (m : Nat) : a ∉ tileBytes s m := fun hm => by
    have := tileBytes_lt s m a hm
    omega
  rcases hx with hx | hx
  · exact unlessFrozen_outByte (reconMcuBody_other s a (hout _)) hx
  · exact unlessFrozen_outByte (runBody_other _ s a (fun _ => hout _) fun m _ _ => hout m) hx

end Sys2Proof.Machine
end

section
/-! PROOFS. The address map, word by word, and which accesses the core answers (O43, O44, O45). -/

namespace Sys2Proof.Machine

open Sys2Proof.Claims

/-! ## The address map (R102) -/

/-- Legal memory windows do not overlap (R11, R102). -/
theorem bsBytes_le_of_legal {p : Params} (h : p.legal = true) : p.bsBytes ≤ 0x1000000 := by
  simp only [Params.legal, Params.bsLegal, Bool.and_eq_true, decide_eq_true_eq] at h
  exact h.1.2

theorem decodeAddr_qtEntry (p : Params) (t : TableId) (k : Fin 64) :
    decodeAddr p (0x400 + 0x100 * t.val + 4 * k.val) = .qtEntry t k := by
  have ht := t.isLt
  have hk := k.isLt
  unfold decodeAddr
  rw [if_neg (by omega), if_pos (by omega)]
  congr 1 <;> simp only [Fin.ext_iff, Fin.val_ofNat] <;> omega

/-- An address of the HT window is a word of one table's region (R109). -/
theorem decodeAddr_htRegion (p : Params) (c : HuffClass) (t : TableId) {o : Nat} (ho : o < 0x800) :
    decodeAddr p (0x1000 + 0x800 * (4 * c.bit.toNat + t.val) + o) = htWordAt c t o := by
  have ht := t.isLt
  have hc : c.bit.toNat ≤ 1 := Bool.toNat_le _
  have hclass : classAt c.bit.toNat = c := by cases c <;> rfl
  unfold decodeAddr
  rw [if_neg (by omega), if_neg (by omega), if_pos (by omega)]
  congr 1
  · rw [← hclass]; congr 1; rw [hclass]; omega
  · simp only [Fin.ext_iff, Fin.val_ofNat]; omega
  · omega

theorem decodeAddr_htCount (p : Params) (c : HuffClass) (t : TableId) (l : Fin 16) :
    decodeAddr p (0x1000 + 0x800 * (4 * c.bit.toNat + t.val) + 4 * l.val) = .htCount c t l := by
  have hl := l.isLt
  rw [decodeAddr_htRegion p c t (by omega), htWordAt, if_pos (by omega)]
  congr 1; simp only [Fin.ext_iff, Fin.val_ofNat]; omega

theorem decodeAddr_htOffset (p : Params) (c : HuffClass) (t : TableId) (l : Fin 17) :
    decodeAddr p (0x1000 + 0x800 * (4 * c.bit.toNat + t.val) + 0x040 + 4 * l.val) = .htOffset c t l := by
  have hl := l.isLt
  rw [Nat.add_assoc _ 0x040, decodeAddr_htRegion p c t (by omega), htWordAt, if_neg (by omega),
    if_pos (by omega)]
  congr 1; simp only [Fin.ext_iff, Fin.val_ofNat]; omega

theorem decodeAddr_htSymbol (p : Params) (c : HuffClass) (t : TableId) (i : Fin 162) :
    decodeAddr p (0x1000 + 0x800 * (4 * c.bit.toNat + t.val) + 0x100 + 4 * i.val) = .htSymbol c t i := by
  have hi := i.isLt
  rw [Nat.add_assoc _ 0x100, decodeAddr_htRegion p c t (by omega), htWordAt, if_neg (by omega),
    if_neg (by omega), if_pos (by omega)]
  congr 1; simp only [Fin.ext_iff, Fin.val_ofNat]; omega

theorem decodeAddr_htCode (p : Params) (c : HuffClass) (t : TableId) (i : Fin 162) :
    decodeAddr p (0x1000 + 0x800 * (4 * c.bit.toNat + t.val) + 0x400 + 4 * i.val) = .htCode c t i := by
  have hi := i.isLt
  rw [Nat.add_assoc _ 0x400, decodeAddr_htRegion p c t (by omega), htWordAt, if_neg (by omega),
    if_neg (by omega), if_neg (by omega), if_pos (by omega)]
  congr 1; simp only [Fin.ext_iff, Fin.val_ofNat]; omega

/-- The words of a table's region between its arrays are reserved (R109). -/
theorem htWordAt_reserved (c : HuffClass) (t : TableId) {o : Nat}
    (ho : (0x084 ≤ o ∧ o < 0x100) ∨ (0x388 ≤ o ∧ o < 0x400) ∨ 0x688 ≤ o) :
    htWordAt c t o = .reserved := by
  unfold htWordAt
  rw [if_neg (by omega), if_neg (by omega), if_neg (by omega), if_neg (by omega)]

theorem decodeAddr_coefEntry (p : Params) (c : Comp) (i : Fin 64) :
    decodeAddr p (0x5000 + 0x100 * c.idx.val + 4 * i.val) = .coefEntry c i := by
  have hi := i.isLt
  have hc := c.idx.isLt
  have hcomp : compAt c.idx.val = c := by cases c <;> rfl
  unfold decodeAddr
  rw [if_neg (by omega), if_neg (by omega), if_neg (by omega), if_pos (by omega),
    show (0x5000 + 0x100 * c.idx.val + 4 * i.val - 0x5000) / 0x100 = c.idx.val by omega, hcomp]
  congr 1; simp only [Fin.ext_iff, Fin.val_ofNat]; omega

theorem decodeAddr_bsWord (p : Params) {w : Nat} (hw : 4 * w < p.bsBytes) :
    decodeAddr p (0x1000000 + 4 * w) = .bsWord w := by
  unfold decodeAddr
  rw [if_neg (by omega), if_neg (by omega), if_neg (by omega), if_neg (by omega), if_pos (by omega)]
  congr 1; omega

theorem decodeAddr_outWord {p : Params} (h : p.legal = true) {w : Nat} (hw : 4 * w < p.outBytes) :
    decodeAddr p (0x2000000 + 4 * w) = .outWord w := by
  have := bsBytes_le_of_legal h
  unfold decodeAddr
  rw [if_neg (by omega), if_neg (by omega), if_neg (by omega), if_neg (by omega), if_neg (by omega),
    if_pos (by omega)]
  congr 1; omega

/-- Settles O44: the registers by evaluation, and each window by its own word's address. -/
theorem addressMapRule : Obligations.AddressMapRule := by
  unfold Obligations.AddressMapRule
  intro p h
  exact ⟨rfl, decodeAddr_qtEntry p, decodeAddr_htCount p, decodeAddr_htOffset p, decodeAddr_htSymbol p,
    decodeAddr_htCode p, decodeAddr_coefEntry p, fun _ => decodeAddr_bsWord p,
    fun _ => decodeAddr_outWord h⟩

/-! ## Reserved words (R103) -/

/-- Nothing stands at the addresses between the registers and the windows (R102). -/
theorem decodeAddr_between {p : Params} {a : Nat} (h1 : 0x068 ≤ a) (h2 : ¬(0x400 ≤ a ∧ a < 0x800))
    (h3 : ¬(0x1000 ≤ a ∧ a < 0x5300)) (h4 : ¬(0x1000000 ≤ a ∧ a < 0x1000000 + p.bsBytes))
    (h5 : ¬(0x2000000 ≤ a ∧ a < 0x2000000 + p.outBytes)) : decodeAddr p a = .reserved := by
  unfold decodeAddr
  rw [if_neg (by omega), if_neg h2, if_neg (by omega), if_neg (by omega), if_neg h4, if_neg h5]

/-- The holes of the HT window are reserved (R109). -/
theorem decodeAddr_htHole (p : Params) {a : Nat} (h1 : 0x1000 ≤ a) (h2 : a < 0x5000)
    (ho : (0x084 ≤ a % 0x800 ∧ a % 0x800 < 0x100) ∨ (0x388 ≤ a % 0x800 ∧ a % 0x800 < 0x400) ∨
      0x688 ≤ a % 0x800) : decodeAddr p a = .reserved := by
  unfold decodeAddr
  rw [if_neg (by omega), if_neg (by omega), if_pos ⟨h1, h2⟩, htWordAt_reserved _ _ ho]

/-! ## Accesses (R100, R107) -/

theorem busRead_aligned {s : State} (hr : s.resetIn = false) {a : Nat} (ha : a % 4 = 0) :
    busRead a 4 s =
      (.data (readTarget (decodeAddr s.params a) s).1, (readTarget (decodeAddr s.params a) s).2) := by
  simp [busRead, supported, hr, ha]

/-- A word readable while BUSY gives its current value always (R107 points 1 and 2). -/
theorem busRead_readable {s : State} (hr : s.resetIn = false) {a : Nat} (ha : a % 4 = 0)
    (h : readableBusy (decodeAddr s.params a) = true) :
    busRead a 4 s = (.data (currentValue s (decodeAddr s.params a)), s) := by
  rw [busRead_aligned hr ha]
  simp [readTarget, h]

/-- An access of another width, a misaligned one, or one under the reset input (R100, R701). -/
theorem access_refused {s : State} {a n : Nat} (h : n ≠ 4 ∨ a % 4 ≠ 0 ∨ s.resetIn = true) :
    (s.resetIn || !supported a n) = true := by
  rcases h with h | h | h <;> simp [supported, h]

/-- Settles O43: the port answers exactly the aligned four-byte accesses outside the reset. -/
theorem unsupportedAccessHasNoEffect : Obligations.UnsupportedAccessHasNoEffect := by
  unfold Obligations.UnsupportedAccessHasNoEffect
  intro a n v s
  refine ⟨fun h => ?_, fun hn ha _ hr => ?_⟩
  · exact ⟨if_pos (access_refused h), if_pos (access_refused h)⟩
  · subst hn
    rw [busRead_aligned hr ha, busWrite_aligned hr ha]
    exact ⟨⟨_, rfl⟩, rfl⟩

/-- Settles O45: each of the ranges decodes to a reserved word, which reads as 0 and ignores writes. -/
theorem reservedWordsRule : Obligations.ReservedWordsRule := by
  unfold Obligations.ReservedWordsRule
  intro s a v hp hr ha hrange
  have hbs := bsBytes_le_of_legal hp
  have hd : decodeAddr s.params a = .reserved := by
    by_cases hht : 0x1000 ≤ a ∧ a < 0x5000
    · exact decodeAddr_htHole s.params hht.1 hht.2 (by omega)
    · exact decodeAddr_between (by omega) (by omega) (by omega) (by omega) (by omega)
  rw [busRead_readable hr ha (by rw [hd]; rfl), busWrite_aligned hr ha, hd]
  exact ⟨rfl, rfl⟩

end Sys2Proof.Machine
end

section
/-! PROOFS. The order of a host write (O46) and the turns of the host (O5). -/

namespace Sys2Proof.Machine

open Sys2Proof.Claims

/-- A data write is decided in the order BUSY, ERR, SCAN_ACTIVE (R106 point 5). -/
theorem dataWrite_order {t : Target} (h : dataTarget t) (v : Word) (s : State) :
    dataWrite t v s =
      if s.busy then hostViolation s
      else if s.err then s
      else if s.scanActive then hostViolation s
      else applyData t v s := by
  rcases h with rfl | rfl | ⟨_, rfl⟩ | rfl | rfl | rfl | ⟨_, _, rfl⟩ | ⟨_, _, _, rfl⟩ | ⟨_, _, _, rfl⟩ |
    ⟨_, rfl⟩ <;> rfl

/-- Writing 1 to DONE or to HOST_VIOL clears it, writing 0 keeps it (R43). -/
theorem writeStatus_eq (v : Word) (s : State) :
    writeStatus v s = { s with
      done := if v.getLsbD 1 then false else s.done
      hostViol := if v.getLsbD 3 then false else s.hostViol } := by
  have hclear (b m : Bool) : (b && !m) = if m then false else b := by cases b <;> cases m <;> rfl
  simp only [writeStatus, hclear]

/-- Settles O46: the word decides first, then BUSY, ERR and SCAN_ACTIVE. -/
theorem hostWriteOrder : Obligations.HostWriteOrder := by
  unfold Obligations.HostWriteOrder
  intro s a v hr ha _
  rw [busWrite_aligned hr ha]
  refine ⟨fun hd => ?_, fun hd => ?_, fun hd => ?_, fun hd => ?_, fun w hd => ?_, fun hd => ?_⟩
  · rw [hd]; rfl
  · rw [hd]; exact congrArg (Prod.mk _) (writeStatus_eq v s)
  · rw [hd]; rfl
  · rw [writeTarget_readOnly hd]
  · rw [hd]; rfl
  · rw [writeTarget_data (.inl hd), dataWrite_order hd]; rfl

/-- The answer of a read does not depend on the host's statements to come. -/
theorem busRead_program (a n : Nat) (s : State) (p : List HostStmt) :
    (busRead a n { s with program := p }).1 = (busRead a n s).1 := by
  have hvalue (t : Target) : currentValue { s with program := p } t = currentValue s t := by
    cases t <;> rfl
  have hread (t : Target) : (readTarget t { s with program := p }).1 = (readTarget t s).1 := by
    rw [readTarget, readTarget, hvalue, show ({ s with program := p } : State).busy = s.busy from rfl]
    split <;> rfl
  unfold busRead
  dsimp only
  split
  · rfl
  · exact congrArg BusResponse.data (hread _)

/-- A turn of RD reads, and binds what the read answers (R146). -/
theorem hostTurn_rd {s : State} {a : Nat} {name : String} {rest : List HostStmt}
    (hp : s.program = .rd a name :: rest) :
    hostTurn s = bindResult name (busRead a 4 { s with program := rest }).1
      (answered (busRead a 4 { s with program := rest })) := by
  rw [busRead_program]
  simp [hostTurn, hp, hostRead, recordResponse, answered]

/-- A read itself binds no name. -/
theorem busRead_bindings (a n : Nat) (s : State) : (busRead a n s).2.bindings = s.bindings := by
  unfold busRead readTarget
  split
  · rfl
  · dsimp only
    split <;> rfl

/-- Settles O5: each form of statement is one branch of the host's turn. -/
theorem hostTakesTurns : Obligations.HostTakesTurns := by
  unfold Obligations.HostTakesTurns
  intro s
  refine ⟨fun hl => ?_, fun l hl hd => ?_, fun hp => ?_, fun rest hp => ?_, fun a v rest hp => ?_,
    fun a n v rest hp => ?_, fun a n rest hp => ?_, fun a name rest hp => ⟨fun w hw => ?_, fun hw => ?_⟩,
    fun b rest hp => ?_, rfl⟩
  · simp [step, hl]
  · simp [step, hl, hd, passTurn]
  · simp [hostTurn, hp]
  · simp [hostTurn, hp, waitTurn, recordResponse]
  · simp [hostTurn, hp, hostWrite, recordResponse, answered]
  · simp [hostTurn, hp, hostWrite, recordResponse, answered]
  · simp [hostTurn, hp, hostRead, recordResponse, answered]
  · rw [hostTurn_rd hp, hw]
    simp [bindResult, answered, busRead_bindings]
  · rw [hostTurn_rd hp, hw]
    rfl
  · simp [hostTurn, hp]

end Sys2Proof.Machine
end

section
/-! PROOFS. The value of a host read, field by field (O47, O52). -/

namespace Sys2Proof.Machine

open Sys2Proof.Claims

/-! ## Register words as numbers: each field at its place (R41 to R59) -/

/-- A word of two fields is the upper one shifted past the lower one. -/
theorem toNat_append_eq_add {m n : Nat} (x : BitVec m) (y : BitVec n) :
    (x ++ y).toNat = x.toNat * 2 ^ n + y.toNat := by
  rw [BitVec.toNat_append, ← Nat.shiftLeft_add_eq_or_of_lt y.isLt, Nat.shiftLeft_eq]

theorem eq_ofNat_of_toNat {v : Word} {n : Nat} (h : v.toNat = n) : v = BitVec.ofNat 32 n := by
  rw [← h, BitVec.ofNat_toNat, BitVec.setWidth_eq]

theorem toNat_ofBool_eq_bit (b : Bool) : (BitVec.ofBool b).toNat = bit b := by cases b <;> rfl

theorem ctrlWord_eq (c : Ctrl) :
    ctrlWord c = BitVec.ofNat 32 (bit c.irqDoneEn + 2 * bit c.irqErrEn + 4 * bit c.rstAlign) := by
  apply eq_ofNat_of_toNat
  simp only [ctrlWord, toNat_append_eq_add, toNat_ofBool_eq_bit, BitVec.toNat_ofNat]
  omega

theorem statusWord_eq (s : State) :
    statusWord s = BitVec.ofNat 32 (bit s.latch.isSome + 2 * bit s.done + 4 * bit s.err +
      8 * bit s.hostViol + 16 * bit s.scanActive + 32 * bit s.mcuPending + 256 * s.errCode.toNat) := by
  apply eq_ofNat_of_toNat
  simp only [statusWord, State.busy, toNat_append_eq_add, toNat_ofBool_eq_bit, BitVec.toNat_ofNat]
  omega

theorem frameSizeWord_eq (s : State) :
    frameSizeWord s = BitVec.ofNat 32 (s.width.toNat + 65536 * s.height.toNat) := by
  apply eq_ofNat_of_toNat
  simp only [frameSizeWord, toNat_append_eq_add]
  omega

theorem compCfgWord_eq (c : CompCfg) : compCfgWord c = BitVec.ofNat 32 (compCfgNumber c) := by
  apply eq_ofNat_of_toNat
  simp only [compCfgWord, compCfgNumber, toNat_append_eq_add, BitVec.toNat_ofFin, BitVec.toNat_ofNat]
  omega

theorem scanCfgWord_eq (c : ScanCfg) :
    scanCfgWord c = BitVec.ofNat 32 (c.n.toNat + 16 * c.id0.toNat + 256 * c.id1.toNat +
      4096 * c.id2.toNat) := by
  apply eq_ofNat_of_toNat
  simp only [scanCfgWord, toNat_append_eq_add, BitVec.toNat_ofNat]
  omega

theorem mcuGeomWord_eq (s : State) :
    mcuGeomWord s = BitVec.ofNat 32 (s.mcuCols.toNat + 65536 * s.mcuRows.toNat) := by
  apply eq_ofNat_of_toNat
  simp only [mcuGeomWord, toNat_append_eq_add]
  omega

theorem toNat_flagBits (f : TableId → Bool) : (flagBits f).toNat = fourBits f := by
  simp only [flagBits, fourBits, toNat_append_eq_add, toNat_ofBool_eq_bit]
  omega

theorem tableSetWord_eq (s : State) :
    tableSetWord s = BitVec.ofNat 32 (fourBits s.qtSet + 16 * fourBits (s.htSet .dc) +
      256 * fourBits (s.htSet .ac)) := by
  apply eq_ofNat_of_toNat
  simp only [tableSetWord, toNat_append_eq_add, toNat_flagBits, BitVec.toNat_ofNat]
  omega

/-- A field alone in a word, zero-extended. -/
theorem setWidth_eq_ofNat {n : Nat} (x : BitVec n) : x.setWidth 32 = BitVec.ofNat 32 x.toNat :=
  (BitVec.ofNat_toNat 32 x).symm

/-! ## Words of bytes (R104) -/

theorem toNat_packWord (b0 b1 b2 b3 : Byte) :
    (packWord b0 b1 b2 b3).toNat = b0.toNat + 256 * b1.toNat + 65536 * b2.toNat + 16777216 * b3.toNat := by
  simp only [packWord, toNat_append_eq_add]
  omega

/-- Byte `j` of a packed word is in bits [8j+7:8j]. -/
theorem packWord_byte (f : Nat → Byte) {j : Nat} (hj : j < 4) :
    (packWord (f 0) (f 1) (f 2) (f 3)).extractLsb' (8 * j) 8 = f j := by
  apply BitVec.eq_of_toNat_eq
  rw [BitVec.extractLsb'_toNat, toNat_packWord, Nat.shiftRight_eq_div_pow]
  interval_cases j <;> omega

/-! ## The reads -/

/-- A word that reads as a number on an idle core. -/
theorem busRead_register {s : State} (hr : s.resetIn = false) (hb : s.busy = false) {a n : Nat}
    (ha : a % 4 = 0) (hv : currentValue s (decodeAddr s.params a) = BitVec.ofNat 32 n) :
    busRead a 4 s = (.data (BitVec.ofNat 32 n), s) := by
  rw [busRead_idle hr hb ha, hv]

/-- The same of a word that is readable while BUSY. -/
theorem busRead_always {s : State} (hr : s.resetIn = false) {a n : Nat} (ha : a % 4 = 0)
    (h : readableBusy (decodeAddr s.params a) = true)
    (hv : currentValue s (decodeAddr s.params a) = BitVec.ofNat 32 n) :
    busRead a 4 s = (.data (BitVec.ofNat 32 n), s) := by
  rw [busRead_readable hr ha h, hv]

/-- The words readable while BUSY are the five of R107 point 1 and the reserved ones. -/
theorem readableBusy_iff (t : Target) :
    readableBusy t = true ↔ t ∈ [Target.id, .ctrl, .status, .paramBs, .paramOut, .reserved] := by
  cases t <;> simp [readableBusy]

theorem readTarget_busy {t : Target} {s : State} (hb : s.busy = true) (h : readableBusy t = false) :
    readTarget t s = (Config.freeWord s.draws, { s with draws := s.draws + 1 }) := by
  simp [readTarget, hb, h]

theorem busRead_alwaysReadable {s : State} (hr : s.resetIn = false) :
    ∀ r ∈ alwaysReadable s, busRead r.1 4 s = (.data (BitVec.ofNat 32 r.2), s) := by
  simp only [alwaysReadable, List.forall_mem_cons]
  exact ⟨busRead_always hr rfl rfl rfl, busRead_always hr rfl rfl (ctrlWord_eq s.ctrl),
    busRead_always hr rfl rfl (statusWord_eq s), busRead_always hr rfl rfl rfl,
    busRead_always hr rfl rfl rfl, fun _ h => by cases h⟩

theorem busRead_idleReadable {s : State} (hr : s.resetIn = false) (hb : s.busy = false) :
    ∀ r ∈ idleReadable s, busRead r.1 4 s = (.data (BitVec.ofNat 32 r.2), s) := by
  have hread {a n : Nat} := busRead_register (a := a) (n := n) hr hb
  have hword (v : Word) : v = BitVec.ofNat 32 v.toNat := eq_ofNat_of_toNat rfl
  simp only [idleReadable, List.forall_mem_cons]
  exact ⟨hread rfl rfl, hread rfl (frameSizeWord_eq s), hread rfl (setWidth_eq_ofNat s.ncomp),
    hread rfl (compCfgWord_eq _), hread rfl (compCfgWord_eq _), hread rfl (compCfgWord_eq _),
    hread rfl (scanCfgWord_eq _), hread rfl (setWidth_eq_ofNat s.restart), hread rfl (hword s.bsLen),
    hread rfl (hword s.mcuIdx), hread rfl (hword s.mcuTotal), hread rfl (mcuGeomWord_eq s), hread rfl rfl,
    hread rfl (tableSetWord_eq s), hread rfl (hword s.errMcu), hread rfl (hword s.errBitPos),
    hread rfl (setWidth_eq_ofNat s.errComp), hread rfl (hword s.lastMcu), fun _ h => by cases h⟩

/-- Settles O47: BUSY decides which words give their value, and the value of each is its fields' numbers. -/
theorem hostReadRule : Obligations.HostReadRule := by
  unfold Obligations.HostReadRule
  intro s hr
  refine ⟨busRead_alwaysReadable hr, fun a ha _ hd => ?_, fun hb a ha _ hd => ?_, fun hb => ?_⟩
  · rw [busRead_readable hr ha (by rw [hd]; rfl), hd]
    rfl
  · rw [← readableBusy_iff, Bool.not_eq_true] at hd
    rw [busRead_aligned hr ha, readTarget_busy hb hd]
  have hread {a : Nat} {t : Target} (ha : a % 4 = 0) (hd : decodeAddr s.params a = t) :
      busRead a 4 s = (.data (currentValue s t), s) := by
    rw [busRead_idle hr hb ha, hd]
  refine ⟨busRead_idleReadable hr hb, fun t k => ?_, fun c t l => ?_, fun c t i => ?_, fun c t l => ?_,
    fun c t i => ?_, fun hp w => ⟨fun hw => ?_, fun hw => ?_⟩⟩
  · rw [hread (by omega) (decodeAddr_qtEntry _ t k), ← setWidth_eq_ofNat]; rfl
  · rw [hread (by omega) (decodeAddr_htCount _ c t l), ← setWidth_eq_ofNat]; rfl
  · rw [hread (by omega) (decodeAddr_htSymbol _ c t i), ← setWidth_eq_ofNat]; rfl
  · rw [hread (by omega) (decodeAddr_htOffset _ c t l), ← setWidth_eq_ofNat]; rfl
  · rw [hread (by omega) (decodeAddr_htCode _ c t i), ← setWidth_eq_ofNat]; rfl
  · exact ⟨_, hread (by omega) (decodeAddr_bsWord _ hw),
      fun j hj => packWord_byte (fun j => s.bsByte (4 * w + j)) hj⟩
  · exact ⟨_, hread (by omega) (decodeAddr_outWord hp hw),
      fun j hj => packWord_byte (fun j => s.outByte (4 * w + j)) hj⟩

/-! ## The signed words (R55, R111) -/

/-- A read-only word of an idle core ignores writes and reads as its value (R106 point 4, R107). -/
theorem readOnly_access {s : State} (hr : s.resetIn = false) (hb : s.busy = false) {a : Nat}
    (ha : a % 4 = 0) {t : Target} (hd : decodeAddr s.params a = t) (ht : readOnly t) (v : Word) :
    busWrite a 4 v s = (.completed, s) ∧ busRead a 4 s = (.data (currentValue s t), s) := by
  rw [busWrite_aligned hr ha, busRead_idle hr hb ha, hd, writeTarget_readOnly ht]
  exact ⟨rfl, rfl⟩

theorem decodeAddr_pred (p : Params) (c : Comp) : decodeAddr p (0x040 + 4 * c.idx.val) = .pred c := by
  cases c <;> rfl

/-- A read-only word that is a sign-extended half reads as the half's integer value. -/
theorem signed_access {s : State} (hr : s.resetIn = false) (hb : s.busy = false) {a : Nat}
    (ha : a % 4 = 0) {t : Target} (hd : decodeAddr s.params a = t) (ht : readOnly t) {x : Half}
    (hx : currentValue s t = x.signExtend 32) (v : Word) :
    busWrite a 4 v s = (.completed, s) ∧ ∃ r, busRead a 4 s = (.data r, s) ∧ r.toInt = x.toInt := by
  obtain ⟨hwrite, hread⟩ := readOnly_access hr hb ha hd ht v
  exact ⟨hwrite, _, hx ▸ hread, BitVec.toInt_signExtend_of_le (by decide)⟩

/-- Settles O52: both kinds of word are read-only and sign-extended halves. -/
theorem signedWindowsRule : Obligations.SignedWindowsRule := by
  unfold Obligations.SignedWindowsRule
  intro s v c hr hb
  refine ⟨fun i => ?_, ?_⟩
  · exact signed_access hr hb (by omega) (decodeAddr_coefEntry s.params c i) (by simp [readOnly]) rfl v
  · exact signed_access hr hb (by omega) (decodeAddr_pred s.params c) (by simp [readOnly]) rfl v

end Sys2Proof.Machine
end

section
/-! PROOFS. What a write to a data window stores, and that it reads back (O49, O50, O51). -/

namespace Sys2Proof.Machine

open Sys2Proof.Claims

/-! ## A write that is applied, and its read-back -/

/-- A data write to a writable core is applied to its word (R106 point 5). -/
theorem busWrite_data {s : State} (h : writable s) {a : Nat} (ha : a % 4 = 0) {t : Target}
    (hd : decodeAddr s.params a = t) (ht : dataTarget t) (v : Word) :
    busWrite a 4 v s = (.completed, applyData t v s) := by
  rw [busWrite_aligned h.1 ha, hd, writeTarget_data (.inl ht), dataWrite_writable h]

/-- After it a read of the word gives the word's new value (R107). -/
theorem busRead_applyData {s : State} (hr : s.resetIn = false) (hb : s.busy = false) {a : Nat}
    (ha : a % 4 = 0) {t : Target} (hd : decodeAddr s.params a = t) (v : Word) :
    busRead a 4 (applyData t v s) =
      (.data (currentValue (applyData t v s) t), applyData t v s) := by
  obtain ⟨ep, er, eb⟩ := applyData_access t v s
  rw [busRead_idle (er.trans hr) (eb.trans hb) ha, ep, hd]

/-- Settles O49: the write replaces one entry of one table. -/
theorem qtWindowRule : Obligations.QtWindowRule := by
  unfold Obligations.QtWindowRule
  intro s v t k hw
  have hd := decodeAddr_qtEntry s.params t k
  have hq : (applyData (.qtEntry t k) v s).qt[t] =
      { entry := s.qt[t].entry.set (zz k) (v.extractLsb' 0 16), set := false } := withQt_get s t _
  have hk : (applyData (.qtEntry t k) v s).qt[t].entry[zz k] = v.extractLsb' 0 16 := by
    rw [hq]; exact Vector.getElem_set_self ..
  refine ⟨_, busWrite_data hw (by omega) hd (by simp [dataTarget]) v, rfl, ?_, hk, fun i hi => ?_,
    fun j hj => withQt_get_other s t j _ hj.symm, ?_⟩
  · rw [State.qtSet, hq]
  · rw [hq]; exact Vector.getElem_set_ne (zz k).isLt i.isLt (fun e => hi (Fin.ext e).symm)
  · rw [busRead_applyData hw.1 hw.2.1 (by omega) hd, currentValue, hk]

/-- The write of one entry of a Huffman table replaces that table only (R109). -/
theorem withHuff_replaces (s : State) (c : HuffClass) (t : TableId) (h : HuffTable) :
    s.withHuff c t h = { s with dcHt := (s.withHuff c t h).dcHt, acHt := (s.withHuff c t h).acHt } ∧
    (s.withHuff c t h).huff c t = h ∧
    ∀ d j, (d, j) ≠ (c, t) → (s.withHuff c t h).huff d j = s.huff d j := by
  refine ⟨by cases c <;> rfl, by simp [huff_withHuff], fun d j hne => ?_⟩
  rw [huff_withHuff, if_neg]
  rintro ⟨rfl, rfl⟩
  exact hne rfl

/-- A window word whose write replaces a Huffman table: the write, and its read-back (R109). -/
theorem htEntry_access {s : State} (hw : writable s) {a : Nat} (ha : a % 4 = 0) {e : Target}
    (hd : decodeAddr s.params a = e) (he : dataTarget e) {v x : Word} {c : HuffClass} {t : TableId}
    {h : HuffTable} (happly : applyData e v s = s.withHuff c t h)
    (hx : currentValue (s.withHuff c t h) e = x) :
    ∃ u, busWrite a 4 v s = (.completed, u) ∧ u = { s with dcHt := u.dcHt, acHt := u.acHt } ∧
      u.huff c t = h ∧ (∀ d j, (d, j) ≠ (c, t) → u.huff d j = s.huff d j) ∧
      busRead a 4 u = (.data x, u) := by
  obtain ⟨hframe, hself, hother⟩ := withHuff_replaces s c t h
  have hread := busRead_applyData hw.1 hw.2.1 ha hd v
  rw [happly, hx] at hread
  exact ⟨_, happly ▸ busWrite_data hw ha hd he v, hframe, hself, hother, hread⟩

/-- Settles O50: COUNT and SYMBOL are data words of one table, OFFSET and CODE are read-only. -/
theorem htWindowRule : Obligations.HtWindowRule := by
  unfold Obligations.HtWindowRule
  intro s v c t hw
  have ⟨hr, hb, _⟩ := hw
  refine ⟨fun l => ?_, fun i => ?_, fun l => ?_, fun i => ?_, fun o _ ho hole => ?_⟩
  · exact htEntry_access hw (by omega) (decodeAddr_htCount _ c t l) (by simp [dataTarget]) rfl
      (by simp [currentValue, huff_withHuff])
  · exact htEntry_access hw (by omega) (decodeAddr_htSymbol _ c t i) (by simp [dataTarget]) rfl
      (by simp [currentValue, huff_withHuff])
  · exact readOnly_access hr hb (by omega) (decodeAddr_htOffset _ c t l) (by simp [readOnly]) v
  · exact readOnly_access hr hb (by omega) (decodeAddr_htCode _ c t i) (by simp [readOnly]) v
  · rw [decodeAddr_htRegion _ c t ho, htWordAt_reserved c t hole]

/-! ## BS and OUT (R104, R110) -/

/-- The four writes of a word give its four bytes, and leave every other index. -/
theorem memRead_writeWord (m : List Host.Cell) (w : Nat) (v : Word) (a : Nat) :
    memRead (memWrite (memWrite (memWrite (memWrite m (4 * w) (v.extractLsb' 0 8)) (4 * w + 1)
      (v.extractLsb' 8 8)) (4 * w + 2) (v.extractLsb' 16 8)) (4 * w + 3) (v.extractLsb' 24 8)) a =
      if a / 4 = w then some (v.extractLsb' (8 * (a % 4)) 8) else memRead m a := by
  simp only [memRead_memWrite]
  by_cases h : a / 4 = w
  · obtain ⟨j, hj, rfl⟩ : ∃ j, j < 4 ∧ a = 4 * w + j := ⟨a % 4, by omega, by omega⟩
    rw [if_pos h, show (4 * w + j) % 4 = j by omega]
    interval_cases j <;> simp
  · rw [if_neg (by omega), if_neg (by omega), if_neg (by omega), if_neg (by omega), if_neg h]

theorem packWord_extractLsb' (v : Word) :
    packWord (v.extractLsb' 0 8) (v.extractLsb' 8 8) (v.extractLsb' 16 8) (v.extractLsb' 24 8) = v := by
  apply BitVec.eq_of_toNat_eq
  rw [toNat_packWord]
  simp only [BitVec.extractLsb'_toNat, Nat.shiftRight_eq_div_pow]
  omega

/-- A word of a memory whose four bytes are those of `v` is `v`. -/
theorem packWord_of_bytes {f : Nat → Byte} {v : Word} (h : ∀ j, j < 4 → f j = v.extractLsb' (8 * j) 8) :
    packWord (f 0) (f 1) (f 2) (f 3) = v := by
  rw [h 0 (by decide), h 1 (by decide), h 2 (by decide), h 3 (by decide)]
  exact packWord_extractLsb' v

theorem currentValue_bsWord {s : State} {w : Nat} {v : Word}
    (h : ∀ j, j < 4 → s.bsByte (4 * w + j) = v.extractLsb' (8 * j) 8) : currentValue s (.bsWord w) = v :=
  packWord_of_bytes (f := fun j => s.bsByte (4 * w + j)) h

theorem currentValue_outWord {s : State} {w : Nat} {v : Word}
    (h : ∀ j, j < 4 → s.outByte (4 * w + j) = v.extractLsb' (8 * j) 8) : currentValue s (.outWord w) = v :=
  packWord_of_bytes (f := fun j => s.outByte (4 * w + j)) h

theorem bsByte_applyData (w : Nat) (v : Word) (s : State) (a : Nat) :
    (applyData (.bsWord w) v s).bsByte a =
      if a / 4 = w then v.extractLsb' (8 * (a % 4)) 8 else s.bsByte a := by
  unfold State.bsByte
  rw [show memRead (applyData (.bsWord w) v s).bs a = _ from memRead_writeWord s.bs w v a]
  split <;> rfl

theorem outByte_applyData (w : Nat) (v : Word) (s : State) (a : Nat) :
    (applyData (.outWord w) v s).outByte a =
      if a / 4 = w then v.extractLsb' (8 * (a % 4)) 8 else s.outByte a := by
  unfold State.outByte
  rw [show memRead (applyData (.outWord w) v s).out a = _ from memRead_writeWord s.out w v a]
  split <;> rfl

/-- A map of bytes that a word write has replaced at word `w`: its four bytes, and every other one. -/
theorem bytes_of_replaced {f g : Nat → Byte} {w : Nat} {v : Word}
    (h : ∀ a, g a = if a / 4 = w then v.extractLsb' (8 * (a % 4)) 8 else f a) :
    (∀ j, j < 4 → g (4 * w + j) = v.extractLsb' (8 * j) 8) ∧ ∀ a, a / 4 ≠ w → g a = f a := by
  refine ⟨fun j hj => ?_, fun a ha => by rw [h, if_neg ha]⟩
  rw [h, if_pos (by omega), show (4 * w + j) % 4 = j by omega]

/-- An OUT word is written on an idle core, frozen or in a scan too (R106 point 5). -/
theorem busWrite_out {s : State} (hr : s.resetIn = false) (hb : s.busy = false) {a : Nat}
    (ha : a % 4 = 0) {w : Nat} (hd : decodeAddr s.params a = .outWord w) (v : Word) :
    busWrite a 4 v s = (.completed, applyData (.outWord w) v s) := by
  rw [busWrite_aligned hr ha, hd]
  simp [writeTarget, dataWrite, hb]

/-- Settles O51: a word write replaces the four bytes of its word, and packing them gives the word back. -/
theorem memoryWindowRule : Obligations.MemoryWindowRule := by
  unfold Obligations.MemoryWindowRule
  intro s v w hp
  refine ⟨fun hw hlt => ?_, fun hr hb hlt => ?_⟩
  · have hd := decodeAddr_bsWord s.params hlt
    obtain ⟨hbytes, hother⟩ := bytes_of_replaced (bsByte_applyData w v s)
    refine ⟨_, busWrite_data hw (by omega) hd (by simp [dataTarget]) v, rfl, hbytes, hother, ?_⟩
    rw [busRead_applyData hw.1 hw.2.1 (by omega) hd, currentValue_bsWord hbytes]
  · have hd := decodeAddr_outWord hp hlt
    obtain ⟨hbytes, hother⟩ := bytes_of_replaced (outByte_applyData w v s)
    refine ⟨_, busWrite_out hr hb (by omega) hd v, rfl, hbytes, hother, ?_⟩
    rw [busRead_applyData hr hb (by omega) hd, currentValue_outWord hbytes]

end Sys2Proof.Machine
end

section
/-! PROOFS. The decoder and the encoder are inverse, and the illegal words are those that no encoding is
(O1, O2, O3). -/

namespace Sys2Proof.Machine

/-! ## The decoder inverts the encoder (R141 to R143) -/

/-- An instruction term is well formed by its operands' types (R142). -/
theorem wf_instr (i : Instr) : i.wf = true := by
  cases i with
  | setQt t => exact decide_eq_true t.isLt
  | buildHt c t => exact decide_eq_true t.isLt
  | _ => rfl

/-- The decoder finds each instruction's own row, and reads its operands back from T and C. -/
theorem decode_encode (i : Instr) : decode (encode i) = .ok i := by
  cases i with
  | setQt t => revert t; decide
  | buildHt c t => revert t; cases c <;> decide
  | _ => decide

theorem decode_eq_ok_iff {w : Word} {i : Instr} : decode w = .ok i ↔ w = encode i :=
  ⟨eq_encode_of_decode, fun h => h ▸ decode_encode i⟩

/-- Settles O1: the decoder answers an instruction exactly on its encoding. -/
theorem decodeEncodeAgree : Obligations.DecodeEncodeAgree := by
  unfold Obligations.DecodeEncodeAgree
  exact ⟨fun i _ => decode_encode i, fun _ i h => ⟨decode_eq_ok_iff.mp h, wf_instr i⟩⟩

/-! ## A word is legal exactly if it is an encoding (R144) -/

theorem legal_encode (i : Instr) : (encode i).legal = true :=
  match i with
  | .nop => Laws.EncodedWord.nop.1
  | .reset => Laws.EncodedWord.reset.1
  | .setQt t => (Laws.EncodedWord.setQt t).1
  | .buildHt c t => (Laws.EncodedWord.buildHt c t).1
  | .startScan => Laws.EncodedWord.startScan.1
  | .decodeMcu => Laws.EncodedWord.decodeMcu.1
  | .reconMcu => Laws.EncodedWord.reconMcu.1
  | .run => Laws.EncodedWord.run.1

/-- The checks of a legal word, field by field (R141). -/
theorem legal_iff (w : Word) :
    w.legal = true ↔ w.op.toNat ≤ 7 ∧ w.reservedZero = true ∧
      (w.tField = 0 ∨ w.op = 2 ∨ w.op = 3) ∧ (w.cField = false ∨ w.op = 3) := by
  simp [Word.legal, Word.tLegal, Word.cLegal, and_assoc, or_assoc]

/-- The reserved bits of R141 are all those from bit 10 on but bit 12. -/
theorem getLsbD_of_reservedZero {w : Word} (h : w.reservedZero = true) {i : Nat} (hi : 10 ≤ i)
    (hc : i ≠ 12) : w.getLsbD i = false := by
  simp only [Word.reservedZero, Bool.and_eq_true, beq_iff_eq] at h
  obtain ⟨hlow, hhigh⟩ := h
  rcases (by omega : i < 12 ∨ (13 ≤ i ∧ i < 32) ∨ 32 ≤ i) with hlt | ⟨hge, hlt⟩ | hge
  · have hbit := congrArg (BitVec.getLsbD · (i - 10)) hlow
    simpa [show i - 10 < 2 by omega, show 10 + (i - 10) = i by omega,
      -BitVec.getLsbD_eq_getElem] using hbit
  · have hbit := congrArg (BitVec.getLsbD · (i - 13)) hhigh
    simpa [show i - 13 < 19 by omega, show 13 + (i - 13) = i by omega,
      -BitVec.getLsbD_eq_getElem] using hbit
  · exact BitVec.getLsbD_of_ge w i hge

/-- A word whose reserved bits are zero is the command word of its own fields. -/
theorem eq_commandWord_of_reservedZero {w : Word} (h : w.reservedZero = true) :
    w = commandWord w.op w.cField w.tField.toFin := by
  apply BitVec.eq_of_getLsbD_eq
  intro i _
  rw [getLsbD_commandWord]
  split
  · next hi => simp [Word.op, hi, -BitVec.getLsbD_eq_getElem]
  · next h8 =>
    split
    · next h10 =>
      simp [Word.tField, show i - 8 < 2 by omega, show 8 + (i - 8) = i by omega,
        -BitVec.getLsbD_eq_getElem]
    · next h10 =>
      by_cases h12 : i = 12
      · simp [Word.cField, h12]
      · simp [getLsbD_of_reservedZero h (by omega) h12, h12]

/-- A known opcode with T and C zero where it does not use them encodes an instruction. -/
theorem exists_encode_eq_commandWord {op : BitVec 8} {c : Bool} {t : BitVec 2} (hop : op.toNat ≤ 7)
    (ht : t = 0 ∨ op = 2 ∨ op = 3) (hc : c = false ∨ op = 3) :
    ∃ i, commandWord op c t.toFin = encode i := by
  have hcases : op = 0 ∨ op = 1 ∨ op = 2 ∨ op = 3 ∨ op = 4 ∨ op = 5 ∨ op = 6 ∨ op = 7 := by bv_omega
  by_cases h2 : op = 2
  · subst h2
    obtain rfl : c = false := hc.resolve_right (by decide)
    exact ⟨.setQt t.toFin, rfl⟩
  by_cases h3 : op = 3
  · subst h3
    exact ⟨.buildHt (.ofBit c) t.toFin, by simp [encode]⟩
  · obtain rfl : t = 0 := ht.resolve_right (not_or.mpr ⟨h2, h3⟩)
    obtain rfl : c = false := hc.resolve_right h3
    rcases hcases with rfl | rfl | rfl | rfl | rfl | rfl | rfl | rfl
    · exact ⟨.nop, rfl⟩
    · exact ⟨.reset, rfl⟩
    · exact absurd rfl h2
    · exact absurd rfl h3
    · exact ⟨.startScan, rfl⟩
    · exact ⟨.decodeMcu, rfl⟩
    · exact ⟨.reconMcu, rfl⟩
    · exact ⟨.run, rfl⟩

theorem legal_iff_exists_decode (w : Word) : w.legal = true ↔ ∃ i, decode w = .ok i := by
  constructor
  · intro h
    obtain ⟨hop, hres, ht, hc⟩ := (legal_iff w).mp h
    obtain ⟨i, hi⟩ := exists_encode_eq_commandWord hop ht hc
    exact ⟨i, decode_eq_ok_iff.mpr ((eq_commandWord_of_reservedZero hres).trans hi)⟩
  · rintro ⟨i, hi⟩
    rw [decode_eq_ok_iff.mp hi]
    exact legal_encode i

/-- A word that is not legal is rejected for its opcode or for its other bits (R144). -/
theorem decode_of_not_legal {w : Word} (h : w.legal = false) :
    decode w = if w.op.toNat ≤ 7 then .error .reservedBits else .error .reservedOpcode := by
  have hno (i : Instr) : decode w ≠ .ok i := fun hi => by
    simp [(legal_iff_exists_decode w).mpr ⟨i, hi⟩] at h
  cases hf : opcodeTable.find? (fun r => r.selects w) with
  | some r => exact absurd (by simp [decode, hf]) (hno (r.instr w))
  | none => simp [decode, hf]

/-- Settles O2: a word that is not legal selects no row, and its opcode says which reason it gets. -/
theorem illegalWordsRejected : Obligations.IllegalWordsRejected := by
  unfold Obligations.IllegalWordsRejected
  intro w
  change (8 ≤ w.op.toNat → _) ∧ (w.op.toNat < 8 → _) ∧ _
  refine ⟨fun hop => ?_, fun hop hl => ?_, (legal_iff_exists_decode w).mp⟩
  · have hl : w.legal = false := by
      by_contra h
      have := ((legal_iff w).mp (by simpa using h)).1
      omega
    rw [decode_of_not_legal hl, if_neg (by omega)]
  · rw [decode_of_not_legal hl, if_pos (by omega)]

/-- Settles O3: the legal words are encodings, and the two illegal ones select no row. -/
theorem knownWordsDecode : Obligations.KnownWordsDecode := by
  unfold Obligations.KnownWordsDecode
  exact ⟨decode_encode .nop, decode_encode .reset, decode_encode (.setQt 2),
    decode_encode (.buildHt .ac 1), decode_encode (.buildHt .dc 3), decode_encode .startScan,
    decode_encode .decodeMcu, decode_encode .reconMcu, decode_encode .run,
    decode_of_not_legal (w := 0x00000101#32) (by decide),
    decode_of_not_legal (w := 0x00001002#32) (by decide)⟩

end Sys2Proof.Machine
end

section
/-! PROOFS. The expansions of the pseudo-instructions, address by address (O54). -/

namespace Sys2Proof.Machine

/-- Writes to consecutive words: the k-th value goes to the k-th word address from `a` on. -/
theorem writesFrom_eq_map_range (a : Nat) (vs : List Word) :
    writesFrom a vs = (List.range vs.length).map fun k => .wr (a + 4 * k) (vs.getD k 0) := by
  induction vs generalizing a with
  | nil => rfl
  | cons v vs ih =>
    simp only [writesFrom, ih, List.length_cons, List.range_succ_eq_map, List.map_cons, List.map_map]
    congr 1
    apply List.map_congr_left
    intro k _
    have haddr : a + 4 + 4 * k = a + 4 * (k + 1) := by omega
    simp [haddr]

/-- The same for narrower values, each zero-extended to a word. -/
theorem writesFrom_setWidth {n : Nat} (a : Nat) (vs : List (BitVec n)) :
    writesFrom a (vs.map fun v => v.setWidth 32) =
      (List.range vs.length).map fun k => .wr (a + 4 * k) ((vs.getD k 0).setWidth 32) := by
  rw [writesFrom_eq_map_range, List.length_map]
  apply List.map_congr_left
  intro k _
  rw [← List.getD_map vs 0 (fun v : BitVec n => v.setWidth 32)]
  simp only [BitVec.ofNat_eq_ofNat, BitVec.setWidth_zero]

theorem length_packWords (bytes : List Byte) : (packWords bytes).length = (bytes.length + 3) / 4 := by
  induction bytes using packWords.induct with
  | case5 b0 b1 b2 b3 rest ih => simp only [packWords, List.length_cons, ih]; omega
  | _ => simp [packWords]

/-- Word w packs bytes 4w to 4w+3, a missing byte as 0 (R147). -/
theorem getD_packWords (bytes : List Byte) (w : Nat) :
    (packWords bytes).getD w 0 =
      packWord (bytes.getD (4 * w) 0) (bytes.getD (4 * w + 1) 0) (bytes.getD (4 * w + 2) 0)
        (bytes.getD (4 * w + 3) 0) := by
  induction bytes using packWords.induct generalizing w with
  | case5 b0 b1 b2 b3 rest ih =>
    cases w with
    | zero => rfl
    | succ w => simpa [packWords, Nat.mul_succ] using ih w
  | _ =>
    cases w with
    | zero => rfl
    | succ w => simp [packWords, Nat.mul_succ, packWord]

/-- Settles O54: the values of each window go to consecutive words, four bytes to a word for BS. -/
theorem pseudoExpansions : Obligations.PseudoExpansions := by
  unfold Obligations.PseudoExpansions
  refine ⟨fun t q hq => ?_, fun c t n y hn => ?_, fun b => ?_, rfl, fun _ => rfl⟩
  · rw [expand, writesFrom_setWidth, hq]; rfl
  · rw [expand, writesFrom_setWidth, writesFrom_setWidth, hn]; rfl
  · simp only [expand, writesFrom_eq_map_range, length_packWords, getD_packWords, packWord, addrBsLen]

end Sys2Proof.Machine
end

section
/-! PROOFS. The table commands SET_QT and BUILD_HT (O15, O16), and the canonical codes of a built table: their
bound (O17) and that none begins another (O18). -/

namespace Sys2Proof.Machine

open Sys2Proof.Claims

/-! ## The checks before a table command's body (R201, R604) -/

/-- A word that selects a row of R143 decodes to the row's instruction. -/
theorem decode_of_selects {r : OpcodeRow} (hr : r ∈ opcodeTable) {w : Word}
    (h : w &&& r.mask = r.pattern) : decode w = .ok (r.instr w) :=
  decode_eq_ok_iff.mpr (eq_encode_of_selects hr h)

theorem unlessFrozen_of_err {s : State} (he : s.err = true) (body : State → Res Unit) :
    unlessFrozen body s = .next (completed s) :=
  if_pos he

theorem unlessFrozen_of_not_err {s : State} (he : s.err = false) (body : State → Res Unit) :
    unlessFrozen body s = conclude (body s) :=
  if_neg (by simp [he])

theorem unlessScanning_of_scan {s : State} (ha : s.scanActive = true) (body : State → Res Unit) :
    unlessScanning body s = .stop (.error .sequence 0) s :=
  if_pos ha

theorem unlessScanning_of_no_scan {s : State} (ha : s.scanActive = false) (body : State → Res Unit) :
    unlessScanning body s = body s :=
  if_neg (by simp [ha])

/-- A table command during a scan raises SEQUENCE (R201). -/
theorem tableCommand_of_scan {s : State} (he : s.err = false) (ha : s.scanActive = true)
    (body : State → Res Unit) : unlessFrozen (unlessScanning body) s = .next (raised 0x0B 0 s) := by
  rw [unlessFrozen_of_not_err he, unlessScanning_of_scan ha]; rfl

/-- A table command outside a scan ends as its body does. -/
theorem tableCommand_of_no_scan {s : State} (he : s.err = false) (ha : s.scanActive = false)
    (body : State → Res Unit) : unlessFrozen (unlessScanning body) s = conclude (body s) := by
  rw [unlessFrozen_of_not_err he, unlessScanning_of_no_scan ha]

/-! ## SET_QT (R202) -/

/-- Settles O15: SET_QT replaces its own table by itself with the flag set. -/
theorem setQtRule : Obligations.SetQtRule := by
  unfold Obligations.SetQtRule
  refine ⟨fun w hw => decode_of_selects (r := opcodeTable[2]) (List.getElem_mem _) hw,
    fun k s => ⟨fun he => unlessFrozen_of_err he _, fun he ha => tableCommand_of_scan he ha _,
      fun he ha => ?_⟩⟩
  have hget := withQt_get s k { s.qt[k] with set := true }
  refine ⟨_, tableCommand_of_no_scan he ha _, rfl, congrArg QuantTable.set hget,
    (congrArg QuantTable.entry hget :), fun j hj => withQt_get_other s k j _ hj.symm⟩

/-! ## The counts of a table as a list (R203) -/

theorem countList_eq_map_count (h : HuffTable) : countList h = (List.finRange 16).map (count h) := by
  apply List.ext_getElem
  · simp
  · intro l _ _
    simp [countList, count]

@[simp] theorem countList_buildTable (h : HuffTable) : countList (buildTable h) = countList h := by
  rw [countList, buildTable_count, countList]

@[simp] theorem countList_marked (h : HuffTable) : countList h.marked = countList h := by
  rw [countList, marked_count, countList]

theorem symbolCount_eq_total (h : HuffTable) : symbolCount h = total h := by
  rw [symbolCount, countList_eq_map_count, total]

theorem countAt_eq_getD (h : HuffTable) (l : Nat) : countAt h l = (countList h).getD l 0 := by
  unfold countAt
  split
  case isTrue hl => exact (countList_getD h ⟨l, hl⟩).symm
  case isFalse hl => exact (List.getD_eq_default _ _ (by simpa using hl)).symm

/-- The running code of a class, by the counts of the table (R205). -/
theorem classCode_eq_classStart (h : HuffTable) (l : Nat) :
    classCode (countAt h) l = classStart 0 (countList h) l := by
  induction l with
  | zero => rfl
  | succ m ih => rw [classCode, classStart, ih, countAt_eq_getD]

theorem inSlots_iff_inClass (h : HuffTable) (i : Fin 162) (l : Fin 16) :
    InSlots h i l ↔ inClass h i l :=
  ⟨fun s => ⟨s.low, s.high⟩, fun ⟨low, high⟩ => ⟨low, high⟩⟩

/-- The class a bit C names, as R142 writes it. -/
theorem ofBit_eq_ite (b : Bool) : HuffClass.ofBit b = if b then .ac else .dc := by cases b <;> rfl

/-! ## BUILD_HT (R204 to R206) -/

/-- What BUILD_HT leaves in a table of at most 162 symbols. -/
theorem isBuilt_marked {h : HuffTable} (hn : total h ≤ 162) : isBuilt h (buildTable h).marked := by
  have hb : Built (buildTable h).marked := built_marked h ((symbolCount_eq_total h).trans_le hn)
  have hc : countList (buildTable h).marked = countList h := by simp
  refine ⟨?_, ?_, marked_set _, ?_, fun l => ?_, fun l i hi => ?_, fun i hi => ?_⟩
  · rw [marked_count, buildTable_count]
  · rw [marked_symbol, buildTable_symbol]
  · rw [hb.offset_eq]; rfl
  · rw [hb.offset_eq, hb.offset_eq, Fin.val_succ, take_succ_sum, hc, countList_getD]; rfl
  · rw [hb.code_class ((inSlots_iff_inClass _ i l).mpr hi), hb.offset_eq, hc, classCode_eq_classStart]
    rfl
  · rw [hb.offset_eq, List.take_of_length_le (by simp)] at hi
    exact BitVec.eq_of_toNat_eq (hb.code_unused hi)

theorem buildHtBody_overflow {c : HuffClass} {k : TableId} {s : State}
    (hn : 162 < total (s.huff c k)) : buildHtBody c k s = .stop (.error .htOverflow 0) s :=
  if_pos (hn.trans_eq (symbolCount_eq_total _).symm)

theorem buildHtBody_built {c : HuffClass} {k : TableId} {s : State} (hn : total (s.huff c k) ≤ 162) :
    buildHtBody c k s = .done () (s.withHuff c k (buildTable (s.huff c k)).marked) :=
  if_neg ((symbolCount_eq_total _).trans_le hn).not_gt

/-- Replacing a Huffman table leaves everything but the Huffman tables as it was. -/
theorem complete_withHuff (s : State) (c : HuffClass) (k : TableId) (h : HuffTable) :
    complete (s.withHuff c k h) =
      { s with dcHt := (s.withHuff c k h).dcHt, acHt := (s.withHuff c k h).acHt, latch := none,
               done := true } := by
  cases c <;> rfl

/-- Settles O16: BUILD_HT replaces its own table by what the builder makes of its counts. -/
theorem buildHtRule : Obligations.BuildHtRule := by
  unfold Obligations.BuildHtRule
  refine ⟨fun w hw => ?_, fun c k s => ⟨fun he => unlessFrozen_of_err he _,
    fun he ha => tableCommand_of_scan he ha _, fun he ha hn => ?_, fun he ha hn => ?_⟩⟩
  · rw [← ofBit_eq_ite]
    exact decode_of_selects (r := opcodeTable[3]) (List.getElem_mem _) hw
  · refine (tableCommand_of_no_scan he ha _).trans ?_
    rw [buildHtBody_overflow hn]; rfl
  · have hhuff (d j) : (complete (s.withHuff c k (buildTable (s.huff c k)).marked)).huff d j =
        if c = d ∧ k = j then (buildTable (s.huff c k)).marked else s.huff d j :=
      huff_withHuff s c d k j _
    refine ⟨complete (s.withHuff c k (buildTable (s.huff c k)).marked), ?_,
      complete_withHuff s c k _, ?_, fun d j hne => ?_⟩
    · refine (tableCommand_of_no_scan he ha _).trans ?_
      rw [buildHtBody_built hn]; rfl
    · rw [hhuff, if_pos ⟨rfl, rfl⟩]
      exact isBuilt_marked hn
    · rw [hhuff, if_neg fun ⟨hd, hj⟩ => hne (by rw [hd, hj])]

/-! ## The bound of the codes (R208) -/

/-- 161 symbols of length 1 and one of length 16, the counts with the largest code (R208). -/
def largestCodeTable : HuffTable :=
  { HuffTable.reset with count := ((Vector.replicate 16 0).set 0 161).set 15 1 }

/-- The one symbol of length 16 is in the last slot, at the running code of its class. -/
theorem largestCodeTable_code :
    (buildTable largestCodeTable).code[(161 : Fin 162)].toNat = 5275648 := by
  have hb := built_buildTable largestCodeTable (by decide)
  rw [hb.code_eq]
  exact codesFrom_getD 0 (countList largestCodeTable) 15 0 (by decide) (by decide)

/-- Settles O17: a code is one of the builder's list, whose bound is R208's. -/
theorem codesBelowTwoPow23 : Obligations.CodesBelowTwoPow23 := by
  unfold Obligations.CodesBelowTwoPow23
  refine ⟨fun h hn i => ?_, by decide, largestCodeTable, by decide, by decide, by decide,
    largestCodeTable_code⟩
  have hs : symbolCount h ≤ 162 := (symbolCount_eq_total h).trans_le hn
  rw [(built_buildTable h hs).code_eq, countList_buildTable]
  exact codesFrom_getD_le h hs i.val

/-! ## Codes under the Kraft inequality (R207) -/

/-- The first code past a class, scaled to length 16, is the Kraft sum up to that class. -/
theorem classStart_add_mul_two_pow (cs : List Nat) {l : Nat} (hl : l ≤ 15) :
    (classStart 0 cs l + cs.getD l 0) * 2 ^ (15 - l) =
      ∑ m ∈ Finset.range (l + 1), cs.getD m 0 * 2 ^ (15 - m) := by
  induction l with
  | zero => simp [classStart]
  | succ m ih =>
    have hpow : 2 ^ (15 - m) = 2 * 2 ^ (15 - (m + 1)) := by
      rw [← Nat.pow_succ']; congr 1; omega
    rw [Finset.sum_range_succ, ← ih (by omega), classStart, hpow]
    ring

theorem kraftSum_eq_sum_range (h : HuffTable) :
    ((List.finRange 16).map (fun l => count h l * 2 ^ (15 - l.val))).sum =
      ∑ m ∈ Finset.range 16, (countList h).getD m 0 * 2 ^ (15 - m) := by
  rw [← Fin.sum_univ_def, ← Fin.sum_univ_eq_sum_range fun m => (countList h).getD m 0 * 2 ^ (15 - m)]
  simp only [countList_getD]
  rfl

/-- The codes of length `l + 1` end at or below `2 ^ (l + 1)` (R207). -/
theorem classStart_add_le_of_kraft {h : HuffTable}
    (hk : ((List.finRange 16).map (fun l => count h l * 2 ^ (15 - l.val))).sum ≤ 2 ^ 16) (l : Fin 16) :
    classStart 0 (countList h) l.val + (countList h).getD l.val 0 ≤ 2 ^ (l.val + 1) := by
  have hl : l.val ≤ 15 := by omega
  refine Nat.le_of_mul_le_mul_right ?_ (Nat.two_pow_pos (15 - l.val))
  calc (classStart 0 (countList h) l.val + (countList h).getD l.val 0) * 2 ^ (15 - l.val)
      = ∑ m ∈ Finset.range (l.val + 1), (countList h).getD m 0 * 2 ^ (15 - m) :=
        classStart_add_mul_two_pow _ hl
    _ ≤ ∑ m ∈ Finset.range 16, (countList h).getD m 0 * 2 ^ (15 - m) :=
        Finset.sum_le_sum_of_subset (Finset.range_subset_range.mpr (by omega))
    _ ≤ 2 ^ 16 := (kraftSum_eq_sum_range h).ge.trans hk
    _ = 2 ^ (l.val + 1) * 2 ^ (15 - l.val) := by rw [← Nat.pow_add]; congr 1; omega

/-- In a built table the code of a slot does not begin with the code of another slot of its own or a
shorter length, over-subscribed tables included (R207, R307). -/
theorem Built.not_prefix {k : HuffTable} (h : Built k) {i j : Fin 162} {l m : Fin 16} (hij : i ≠ j)
    (hlm : l ≤ m) (si : InSlots k i l) (sj : InSlots k j m) :
    k.code[j].toNat / 2 ^ (m.val - l.val) ≠ k.code[i].toNat := by
  rcases hlm.lt_or_eq with hlt | rfl
  · exact (h.prefix_above hlt si sj).ne'
  · intro e
    rw [Nat.sub_self, Nat.pow_zero, Nat.div_one] at e
    exact hij (h.code_injective sj si e).symm

/-- Settles O18: a class's codes end at or below its power of two by the Kraft sum, and each class starts
above the prefixes of the shorter ones. -/
theorem canonicalCodesPrefixFree : Obligations.CanonicalCodesPrefixFree := by
  unfold Obligations.CanonicalCodesPrefixFree
  intro h hn hk i j l m hi hj
  have hb := built_buildTable h ((symbolCount_eq_total h).trans_le hn)
  have si := (inSlots_iff_inClass _ i l).mpr hi
  have sj := (inSlots_iff_inClass _ j m).mpr hj
  refine ⟨?_, fun hij hlm => hb.not_prefix hij hlm si sj⟩
  have hslots := hb.slots si
  have hend := classStart_add_le_of_kraft hk l
  rw [countList_buildTable] at hslots
  rw [hb.code_class si, countList_buildTable]
  omega

end Sys2Proof.Machine
end

section
/-! PROOFS. The bit reader and the Huffman decoder (O19, O20, O22, O23), and the magnitude fields (O21). -/

namespace Sys2Proof.Machine

open Sys2Proof.Claims

/-! ## The bit reader (R300 to R303) -/

theorem CursorStep.cursorOnly {s t : State} (h : CursorStep s t) : cursorOnly s t := h.frame

/-- The bit under the cursor, by its byte and its place in the byte (R300). -/
theorem payloadBit_cursor (s : State) :
    payloadBit s s.cursor = (s.bsByte s.byteIdx).getLsbD (7 - s.bitOff.val) := by
  have hoff := s.bitOff.isLt
  unfold payloadBit State.cursor
  rw [show (8 * s.byteIdx + s.bitOff.val) / 8 = s.byteIdx by omega,
    show (8 * s.byteIdx + s.bitOff.val) % 8 = s.bitOff.val by omega]

/-- After the last bit of a byte the cursor is at the next byte, and before it at the next bit (R300). -/
theorem advanceBit_place (s : State) :
    (s.bitOff.val = 7 → (advanceBit s).byteIdx = s.byteIdx + 1 ∧ (advanceBit s).bitOff.val = 0) ∧
    (s.bitOff.val ≠ 7 →
      (advanceBit s).byteIdx = s.byteIdx ∧ (advanceBit s).bitOff.val = s.bitOff.val + 1) := by
  have hcur := advanceBit_cursor s
  have hoff := s.bitOff.isLt
  have hoff' := (advanceBit s).bitOff.isLt
  unfold State.cursor at hcur
  constructor <;> intro <;> omega

/-- Settles O19: the payload bit under the cursor is that of its byte, and one bit further is the next bit of
the byte or the first of the next. -/
theorem readBitAndAlignRule : Obligations.ReadBitAndAlignRule := by
  unfold Obligations.ReadBitAndAlignRule
  intro comp s
  refine ⟨fun hend => if_pos hend, fun hlen hcap => ?_, fun hz => if_pos hz, fun hz => if_neg hz⟩
  obtain ⟨hle, _⟩ | ⟨_, _, hread⟩ | ⟨_, hle, _⟩ := readBit_cases comp s
  · omega
  · exact ⟨advanceBit s, payloadBit_cursor s ▸ hread, advanceBit_frame s, advanceBit_place s⟩
  · omega

/-- Settles O20: ReadBits reads the payload field from the cursor, starting from 0. -/
theorem readBitsRule : Obligations.ReadBitsRule := by
  unfold Obligations.ReadBitsRule
  intro comp n s hfit
  refine ⟨payloadField_lt s s.cursor n, rfl, fun hin => ?_, fun hn hout => ?_⟩
  · obtain ⟨t, hread, hcur, hstep⟩ := readBitsFrom_inside comp n 0 s hfit hin
    rw [Nat.zero_mul, Nat.zero_add] at hread
    exact ⟨t, hread, hcur, hstep.cursorOnly⟩
  · obtain ⟨t, hread, hcur, hstep⟩ := readBitsFrom_end comp n 0 s hfit hn hout
    exact ⟨t, hread, hcur, hstep.cursorOnly⟩

/-! ## Magnitude fields (R306) -/

theorem extend_zero (v : Nat) : extend v 0 = 0 := if_pos rfl

/-- A field whose first bit is 0 stands for a negative value. -/
theorem extend_low {n v : Nat} (h : v < 2 ^ n) : extend v (n + 1) = (v : Int) - (2 ^ (n + 1) - 1) := by
  unfold extend
  rw [if_neg n.succ_ne_zero, Nat.add_sub_cancel, if_pos h]

/-- A field whose first bit is 1 stands for itself. -/
theorem extend_high {n v : Nat} (h : 2 ^ n ≤ v) : extend v (n + 1) = v := by
  unfold extend
  rw [if_neg n.succ_ne_zero, Nat.add_sub_cancel, if_neg h.not_gt]

/-- The negative range is that of the fields below `2^n`. -/
theorem extend_low_range {n v : Nat} (h : v < 2 ^ n) :
    -(2 ^ (n + 1) - 1) ≤ extend v (n + 1) ∧ extend v (n + 1) ≤ -(2 ^ n) := by
  have hv : (v : Int) < 2 ^ n := by exact_mod_cast h
  rw [extend_low h, pow_succ]
  omega

/-- The positive range is that of the fields from `2^n` on. -/
theorem extend_high_range {n v : Nat} (h : 2 ^ n ≤ v) (hv : v < 2 ^ (n + 1)) :
    2 ^ n ≤ extend v (n + 1) ∧ extend v (n + 1) ≤ 2 ^ (n + 1) - 1 := by
  have hlow : (2 : Int) ^ n ≤ v := by exact_mod_cast h
  have hhigh : (v : Int) < 2 ^ (n + 1) := by exact_mod_cast hv
  rw [extend_high h]
  omega

theorem abs_extend_lt {n v : Nat} (h : v < 2 ^ n) : |extend v n| < 2 ^ n := by
  cases n with
  | zero => rw [extend_zero]; decide
  | succ m =>
    have hpos : (0 : Int) < 2 ^ m := by positivity
    rw [abs_lt]
    by_cases hv : v < 2 ^ m
    · have := extend_low_range hv; omega
    · have := extend_high_range (not_lt.1 hv) h; omega

/-- The sign tells the two ranges apart, and inside each Extend moves the field by a constant. -/
theorem extend_injective {n u v : Nat} (hu : u < 2 ^ (n + 1)) (hv : v < 2 ^ (n + 1))
    (h : extend u (n + 1) = extend v (n + 1)) : u = v := by
  have hpos : (0 : Int) < 2 ^ n := by positivity
  rcases lt_or_ge u (2 ^ n) with hu' | hu' <;> rcases lt_or_ge v (2 ^ n) with hv' | hv'
  · rw [extend_low hu', extend_low hv'] at h; omega
  · have := extend_low_range hu'; have := extend_high_range hv' hv; omega
  · have := extend_high_range hu' hu; have := extend_low_range hv'; omega
  · rw [extend_high hu', extend_high hv'] at h; omega

theorem exists_extend_low {n : Nat} {x : Int} (h1 : -(2 ^ (n + 1) - 1) ≤ x) (h2 : x ≤ -(2 ^ n)) :
    ∃ u, u < 2 ^ (n + 1) ∧ extend u (n + 1) = x := by
  obtain ⟨u, hu⟩ := Int.eq_ofNat_of_zero_le (a := x + (2 ^ (n + 1) - 1)) (by omega)
  have hlt : u < 2 ^ n := by
    rw [pow_succ] at hu
    zify
    omega
  exact ⟨u, hlt.trans (Nat.pow_lt_pow_right one_lt_two n.lt_succ_self), by rw [extend_low hlt]; omega⟩

theorem exists_extend_high {n : Nat} {x : Int} (h1 : 2 ^ n ≤ x) (h2 : x ≤ 2 ^ (n + 1) - 1) :
    ∃ u, u < 2 ^ (n + 1) ∧ extend u (n + 1) = x := by
  have hpos : (0 : Int) < 2 ^ n := by positivity
  obtain ⟨u, rfl⟩ := Int.eq_ofNat_of_zero_le (a := x) (by omega)
  exact ⟨u, by zify; omega, extend_high (by exact_mod_cast h1)⟩

/-- A value of 16 bits is not changed by the wrap (R13). -/
theorem toInt_wrap16 {x : Int} (h1 : -2 ^ 15 ≤ x) (h2 : x < 2 ^ 15) : (wrap16 x).toInt = x :=
  BitVec.toInt_ofInt_eq_self (by decide) h1 h2

/-- Settles O21: the fields below and from half of `2^n` go to the two ranges, each by a shift. -/
theorem extendRule : Obligations.ExtendRule := by
  unfold Obligations.ExtendRule
  intro n v hv
  have hfits (hn : n ≤ 15) : (wrap16 (extend v n)).toInt = extend v n := by
    have hpow : (2 : Int) ^ n ≤ 2 ^ 15 := pow_le_pow_right₀ (by decide) hn
    obtain ⟨h1, h2⟩ := abs_lt.1 (abs_extend_lt hv)
    exact toInt_wrap16 (by omega) (by omega)
  cases n with
  | zero =>
    refine ⟨fun _ => extend_zero v, by omega, by omega, hfits, fun u hu _ => ?_, by omega⟩
    rw [Nat.lt_one_iff.1 hu, Nat.lt_one_iff.1 hv]
  | succ m =>
    rw [Nat.add_sub_cancel]
    refine ⟨by omega, fun _ h => ⟨extend_low h, extend_low_range h⟩,
      fun _ h => ⟨extend_high h, extend_high_range h hv⟩, hfits,
      fun u hu he => extend_injective hu hv he, fun _ x hx => ?_⟩
    rcases hx with ⟨h1, h2⟩ | ⟨h1, h2⟩
    · exact exists_extend_low h1 h2
    · exact exists_extend_high h1 h2

/-! ## The Huffman decoder (R307) -/

/-- Settles O22: a set table is a built one, whose slots HuffDecode finds. -/
theorem huffDecodeFindsCode : Obligations.HuffDecodeFindsCode := by
  unfold Obligations.HuffDecodeFindsCode
  intro h comp s i l hwf hset hfit hi hcode hin
  obtain ⟨t, hdec, hcur, hstep⟩ :=
    huffDecode_slot (hwf.built hset) comp s i l hfit ((inSlots_iff_inClass h i l).mpr hi) hcode hin
  exact ⟨t, hdec, hcur, hstep.cursorOnly⟩

/-- Settles O23: with 16 bits left every class is searched in vain, with fewer those whose bits are left. -/
theorem huffDecodeNoMatch : Obligations.HuffDecodeNoMatch := by
  unfold Obligations.HuffDecodeNoMatch
  intro h comp s hwf hfit hno
  have hne (i : Fin 162) (l : Fin 16) (hl : s.cursor + (l.val + 1) ≤ 8 * s.bsLen.toNat)
      (hi : InSlots h i l) : h.code[i].toNat ≠ payloadField s s.cursor (l.val + 1) :=
    (hno i l ((inSlots_iff_inClass h i l).mp hi) hl).symm
  refine ⟨fun hin => ?_, fun hout => ?_⟩
  · obtain ⟨t, hdec, hcur, hstep⟩ :=
      huffDecode_noMatch h comp s hwf.1 hfit (fun i l hi => hne i l (by omega) hi) hin
    exact ⟨t, hdec, hcur, hstep.cursorOnly⟩
  · obtain ⟨t, hdec, hcur, hstep⟩ := huffDecode_end h comp s hwf.1 hfit hne hout
    exact ⟨t, hdec, hcur, hstep.cursorOnly⟩

end Sys2Proof.Machine
end

section
/-! PROOFS. One block: its DC coefficient (O24), its AC coefficients symbol by symbol (O25), and the block of a
DC code and end of block. -/

namespace Sys2Proof.Machine

open Sys2Proof.Claims

/-! ## The DC coefficient (R308, R309) -/

theorem decodeDc_of_stop {c : Comp} {s t : State} {e : Stop}
    (h : huffDecode (s.huff .dc (s.cfg c).dcId) c.bits s = .stop e t) : decodeDc c s = .stop e t := by
  rw [decodeDc, h, andThen_stop]

theorem decodeDc_of_category {c : Comp} {s t : State} {n : Byte}
    (h : huffDecode (s.huff .dc (s.cfg c).dcId) c.bits s = .done n t) (hn : 15 < n.toNat) :
    decodeDc c s = .stop (.error .dcCategory c.bits) t := by
  rw [decodeDc, h, andThen_done, if_pos hn]

/-- A legal category is followed by its magnitude field. -/
theorem decodeDc_of_field {c : Comp} {s t : State} {n : Byte}
    (h : huffDecode (s.huff .dc (s.cfg c).dcId) c.bits s = .done n t) (hn : n.toNat ≤ 15) :
    decodeDc c s =
      (readBits c.bits n.toNat t).andThen fun v u => .done () (predictDc c (extend v n.toNat) u) := by
  rw [decodeDc, h, andThen_done, if_neg hn.not_gt]

theorem predictDc_frame (c : Comp) (d : Int) (s : State) :
    predictDc c d s = { s with pred := (predictDc c d s).pred, coef := (predictDc c d s).coef } := rfl

/-- Settles O24: HuffDecode, the category check and ReadBits in turn, and then the prediction. -/
theorem dcCoefficientRule : Obligations.DcCoefficientRule := by
  unfold Obligations.DcCoefficientRule
  refine fun c s => ⟨fun e t h => decodeDc_of_stop h, fun t n h => ⟨decodeDc_of_category h,
    fun hn v u hr => ?_, fun hn e u hr => ?_⟩⟩
  · have hpred := predictDc_predOf c (extend v n.toNat) u
    have hblock := predictDc_block c (extend v n.toNat) u
    rw [← hpred] at hblock
    refine ⟨predictDc c (extend v n.toNat) u, ?_, predictDc_frame _ _ _, hpred, ?_, fun i hi => ?_,
      fun d hd => predictDc_other c d _ u hd.symm⟩
    · rw [decodeDc_of_field h hn, hr, andThen_done]
    · rw [hblock]
      exact Vector.getElem_set_self _
    · rw [hblock]
      exact Vector.getElem_set_ne _ _ fun hz => hi (Fin.ext hz.symm)
  · rw [decodeDc_of_field h hn, hr, andThen_stop]

/-! ## The AC coefficients (R310) -/

theorem acFrom_of_full (c : Comp) {k : Nat} (hk : 64 ≤ k) (s : State) : acFrom c k s = .done () s := by
  rw [acFrom, Nat.sub_eq_zero_of_le hk, acLoop]

/-- What the AC loop at position k does with a symbol, the turns that are left being always enough. -/
def acSymbol (c : Comp) (k : Nat) (y : Byte) (t : State) : Res Unit :=
  if y = 0x00 then .done () t
  else if y = 0xF0 then
    if 64 < k + 16 then .stop (.error .acOverrun c.bits) t else acFrom c (k + 16) t
  else if h : k + y.toNat / 16 ≤ 63 then
    (readBits c.bits (y.toNat % 16) t).andThen fun v u =>
      acFrom c (k + y.toNat / 16 + 1)
        (u.withCoef c (zz ⟨k + y.toNat / 16, by omega⟩) (wrap16 (extend v (y.toNat % 16))))
  else .stop (.error .acOverrun c.bits) t

theorem acFrom_eq_acSymbol (c : Comp) {k : Nat} (hk : k < 64) (s : State) :
    acFrom c k s = (huffDecode (s.huff .ac (s.cfg c).acId) c.bits s).andThen (acSymbol c k) := by
  have henough (k' : Nat) (h : k < k') (t : State) : acLoop c (63 - k) k' t = acFrom c k' t :=
    acLoop_enough c _ _ t (by omega)
  rw [acFrom, show 64 - k = (63 - k) + 1 by omega, acLoop, if_pos hk]
  congr 1
  funext y t
  rw [acSymbol, henough (k + 16) (by omega)]
  simp only [henough (k + y.toNat / 16 + 1) (by omega)]

theorem acFrom_of_stop {c : Comp} {k : Nat} {s t : State} {e : Stop} (hk : k < 64)
    (h : huffDecode (s.huff .ac (s.cfg c).acId) c.bits s = .stop e t) : acFrom c k s = .stop e t := by
  rw [acFrom_eq_acSymbol c hk, h, andThen_stop]

theorem acFrom_of_symbol {c : Comp} {k : Nat} {s t : State} {y : Byte} (hk : k < 64)
    (h : huffDecode (s.huff .ac (s.cfg c).acId) c.bits s = .done y t) :
    acFrom c k s = acSymbol c k y t := by
  rw [acFrom_eq_acSymbol c hk, h, andThen_done]

theorem acSymbol_endOfBlock (c : Comp) (k : Nat) (t : State) : acSymbol c k 0x00 t = .done () t := if_pos rfl

/-- The symbol 0xF0 stands for 16 zeros. -/
theorem acSymbol_zrl (c : Comp) (k : Nat) (t : State) :
    acSymbol c k 0xF0 t =
      if 64 < k + 16 then .stop (.error .acOverrun c.bits) t else acFrom c (k + 16) t := by
  rw [acSymbol, if_neg (by decide), if_pos rfl]

/-- The high half of any other symbol is a run of zeros, its low half a category. -/
theorem acSymbol_run {c : Comp} {k : Nat} {y : Byte} {t : State} (h0 : y ≠ 0x00) (hF : y ≠ 0xF0)
    {r n : Nat} (hr : y.toNat / 16 = r) (hn : y.toNat % 16 = n) (hk : k + r < 64) :
    acSymbol c k y t = (readBits c.bits n t).andThen fun v u =>
      acFrom c (k + r + 1) (u.withCoef c (zz ⟨k + r, hk⟩) (wrap16 (extend v n))) := by
  subst hr hn
  rw [acSymbol, if_neg h0, if_neg hF, dif_pos (Nat.le_of_lt_succ hk)]

theorem acSymbol_overrun {c : Comp} {k : Nat} {y : Byte} {t : State} (h0 : y ≠ 0x00) (hF : y ≠ 0xF0)
    (hk : 63 < k + y.toNat / 16) : acSymbol c k y t = .stop (.error .acOverrun c.bits) t := by
  rw [acSymbol, if_neg h0, if_neg hF, dif_neg hk.not_ge]

theorem toNat_div_sixteen (y : Byte) : y.toNat / 16 = (y.extractLsb' 4 4).toNat := by
  rw [BitVec.extractLsb'_toNat, Nat.shiftRight_eq_div_pow]
  omega

theorem toNat_mod_sixteen (y : Byte) : y.toNat % 16 = (y.extractLsb' 0 4).toNat := by
  rw [BitVec.extractLsb'_toNat, Nat.shiftRight_zero]

/-- Settles O25: one symbol is decoded, and what it stands for is done. -/
theorem acCoefficientRule : Obligations.AcCoefficientRule := by
  unfold Obligations.AcCoefficientRule
  refine fun c s => ⟨rfl, fun k hk => acFrom_of_full c hk s, fun k e t hk h => acFrom_of_stop hk h,
    fun k y t hk h => ?_⟩
  rw [acFrom_of_symbol hk h]
  refine ⟨?_, ?_, ?_, fun h0 hF hover => ?_, fun h0 hF hin => ?_⟩
  · rintro rfl
    exact acSymbol_endOfBlock c k t
  · rintro rfl hover
    rw [acSymbol_zrl, if_pos hover]
  · rintro rfl hin
    rw [acSymbol_zrl, if_neg hin.not_gt]
  · exact acSymbol_overrun h0 hF (toNat_div_sixteen y ▸ hover)
  · rw [acSymbol_run h0 hF (toNat_div_sixteen y) (toNat_mod_sixteen y) hin]
    refine ⟨fun e u hr => ?_, fun v u hr => ?_⟩
    · rw [hr, andThen_stop]
    · rw [hr, andThen_done]
      rfl

end Sys2Proof.Machine
end

section
/-! PROOFS. START_SCAN: its checks in order and the scan it begins (O26). -/

namespace Sys2Proof.Machine

open Sys2Proof.Claims

/-! ## The checks (R312) -/

/-- An error with its number (R601). -/
def numbered (e : ErrCode × BitVec 2) : Byte × BitVec 2 := (errorByte e.1, e.2)

/-- The bindings of one component are checked before those of the next. -/
theorem unsetBinding_cons (c : Comp) (rest : List (BitVec 2)) (s : State) :
    (unsetBinding (c.bits :: rest) s).map numbered =
      ((unbound s c).map (·, c.bits)).or ((unsetBinding rest s).map numbered) := by
  rw [unsetBinding, ofBits_of_bits]
  dsimp only
  unfold unbound
  split
  · rfl
  · split
    · rfl
    · split <;> rfl

/-- The first unset binding is that of the first component in scan order that has one. -/
theorem unsetBinding_eq_find (ids : List (BitVec 2)) (s : State) :
    (unsetBinding ids s).map numbered =
      ((ids.filterMap Comp.ofBits).find? fun c => (unbound s c).isSome).map
        fun c => ((unbound s c).getD 0, c.bits) := by
  induction ids with
  | nil => rfl
  | cons id rest ih =>
    rw [List.filterMap_cons]
    cases hc : Comp.ofBits id with
    | none =>
      rw [unsetBinding, hc]
      exact ih
    | some c =>
      obtain rfl := ofBits_bits hc
      rw [unsetBinding_cons, ih, List.find?_cons]
      cases hu : unbound s c <;> simp [hu]

theorem scanIdsDistinct_eq_false (ids : List (BitVec 2)) :
    scanIdsDistinct ids = false ↔ 0 ∈ ids ∨ ¬ids.Nodup := by
  rw [scanIdsDistinct, Bool.and_eq_false_iff, decide_eq_false_iff_not, decide_eq_false_iff_not, not_not]

/-- The checks of the two capacities, the last of R312. -/
def capacityError (s : State) : Option (ErrCode × BitVec 2) :=
  if s.params.bsBytes < s.bsLen.toNat then some (.bsLenRange, 0)
  else if s.params.outBytes < 3 * s.width.toNat * s.height.toNat then some (.outTooSmall, 0)
  else none

/-- With a legal frame and scan the bindings are checked, and then the capacities. -/
theorem startScanError_of_scan {s : State} (hdim : ¬(s.width = 0 ∨ s.height = 0))
    (hncomp : ¬¬(s.ncomp = 1 ∨ s.ncomp = 3)) (hn : ¬s.scanCfg.n ≠ s.ncomp)
    (hids : ¬scanIdsDistinct (scanIds s.scanCfg) = false) :
    startScanError s = (unsetBinding (scanIds s.scanCfg) s).or (capacityError s) := by
  rw [startScanError, if_neg hdim, if_neg hncomp, if_neg hn, if_neg hids]
  cases unsetBinding (scanIds s.scanCfg) s <;> rfl

theorem execStartScan_of_error {s : State} (he : s.err = false) {e : Byte × BitVec 2}
    (h : (startScanError s).map numbered = some e) :
    exec .startScan s = .next (raised e.1 e.2 s) := by
  obtain ⟨x, hx, rfl⟩ := Option.map_eq_some_iff.1 h
  refine (unlessFrozen_of_not_err he _).trans ?_
  rw [startScanBody, hx]
  rfl

theorem execStartScan_of_none {s : State} (he : s.err = false) (h : startScanError s = none) :
    exec .startScan s = .next (complete (beginScan s)) := by
  refine (unlessFrozen_of_not_err he _).trans ?_
  rw [startScanBody, h]
  rfl

/-! ## The scan begun (R312) -/

theorem ceil8_le (w : Half) : ceil8 w.toNat ≤ 8192 := by
  unfold ceil8
  omega

theorem scanBegun_beginScan (s : State) : scanBegun s (complete (beginScan s)) := by
  have hw := ceil8_le s.width
  have hh := ceil8_le s.height
  refine ⟨rfl, ?_, ?_, ?_, fun c => ?_, fun c i => ?_⟩
  · exact (BitVec.toNat_ofNat _ _).trans (Nat.mod_eq_of_lt (by omega))
  · exact (BitVec.toNat_ofNat _ _).trans (Nat.mod_eq_of_lt (by omega))
  · refine (BitVec.toNat_ofNat _ _).trans (Nat.mod_eq_of_lt ?_)
    exact (Nat.mul_le_mul hw hh).trans_lt (by decide)
  · exact Vector.getElem_replicate _
  · show (Vector.replicate 3 (Vector.replicate 64 (0 : Half)))[c.idx][i] = 0
    simp

/-- Settles O26: the checks are those of the model one by one, and with none failing the scan begins. -/
theorem startScanRule : Obligations.StartScanRule := by
  unfold Obligations.StartScanRule
  refine ⟨decode_encode .startScan, fun s => ⟨fun he => unlessFrozen_of_err he _, fun he => ?_⟩⟩
  dsimp only
  rw [← scanIds]
  have hfail (e : ErrCode × BitVec 2) (h : startScanError s = some e) :=
    execStartScan_of_error he (congrArg (Option.map numbered) h)
  have hone : s.ncomp.toNat = 1 ↔ s.ncomp = 1 := BitVec.toNat_inj (y := 1)
  have hthree : s.ncomp.toNat = 3 ↔ s.ncomp = 3 := BitVec.toNat_inj (y := 3)
  have hids := scanIdsDistinct_eq_false (scanIds s.scanCfg)
  simp only [hone, hthree]
  split
  case isTrue h1 => exact hfail (.badDimensions, 0) (by rw [startScanError, if_pos h1])
  rename_i h1
  split
  case isTrue h2 => exact hfail (.badNcomp, 0) (by rw [startScanError, if_neg h1, if_pos h2])
  rename_i h2
  split
  case isTrue h3 => exact hfail (.badScan, 0) (by rw [startScanError, if_neg h1, if_neg h2, if_pos h3])
  rename_i h3
  split
  case isTrue h4 =>
    refine hfail (.badScan, 0) ?_
    rw [startScanError, if_neg h1, if_neg h2, if_neg h3, if_pos (hids.mpr h4)]
  rename_i h4
  have hscan := startScanError_of_scan h1 h2 h3 fun h => h4 (hids.mp h)
  have hbind := unsetBinding_eq_find (scanIds s.scanCfg) s
  split
  case h_1 c hc =>
    refine execStartScan_of_error (e := (_, _)) he ?_
    rw [hscan, Option.map_or, hbind, hc]
    rfl
  case h_2 hc =>
    rw [hc, Option.map_none, Option.map_eq_none_iff] at hbind
    rw [hbind, Option.none_or, capacityError] at hscan
    split
    case isTrue h5 => exact hfail (.bsLenRange, 0) (by rw [hscan, if_pos h5])
    rename_i h5
    split
    case isTrue h6 => exact hfail (.outTooSmall, 0) (by rw [hscan, if_neg h5, if_pos h6])
    rename_i h6
    rw [if_neg h5, if_neg h6] at hscan
    exact ⟨_, execStartScan_of_none he hscan, scanBegun_beginScan s⟩

end Sys2Proof.Machine
end

section
/-! PROOFS. DECODE_MCU: its checks, its blocks and its position (O27), what it forgets at a restart boundary
(O29) and what it leaves unchanged (O30). -/

namespace Sys2Proof.Machine

open Sys2Proof.Claims

/-! ## Blocks in scan order (R311, R313) -/

theorem decodeBlocks_cons (c : Comp) (rest : List (BitVec 2)) (s : State) :
    decodeBlocks (c.bits :: rest) s = (decodeBlock c s).andThen fun _ t => decodeBlocks rest t := by
  rw [decodeBlocks, ofBits_of_bits]

/-- A block is cleared, and then its DC and its AC coefficients are decoded. -/
theorem decodeBlocks_cons_eq (c : Comp) (rest : List (BitVec 2)) (s : State) :
    decodeBlocks (c.bits :: rest) s = (decodeDc c (s.withZeroBlock c)).andThen fun _ t =>
      (decodeAc c t).andThen fun _ u => decodeBlocks rest u := by
  rw [decodeBlocks_cons, decodeBlock, andThen_assoc]

/-! ## The restart boundary (R315, R316) -/

theorem atRestart_iff (s : State) :
    atRestart s = true ↔ s.restart ≠ 0 ∧ s.mcuIdx ≠ 0 ∧ s.mcuIdx.toNat % s.restart.toNat = 0 := by
  simp [atRestart, and_assoc]

theorem restartBoundary_eq_afterBoundary (align : Bool) (s : State) :
    restartBoundary align s = afterBoundary align s := by
  unfold restartBoundary afterBoundary
  simp only [atRestart_iff]
  split
  · cases align with
    | false => rw [if_neg (by simp), if_neg (by simp)]
    | true =>
      by_cases hoff : s.bitOff = 0
      · rw [if_pos rfl, alignCursor, if_pos hoff, if_neg (by simp [hoff])]
      · rw [if_pos rfl, alignCursor, if_neg hoff, if_pos ⟨rfl, hoff⟩]
  · rfl

/-- At a restart boundary the predictors are cleared, whatever they were. -/
theorem restartBoundary_withPred {s : State} (h : atRestart s = true) (align : Bool) (p : Vector Half 3) :
    restartBoundary align { s with pred := p } = restartBoundary align s := by
  have hp : atRestart { s with pred := p } = true := h
  rw [restartBoundary, restartBoundary, if_pos h, if_pos hp]

/-! ## The command (R313) -/

theorem decodeMcuBody_of_sequence {align : Bool} {s : State}
    (h : s.scanActive = false ∨ s.mcuTotal ≤ s.mcuIdx) :
    decodeMcuBody align s = .stop (.error .sequence 0) s := if_pos h

theorem decodeMcuBody_of_scan {align : Bool} {s : State} (ha : s.scanActive = true)
    (hi : s.mcuIdx.toNat < s.mcuTotal.toNat) :
    decodeMcuBody align s =
      (decodeBlocks (scanIds s.scanCfg) (afterBoundary align s)).andThen fun _ t =>
        .done () { t with lastMcu := s.mcuIdx, mcuIdx := s.mcuIdx + 1, mcuPending := true } := by
  rw [← restartBoundary_eq_afterBoundary]
  refine if_neg (not_or.2 ⟨by simp [ha], BitVec.not_le.2 hi⟩)

theorem sampledAlign_of_latch {s : State} {l : Latch} (h : s.latch = some l) :
    s.sampledAlign = l.rstAlign := by
  rw [State.sampledAlign, h]

theorem execDecodeMcu_of_not_err {s : State} (he : s.err = false) :
    exec .decodeMcu s = conclude (decodeMcuBody s.sampledAlign s) := unlessFrozen_of_not_err he _

/-- An error of the blocks has its number in R601. -/
theorem mem_decodeErrors {code : ErrCode} (h : code ∈ decodeCodes) :
    (code, errorByte code) ∈ decodeErrors :=
  List.mem_map_of_mem (f := fun c => (c, errorByte c)) h

/-- Settles O27: the checks in order, the blocks one by one, and the completion by what the blocks answer. -/
theorem decodeMcuRule : Obligations.DecodeMcuRule := by
  unfold Obligations.DecodeMcuRule
  refine ⟨decode_encode .decodeMcu, fun _ => rfl, ?_, fun s => ⟨fun he => unlessFrozen_of_err he _,
    fun he hseq => ?_, fun he ha hi l hl => ⟨fun t hblocks => ?_, fun code comp t hblocks => ?_⟩⟩⟩
  · intro c rest u z hz
    obtain rfl : z = u.withZeroBlock c := hz
    rw [decodeBlocks_cons_eq]
    refine ⟨fun e v hdc => ?_, fun v e x hdc hac => ?_, fun v x hdc hac => ?_⟩
    · rw [hdc, andThen_stop]
    · rw [hdc, andThen_done, hac, andThen_stop]
    · rw [hdc, andThen_done, hac, andThen_done]
  · rw [execDecodeMcu_of_not_err he, decodeMcuBody_of_sequence hseq]
    rfl
  · rw [execDecodeMcu_of_not_err he, decodeMcuBody_of_scan ha hi, sampledAlign_of_latch hl, hblocks]
    rfl
  · refine ⟨errorByte code, mem_decodeErrors (decodeBlocks_errors _ _ code comp t hblocks), ?_⟩
    rw [execDecodeMcu_of_not_err he, decodeMcuBody_of_scan ha hi, sampledAlign_of_latch hl, hblocks]
    rfl

/-- Settles O29: the state in which the blocks are decoded is the same. -/
theorem restartForgetsPredictors : Obligations.RestartForgetsPredictors := by
  unfold Obligations.RestartForgetsPredictors
  intro s p he ha hi hr hm hmod
  have hbound := restartBoundary_withPred ((atRestart_iff s).2 ⟨hr, hm, hmod⟩) s.sampledAlign p
  simp only [restartBoundary_eq_afterBoundary] at hbound
  have hbody : decodeMcuBody s.sampledAlign { s with pred := p } = decodeMcuBody s.sampledAlign s := by
    rw [decodeMcuBody_of_scan ha hi, decodeMcuBody_of_scan (s := { s with pred := p }) ha hi, hbound]
  rw [execDecodeMcu_of_not_err he, execDecodeMcu_of_not_err (s := { s with pred := p }) he]
  exact congrArg conclude hbody

/-! ## What DECODE_MCU leaves unchanged (R313, R603) -/

/-- An error of DECODE_MCU leaves the position; its codes are SEQUENCE and those of the blocks. -/
theorem decodeMcuBody_error {align : Bool} {s u : State} {e : ErrCode} {b : BitVec 2}
    (h : decodeMcuBody align s = .stop (.error e b) u) :
    u.mcuIdx = s.mcuIdx ∧ u.lastMcu = s.lastMcu ∧ u.mcuPending = s.mcuPending ∧
      errorByte e ∈ [(0x0B : Byte), 0x10, 0x11, 0x12, 0x13] := by
  rcases decodeMcuBody_cases align s with ⟨_, hb⟩ | ⟨_, _, ⟨_, v, hblocks, hstep, hb⟩ | ⟨_, _, _, hb⟩⟩ <;>
    cases hb.symm.trans h
  · exact ⟨rfl, rfl, rfl, by decide⟩
  · have hcode : e ∈ decodeCodes := decodeBlocks_errors _ _ e b u hblocks
    rw [hstep.frame]
    exact ⟨rfl, rfl, rfl, List.mem_cons_of_mem _ (List.mem_map_of_mem (f := errorByte) hcode)⟩

/-- Settles O30: the body's frame, and at completion the error entry or the two flags of the life cycle. -/
theorem decodeMcuFrame : Obligations.DecodeMcuFrame := by
  unfold Obligations.DecodeMcuFrame
  intro s t h
  have hframe := decodeMcuBody_frame s.sampledAlign s
  rcases unlessFrozen_next h with ⟨he, rfl⟩ | ⟨he, u, hu, rfl⟩ | ⟨_, e, b, u, hu, rfl⟩
  · exact ⟨rfl, fun _ => ⟨rfl, rfl⟩, fun hf => absurd (he.symm.trans hf) (by decide)⟩
  · rw [hu, state_done, McuFrame] at hframe
    have herr : u.err = false := by rw [hframe, he]
    refine ⟨?_, fun a => ?_, fun _ ht => absurd (ht.symm.trans herr) (by decide)⟩
    · rw [hframe]; rfl
    · rw [hframe]; exact ⟨rfl, rfl⟩
  · rw [hu, state_stop, McuFrame] at hframe
    obtain ⟨hidx, hlast, hpend, hcode⟩ := decodeMcuBody_error hu
    refine ⟨?_, fun a => ?_, fun _ _ => ⟨hidx, hlast, hpend, hidx, rfl, hcode⟩⟩
    · rw [hframe]; rfl
    · rw [hframe]; exact ⟨rfl, rfl⟩

end Sys2Proof.Machine
end

section
/-! PROOFS. An MCU of one block whose bits are a DC code, its field and end of block (O28). -/

namespace Sys2Proof.Machine

open Sys2Proof.Claims

/-! ## One block (R308 to R311) -/

theorem CursorStep.predOf {s t : State} (h : CursorStep s t) (c : Comp) : t.predOf c = s.predOf c := by
  rw [h.frame]; rfl

theorem CursorStep.block {s t : State} (h : CursorStep s t) (c : Comp) : t.block c = s.block c := by
  rw [h.frame]; rfl

/-- A DC code of a legal category and its magnitude field decode to the DC coefficient (R308, R309). -/
theorem decodeDc_slot {c : Comp} {s : State} {h : HuffTable} {i : Fin 162} {l : Fin 16} {n : Nat}
    (hh : s.huff .dc (s.cfg c).dcId = h) (hb : Built h) (hfit : BsFits s) (hi : InSlots h i l)
    (hn : h.symbol[i].toNat = n) (hle : n ≤ 15)
    (hcode : payloadField s s.cursor (l.val + 1) = h.code[i].toNat)
    (hin : s.cursor + (l.val + 1) + n ≤ 8 * s.bsLen.toNat) :
    ∃ t, decodeDc c s = .done () t ∧ DecodeStep s t ∧ t.cursor = s.cursor + (l.val + 1) + n ∧
      t.predOf c = wrap16 ((s.predOf c).toInt + extend (payloadField s (s.cursor + (l.val + 1)) n) n) ∧
      t.block c = (s.block c).set 0 (t.predOf c) := by
  subst hh
  obtain ⟨t, hdec, htcur, htstep⟩ := huffDecode_slot hb c.bits s i l hfit hi hcode (by omega)
  obtain ⟨u, hread, hucur, hustep⟩ := readBitsFrom_inside c.bits n 0 t (htstep.bsFits hfit)
    (by rw [htcur, htstep.bsLen]; exact hin)
  rw [Nat.zero_mul, Nat.zero_add, payloadField_congr htstep.bs, htcur] at hread
  have hstep := htstep.trans hustep
  refine ⟨predictDc c (extend (payloadField s (s.cursor + (l.val + 1)) n) n) u, ?_,
    hstep.decode.trans (predictDc_step c _ u), hucur.trans (by rw [htcur]), ?_, ?_⟩
  · rw [decodeDc_of_field hdec (hn.trans_le hle), hn, readBits, hread, andThen_done]
  · rw [predictDc_predOf, hstep.predOf]
  · rw [predictDc_predOf, predictDc_block, hstep.block]
    rfl

/-- The code of end of block ends the AC coefficients at once (R310). -/
theorem decodeAc_endOfBlock {c : Comp} {s : State} {h : HuffTable} {j : Fin 162} {m : Fin 16}
    (hh : s.huff .ac (s.cfg c).acId = h) (hb : Built h) (hfit : BsFits s) (hj : InSlots h j m)
    (hz : h.symbol[j] = 0) (hcode : payloadField s s.cursor (m.val + 1) = h.code[j].toNat)
    (hin : s.cursor + (m.val + 1) ≤ 8 * s.bsLen.toNat) :
    ∃ t, decodeAc c s = .done () t ∧ CursorStep s t ∧ t.cursor = s.cursor + (m.val + 1) := by
  subst hh
  obtain ⟨t, hdec, hcur, hstep⟩ := huffDecode_slot hb c.bits s j m hfit hj hcode hin
  rw [hz] at hdec
  exact ⟨t, (acFrom_of_symbol (by decide) hdec).trans (acSymbol_endOfBlock c 1 t), hstep, hcur⟩

theorem DecodeStep.bs {s t : State} (h : DecodeStep s t) : t.bs = s.bs := by rw [h.frame]

theorem DecodeStep.bsLen {s t : State} (h : DecodeStep s t) : t.bsLen = s.bsLen := by rw [h.frame]

/-- A block of a DC code, its field and end of block decodes to that DC and zeros (R311). -/
theorem decodeBlock_dcOnly {c : Comp} {s : State} {hd ha : HuffTable} {i j : Fin 162} {l m : Fin 16} {n : Nat}
    (hhd : s.huff .dc (s.cfg c).dcId = hd) (hha : s.huff .ac (s.cfg c).acId = ha) (hbd : Built hd)
    (hba : Built ha) (hfit : BsFits s) (hi : InSlots hd i l) (hj : InSlots ha j m)
    (hn : hd.symbol[i].toNat = n) (hle : n ≤ 15) (hz : ha.symbol[j] = 0)
    (hdc : payloadField s s.cursor (l.val + 1) = hd.code[i].toNat)
    (hac : payloadField s (s.cursor + (l.val + 1) + n) (m.val + 1) = ha.code[j].toNat)
    (hin : s.cursor + (l.val + 1) + n + (m.val + 1) ≤ 8 * s.bsLen.toNat) :
    ∃ t, decodeBlock c s = .done () t ∧ DecodeStep s t ∧
      t.cursor = s.cursor + (l.val + 1) + n + (m.val + 1) ∧
      t.predOf c = wrap16 ((s.predOf c).toInt + extend (payloadField s (s.cursor + (l.val + 1)) n) n) ∧
      t.block c = (Vector.replicate 64 0).set 0 (t.predOf c) := by
  have hfield (a k : Nat) : payloadField (s.withZeroBlock c) a k = payloadField s a k :=
    payloadField_congr (t := s.withZeroBlock c) (s := s) rfl a k
  have hzcur : (s.withZeroBlock c).cursor = s.cursor := rfl
  obtain ⟨t, htdc, htstep, hcur, htpred, htblock⟩ := decodeDc_slot (s := s.withZeroBlock c) hhd hbd hfit hi
    hn hle ((hfield _ _).trans hdc) (by rw [hzcur, withZeroBlock_bsLen]; omega)
  rw [hzcur] at hcur
  rw [hzcur, hfield, withZeroBlock_predOf] at htpred
  have hstep := (withZeroBlock_step c s).trans htstep
  obtain ⟨u, huac, hustep, hucur⟩ := decodeAc_endOfBlock (s := t) (c := c)
    ((hstep.huff .ac _).trans (hstep.sameConfig.cfg c ▸ hha)) hba (hstep.bsFits hfit) hj hz
    ((payloadField_congr hstep.bs _ _).trans (hcur ▸ hac)) (by rw [hcur, hstep.bsLen]; exact hin)
  refine ⟨u, ?_, hstep.trans hustep.decode, by rw [hucur, hcur], ?_, ?_⟩
  · rw [decodeBlock, htdc, andThen_done, huac]
  · rw [hustep.predOf, htpred]
  · rw [hustep.predOf, hustep.block, htblock, withZeroBlock_block]

/-! ## The tables of a scan (R312) -/

/-- A component without an unset binding has both its Huffman tables set. -/
theorem htSet_of_unbound {s : State} {c : Comp} (h : unbound s c = none) :
    s.htSet .dc (s.cfg c).dcId = true ∧ s.htSet .ac (s.cfg c).acId = true := by
  unfold unbound at h
  split at h
  · cases h
  · split at h
    · cases h
    · split at h
      · cases h
      · rename_i _ hdc hac
        exact ⟨Bool.eq_true_of_not_eq_false hdc, Bool.eq_true_of_not_eq_false hac⟩

/-- The Huffman tables of a scan component are set when no binding is unset. -/
theorem htSet_of_unsetBinding {ids : List (BitVec 2)} {s : State} {c : Comp}
    (h : unsetBinding ids s = none) (hc : c.bits ∈ ids) :
    s.htSet .dc (s.cfg c).dcId = true ∧ s.htSet .ac (s.cfg c).acId = true := by
  have hfind := unsetBinding_eq_find ids s
  rw [h, Option.map_none, eq_comm, Option.map_eq_none_iff, List.find?_eq_none] at hfind
  have hnone := hfind c (List.mem_filterMap.2 ⟨c.bits, hc, ofBits_of_bits c⟩)
  exact htSet_of_unbound (Option.not_isSome_iff_eq_none.1 hnone)

/-- The tables an active scan decodes with are built (R312). -/
theorem EngineInv.built {s : State} (h : EngineInv s) (ha : s.scanActive = true) {c : Comp}
    (hc : c.bits ∈ scanIds s.scanCfg) :
    Built (s.huff .dc (s.cfg c).dcId) ∧ Built (s.huff .ac (s.cfg c).acId) := by
  obtain ⟨_, _, _, _, _, hbind, _⟩ := startScanError_none (h.scan.1 ha).1
  obtain ⟨hdc, hac⟩ := htSet_of_unsetBinding hbind hc
  exact ⟨(h.tables .dc _).built hdc, (h.tables .ac _).built hac⟩

/-- Settles O28: the one block of the MCU is decoded from the state that the boundary leaves. -/
theorem dcOnlyMcuDecodes : Obligations.DcOnlyMcuDecodes := by
  unfold Obligations.DcOnlyMcuDecodes
  rintro s u c i j l m hinv he ha hidx rfl hids hi hj hle hz hdc hac hin
  obtain ⟨hbd, hba⟩ := hinv.engine.built ha (c := c) (by rw [hids]; exact List.mem_singleton_self _)
  have hstep := restartBoundary_step s.sampledAlign s
  rw [restartBoundary_eq_afterBoundary] at hstep
  have hcfg := hstep.sameConfig.cfg c
  obtain ⟨t, hblock, htstep, hcur, hpred, hcoef⟩ := decodeBlock_dcOnly
    ((hstep.huff .dc _).trans (by rw [hcfg])) ((hstep.huff .ac _).trans (by rw [hcfg])) hbd hba
    (hstep.bsFits (hinv.engine.decodeFits ha).1) ((inSlots_iff_inClass _ i l).mpr hi)
    ((inSlots_iff_inClass _ j m).mpr hj) rfl hle hz
    ((payloadField_congr hstep.bs _ _).trans hdc) ((payloadField_congr hstep.bs _ _).trans hac)
    (by rw [hstep.bsLen]; exact hin)
  rw [payloadField_congr hstep.bs] at hpred
  refine ⟨complete { t with lastMcu := s.mcuIdx, mcuIdx := s.mcuIdx + 1, mcuPending := true }, ?_, ?_, hcur,
    hpred, ?_, fun k hk => ?_, rfl, rfl, rfl⟩
  · rw [execDecodeMcu_of_not_err he, decodeMcuBody_of_scan ha hidx, hids, decodeBlocks_cons, hblock]
    rfl
  · rw [complete_err, (hstep.trans htstep).frame]
    exact he
  · change (t.block c)[(0 : Fin 64)] = t.predOf c
    rw [hcoef]
    exact Vector.getElem_set_self _
  · change (t.block c)[k] = 0
    rw [hcoef]
    refine (Vector.getElem_set_ne _ _ fun h => hk (Fin.ext h.symm)).trans (Vector.getElem_replicate _)

end Sys2Proof.Machine
end

section
/-! PROOFS. The bit cursor never goes back (O31), and the pixels of the image among the tiles (O38). -/

namespace Sys2Proof.Machine

open Sys2Proof.Claims

/-! ## The cursor (R304) -/

/-- The cursor is not moved back. -/
def Forward (s t : State) : Prop := s.cursor ≤ t.cursor

theorem Forward.trans {s t u : State} (h : Forward s t) (k : Forward t u) : Forward s u := Nat.le_trans h k

/-- A command is as forward as its body. -/
theorem unlessFrozen_forward {body : State → Res Unit} {s t : State} (hb : Forward s (body s).state)
    (h : unlessFrozen body s = .next t) : Forward s t := by
  rcases unlessFrozen_next h with ⟨_, rfl⟩ | ⟨_, u, hu, rfl⟩ | ⟨_, e, b, u, hu, rfl⟩
  · exact Nat.le_refl _
  · rw [hu] at hb; exact hb
  · rw [hu] at hb; exact hb

/-- Neither the check of R201 nor a table command's body moves the cursor. -/
theorem unlessScanning_forward {body : State → Res Unit} {s : State} (hb : Forward s (body s).state) :
    Forward s (unlessScanning body s).state := by
  unfold unlessScanning
  split
  · exact Nat.le_refl _
  · exact hb

theorem buildHtBody_forward (c : HuffClass) (k : TableId) (s : State) :
    Forward s (buildHtBody c k s).state := by
  unfold buildHtBody
  split
  · exact Nat.le_refl _
  · cases c <;> exact Nat.le_refl _

theorem decodeMcuBody_forward (align : Bool) (s : State) : Forward s (decodeMcuBody align s).state := by
  rcases decodeMcuBody_cases align s with ⟨_, e⟩ | ⟨_, _, ⟨_, t, _, hs, e⟩ | ⟨t, _, hs, e⟩⟩ <;> rw [e]
  · exact Nat.le_refl _
  · exact hs.forward
  · exact hs.forward

theorem reconMcuBody_forward (s : State) : Forward s (reconMcuBody s).state := by
  have h := reconMcuBody_frame s
  rw [ReconFrame] at h
  rw [h]
  exact Nat.le_refl _

theorem runLoop_forward (align : Bool) (n : Nat) (s : State) : Forward s (runLoop align n s).state := by
  induction n generalizing s with
  | zero => exact Nat.le_refl _
  | succ m ih =>
    unfold runLoop
    split
    · exact andThen_rel (R := Forward) Forward.trans (decodeMcuBody_forward align s) fun _ t _ =>
        andThen_rel (R := Forward) Forward.trans (reconMcuBody_forward t) fun _ u _ => ih u
    · exact Nat.le_refl _

theorem runBody_forward (align : Bool) (s : State) : Forward s (runBody align s).state := by
  unfold runBody
  split
  · exact Nat.le_refl _
  · refine andThen_rel (R := Forward) Forward.trans ?_ fun _ t _ => runLoop_forward align _ t
    unfold runPending
    split
    · exact reconMcuBody_forward s
    · exact Nat.le_refl _

/-- Settles O31: command by command, from what its body does to the cursor. -/
theorem cursorNeverGoesBack : Obligations.CursorNeverGoesBack := by
  unfold Obligations.CursorNeverGoesBack
  intro i s t hscan hreset h
  change Forward s t
  cases i with
  | nop => exact unlessFrozen_forward (Nat.le_refl _) h
  | reset => exact absurd rfl hreset
  | setQt k => exact unlessFrozen_forward (unlessScanning_forward (Nat.le_refl _)) h
  | buildHt c k => exact unlessFrozen_forward (unlessScanning_forward (buildHtBody_forward c k s)) h
  | startScan => exact absurd rfl hscan
  | decodeMcu => exact unlessFrozen_forward (decodeMcuBody_forward _ s) h
  | reconMcu => exact unlessFrozen_forward (reconMcuBody_forward s) h
  | run => exact unlessFrozen_forward (runBody_forward _ s) h

/-! ## Pixels and tiles (R314, R413, R414) -/

theorem imageX_eq (s : State) (m : Nat) (p : Fin 64) :
    imageX s m p = 8 * (m % s.mcuCols.toNat) + p.val % 8 := by
  unfold imageX pixelX
  rw [Fin.val_ofNat, Nat.mod_mod]

theorem imageY_eq (s : State) (m : Nat) (p : Fin 64) :
    imageY s m p = 8 * (m / s.mcuCols.toNat) + p.val / 8 := by
  unfold imageY pixelY
  rw [Fin.val_ofNat, Nat.mod_eq_of_lt (by omega)]

/-- The MCU whose tile holds the pixel (x, y). -/
def tileOf (s : State) (x y : Nat) : Nat := s.mcuCols.toNat * (y / 8) + x / 8

/-- The place of the pixel (x, y) in its tile. -/
def placeOf (x y : Nat) : Fin 64 := ⟨8 * (y % 8) + x % 8, by omega⟩

theorem div_eight_lt_ceil8 {x w : Nat} (h : x < w) : x / 8 < ceil8 w := by
  unfold ceil8
  omega

theorem tileOf_lt {s : State} (h : s.scanConfigured) {x y : Nat} (hx : x < s.width.toNat)
    (hy : y < s.height.toNat) : tileOf s x y < s.mcuTotal.toNat := by
  obtain ⟨_, hcols, _, htotal, _⟩ := h
  rw [tileOf, hcols, htotal, Nat.mul_comm (ceil8 s.width.toNat) (ceil8 _)]
  exact Nat.mul_add_lt_mul_of_lt_of_lt (div_eight_lt_ceil8 hy) (div_eight_lt_ceil8 hx)

/-- The tile and the place of a pixel lead to the pixel. -/
theorem image_tileOf {s : State} {x y : Nat} (hx : x / 8 < s.mcuCols.toNat) :
    imageX s (tileOf s x y) (placeOf x y) = x ∧ imageY s (tileOf s x y) (placeOf x y) = y := by
  rw [imageX_eq, imageY_eq, tileOf, placeOf, Nat.mul_add_mod, Nat.mod_eq_of_lt hx,
    Nat.mul_add_div (by omega), Nat.div_eq_of_lt hx]
  dsimp only
  omega

/-- A tile and a place are those of the pixel they lead to. -/
theorem eq_tileOf (s : State) (m : Nat) (p : Fin 64) :
    m = tileOf s (imageX s m p) (imageY s m p) ∧ p = placeOf (imageX s m p) (imageY s m p) := by
  have hdiv (a b : Nat) (h : b < 8) : (8 * a + b) / 8 = a := by omega
  rw [imageX_eq, imageY_eq, tileOf, hdiv _ _ (by omega), hdiv _ _ (by omega)]
  exact ⟨(Nat.div_add_mod m _).symm, Fin.ext (by simp only [placeOf]; omega)⟩

/-- Settles O38: the tile and the place of the pixel, by division and remainder. -/
theorem eachPixelInOneTile : Obligations.EachPixelInOneTile := by
  unfold Obligations.EachPixelInOneTile
  intro s x y hconf hx hy
  have hcols : x / 8 < s.mcuCols.toNat := hconf.2.1 ▸ div_eight_lt_ceil8 hx
  refine ⟨(tileOf s x y, placeOf x y), ⟨tileOf_lt hconf hx hy, image_tileOf hcols⟩, ?_⟩
  rintro ⟨m, p⟩ ⟨_, rfl, rfl⟩
  obtain ⟨hm, hp⟩ := eq_tileOf s m p
  exact Prod.ext hm hp

end Sys2Proof.Machine
end

section
/-! PROOFS. The arithmetic of reconstruction: the zigzag map (O32), the bounds of the inverse DCT (O33), its
samples (O34) and the colour conversion (O35). -/

namespace Sys2Proof.Machine

open Sys2Proof.Claims

/-! ## The zigzag map (R402, R403) -/

/-- The zigzag position of a natural index: the cells of the anti-diagonals before its own, and its place on
its own, counted from the bottom on even ones and from the top on odd ones (R403). -/
def zigzagPosition (i : Fin 64) : Nat :=
  let r := i.val / 8
  let c := i.val % 8
  let d := r + c
  let place := if d % 2 = 0 then c else r
  if d < 8 then d * (d + 1) / 2 + place else 64 - (15 - d) * (16 - d) / 2 + (place - (d - 7))

theorem zigzagPosition_zz : ∀ k : Fin 64, zigzagPosition (zz k) = k.val := by
  decide

theorem zz_injective : Function.Injective zz := fun j k h =>
  Fin.ext (by rw [← zigzagPosition_zz j, h, zigzagPosition_zz k])

/-- Settles O32: the closed form of the position inverts ZZ, and the walk is checked step by step. -/
theorem zigzagIsTheDiagonalWalk : Obligations.ZigzagIsTheDiagonalWalk := by
  unfold Obligations.ZigzagIsTheDiagonalWalk
  exact ⟨Finite.injective_iff_bijective.mp zz_injective, rfl, rfl, by decide⟩

/-! ## Clamping and shifting (R13) -/

theorem floorShift_eq_div (a : Int) (n : Nat) : floorShift a n = a / 2 ^ n :=
  Int.shiftRight_eq_div_pow a n

theorem clamp8_toNat (v : Int) : ((clamp8 v).toNat : Int) = clamped v := by
  unfold clamp8 clamped
  split
  · rw [max_eq_left (by omega)]; rfl
  · split
    · rw [min_eq_left (by omega)]; rfl
    · rw [min_eq_right (by omega), max_eq_right (by omega), BitVec.toNat_ofInt]
      omega

theorem clamp8_toNat_self (b : Byte) : clamp8 b.toNat = b := by
  have hlt := b.isLt
  apply BitVec.eq_of_toNat_eq
  have h := clamp8_toNat b.toNat
  unfold clamped at h
  omega

/-! ## Dequantization (R404) -/

theorem dequant_bounds (coef q : Vector Half 64) (i : Fin 64) :
    -2147450880 ≤ dequant coef q i ∧ dequant coef q i ≤ 2147385345 := by
  have hlo : -32768 ≤ coef[i].toInt := BitVec.le_toInt coef[i]
  have hhi : coef[i].toInt ≤ 32767 := Int.le_of_lt_add_one BitVec.toInt_lt
  have hq : (q[i].toNat : Int) ≤ 65535 := Int.ofNat_le.mpr (Nat.le_of_lt_succ q[i].isLt)
  have hnonneg : (0 : Int) ≤ q[i].toNat := Int.natCast_nonneg _
  constructor
  · calc (-2147450880 : Int) ≤ -32768 * q[i].toNat := by omega
      _ ≤ dequant coef q i := mul_le_mul_of_nonneg_right hlo hnonneg
  · calc dequant coef q i ≤ 32767 * q[i].toNat := mul_le_mul_of_nonneg_right hhi hnonneg
      _ ≤ 2147385345 := by omega

/-- The all-zero block dequantizes to zeros, whatever the table is. -/
theorem dequant_zero (q : Vector Half 64) (i : Fin 64) : dequant (Vector.replicate 64 0) q i = 0 := by
  unfold dequant
  rw [Fin.getElem_fin, Vector.getElem_replicate]
  exact Int.zero_mul _

/-! ## The weights of the inverse DCT (R406, R407) -/

theorem cosine_eq_cosineAt : ∀ x u : Fin 8, cosine x u = cosineAt x.val u.val := by
  decide

theorem weight_eq_weightAt (x y u v : Fin 8) :
    weight x y u v = weightAt x.val y.val u.val v.val := by
  unfold weight weightAt
  simp only [cosine_eq_cosineAt, Fin.ext_iff, Fin.val_zero]

theorem cosine_zero : ∀ x : Fin 8, cosine x 0 = 5793 := by
  decide

theorem sum_abs_cosine : ∀ x : Fin 8, ∑ u, |cosine x u| = 43284 := by
  decide

/-- No weight exceeds the product of its two cosines: at (0, 0) it is 2^25, and 5793^2 is above. -/
theorem abs_weight_le (x y u v : Fin 8) : |weight x y u v| ≤ |cosine x u| * |cosine y v| := by
  unfold weight
  split
  · rename_i h
    rw [h.1, h.2, cosine_zero, cosine_zero]
    decide
  · exact (abs_mul _ _).le

theorem sum_abs_weight_le (x y : Fin 8) : ∑ v, ∑ u, |weight x y u v| ≤ 43284 * 43284 :=
  calc ∑ v, ∑ u, |weight x y u v|
      ≤ ∑ v, ∑ u, |cosine x u| * |cosine y v| :=
        Finset.sum_le_sum fun v _ => Finset.sum_le_sum fun u _ => abs_weight_le x y u v
    _ = 43284 * 43284 := by
        simp only [← Finset.sum_mul, ← Finset.mul_sum, sum_abs_cosine]

/-! ## The accumulator (R407) -/

theorem idctAcc_eq_sum (coef q : Vector Half 64) (x y : Fin 8) :
    idctAcc coef q x y = ∑ v, ∑ u, weight x y u v * dequant coef q (naturalIndex v u) := by
  simp only [idctAcc, Fin.sum_univ_def]

theorem abs_idctAcc_le (coef q : Vector Half 64) (x y : Fin 8) :
    |idctAcc coef q x y| ≤ 43284 * 43284 * 2147450880 := by
  have hterm (u v : Fin 8) : |weight x y u v * dequant coef q (naturalIndex v u)| ≤
      |weight x y u v| * 2147450880 := by
    obtain ⟨hlo, hhi⟩ := dequant_bounds coef q (naturalIndex v u)
    rw [abs_mul]
    exact mul_le_mul_of_nonneg_left (abs_le.mpr ⟨hlo, by omega⟩) (abs_nonneg _)
  calc |idctAcc coef q x y|
      ≤ ∑ v, ∑ u, |weight x y u v * dequant coef q (naturalIndex v u)| := by
        rw [idctAcc_eq_sum]
        exact (Finset.abs_sum_le_sum_abs _ _).trans
          (Finset.sum_le_sum fun v _ => Finset.abs_sum_le_sum_abs _ _)
    _ ≤ ∑ v, ∑ u, |weight x y u v| * 2147450880 :=
        Finset.sum_le_sum fun v _ => Finset.sum_le_sum fun u _ => hterm u v
    _ = (∑ v, ∑ u, |weight x y u v|) * 2147450880 := by
        simp only [Finset.sum_mul]
    _ ≤ 43284 * 43284 * 2147450880 :=
        mul_le_mul_of_nonneg_right (sum_abs_weight_le x y) (by decide)

/-- Settles O33: no coefficient exceeds 2^15 * 65535, and the weights of a pixel sum to at most 43284^2. -/
theorem reconArithmeticFits : Obligations.ReconArithmeticFits := by
  unfold Obligations.ReconArithmeticFits
  intro coef q x y
  have hacc := abs_le.mp (abs_idctAcc_le coef q x y)
  exact ⟨dequant_bounds coef q, by omega, by omega⟩

/-- With D[0] the only nonzero coefficient the accumulator is the same at every pixel. -/
theorem idctAcc_of_dcOnly {coef q : Vector Half 64} (h : ∀ i : Fin 64, i ≠ 0 → dequant coef q i = 0)
    (x y : Fin 8) : idctAcc coef q x y = 2 ^ 25 * dequant coef q 0 := by
  have hterm (u v : Fin 8) (hne : u ≠ 0 ∨ v ≠ 0) :
      weight x y u v * dequant coef q (naturalIndex v u) = 0 := by
    rw [h _ fun hz => ?_, mul_zero]
    have := congrArg Fin.val hz
    simp only [naturalIndex, Fin.val_zero] at this
    omega
  rw [idctAcc_eq_sum,
    Fintype.sum_eq_single 0 fun v hv => Finset.sum_eq_zero fun u _ => hterm u v (.inr hv),
    Fintype.sum_eq_single 0 fun u hu => hterm u 0 (.inl hu)]
  rfl

/-! ## Samples (R408, R409) -/

theorem reconBlock_toNat (coef q : Vector Half 64) (p : Fin 64) :
    ((reconBlock coef q p).toNat : Int) =
      clamped ((idctAcc coef q (pixelX p) (pixelY p) + 2 ^ 27) / 2 ^ 28 + 128) := by
  rw [reconBlock, sampleOfAcc, clamp8_toNat, floorShift_eq_div]

theorem pixelX_val (p : Fin 64) : (pixelX p).val = p.val % 8 := by
  rw [pixelX, Fin.val_ofNat, Nat.mod_mod]

theorem pixelY_val (p : Fin 64) : (pixelY p).val = p.val / 8 := by
  rw [pixelY, Fin.val_ofNat, Nat.mod_eq_of_lt (by omega)]

/-- A block whose only nonzero dequantized coefficient is D[0] is uniform (R409). -/
theorem reconBlock_of_dcOnly {coef q : Vector Half 64} (h : ∀ i : Fin 64, i ≠ 0 → dequant coef q i = 0)
    (p : Fin 64) : ((reconBlock coef q p).toNat : Int) = clamped (128 + (dequant coef q 0 + 4) / 8) := by
  rw [reconBlock_toNat, idctAcc_of_dcOnly h]
  congr 1
  omega

/-- Settles O34: the sample is the rounded accumulator, which a DC-only block makes uniform. -/
theorem blockSamplesRule : Obligations.BlockSamplesRule := by
  unfold Obligations.BlockSamplesRule
  refine ⟨fun coef q p => ?_, fun coef q h p => reconBlock_of_dcOnly h p, fun q p => ?_⟩
  · rw [reconBlock_toNat, idctAcc_eq_sum]
    simp only [weight_eq_weightAt, pixelX_val, pixelY_val]
    rfl
  · have h := reconBlock_of_dcOnly (fun i _ => dequant_zero q i) p
    rw [dequant_zero] at h
    exact BitVec.eq_of_toNat_eq (Int.ofNat_inj.mp h)

/-! ## Colour conversion (R410) -/

/-- A channel: the clamped sum of Y and a product shifted by 16. -/
theorem clamp8_add_floorShift (luma a : Int) :
    ((clamp8 (luma + floorShift a 16)).toNat : Int) = clamped (luma + a / 65536) := by
  rw [clamp8_toNat, floorShift_eq_div]
  rfl

/-- Settles O35: each channel is a clamped floor division, and neutral chroma adds nothing to Y. -/
theorem colourConversionRule : Obligations.ColourConversionRule := by
  unfold Obligations.ColourConversionRule
  intro y cb cr
  refine ⟨clamp8_add_floorShift _ _, clamp8_add_floorShift _ _, clamp8_add_floorShift _ _, ?_⟩
  have hgray : clamp8 ((y.toNat : Int) + 0) = y := by rw [add_zero, clamp8_toNat_self]
  calc ycc y 128 128 = ⟨clamp8 (y.toNat + 0), clamp8 (y.toNat + 0), clamp8 (y.toNat + 0)⟩ := rfl
    _ = ⟨y, y, y⟩ := by rw [hgray]

end Sys2Proof.Machine
end

section
/-! PROOFS. RECON_MCU: its checks, the pixels of the cropped tile and the bytes it leaves (O36). -/

namespace Sys2Proof.Machine

open Sys2Proof.Claims

/-! ## Where the pixels of LAST_MCU lie (R413, R414) -/

theorem imageX_lastMcu (s : State) (p : Fin 64) : imageX s s.lastMcu.toNat p = pixX s p :=
  imageX_eq s _ p

theorem imageY_lastMcu (s : State) (p : Fin 64) : imageY s s.lastMcu.toNat p = pixY s p :=
  imageY_eq s _ p

theorem insideImage_lastMcu_iff (s : State) (p : Fin 64) :
    insideImage s s.lastMcu.toNat p = true ↔ pixInside s p := by
  rw [insideImage, imageX_lastMcu, imageY_lastMcu, Bool.and_eq_true, decide_eq_true_iff,
    decide_eq_true_iff, pixInside]

theorem pixelAddr_lastMcu (s : State) (p : Fin 64) : pixelAddr s s.lastMcu.toNat p = pixAddr s p := by
  rw [pixelAddr, imageX_lastMcu, imageY_lastMcu, pixAddr]

theorem mem_tileBytes_lastMcu {s : State} {a : Nat} (h : a ∈ tileBytes s s.lastMcu.toNat) :
    ∃ p, pixInside s p ∧ (a = pixAddr s p ∨ a = pixAddr s p + 1 ∨ a = pixAddr s p + 2) := by
  obtain ⟨p, _, hp⟩ := List.mem_flatMap.mp h
  unfold pixelBytes at hp
  split at hp
  · rename_i hin
    refine ⟨p, (insideImage_lastMcu_iff s p).mp hin, ?_⟩
    simpa only [pixelAddr_lastMcu, List.mem_cons, List.not_mem_nil, or_false] using hp
  · cases hp

/-! ## Where the colours come from (R411, R412) -/

/-- The pixels of an image of three components are in colour (R411). -/
theorem pixelSource_eq_colour {s : State} {src : PixelSource} (h : pixelSource s = some src)
    (hn : s.ncomp = 3) : src = .colour := by
  unfold pixelSource at h
  rw [if_pos hn] at h
  split at h
  · cases h
  · split at h
    · exact (Option.some.inj h).symm
    · cases h

/-- The one component of a checked scan of a gray image is that of SCAN_ID0 (R312). -/
theorem scanIds_of_gray {s : State} (h : startScanError s = none) (hn : s.ncomp ≠ 3) :
    scanIds s.scanCfg = [s.scanCfg.id0] := by
  obtain ⟨_, _, hncomp, hlen, _⟩ := startScanError_none h
  rw [scanIds, hlen, hncomp.resolve_right hn]
  rfl

/-- The pixels of a gray image are those of the component that SCAN_ID0 names (R412). -/
theorem pixelSource_eq_gray {s : State} {src : PixelSource} {c : Comp} (h : pixelSource s = some src)
    (hscan : startScanError s = none) (hn : s.ncomp ≠ 3) (hc : c.bits = s.scanCfg.id0) :
    src = .gray c := by
  unfold pixelSource at h
  rw [if_neg (scanIds_no_zero hscan), if_neg hn, scanIds_of_gray hscan hn, ← hc] at h
  simpa using h.symm

theorem pixelColour_colour (s : State) (p : Fin 64) :
    pixelColour s .colour p = ycc (sample s .c1 p) (sample s .c2 p) (sample s .c3 p) := rfl

/-! ## The command (R413) -/

theorem execReconMcu_of_not_err {s : State} (he : s.err = false) :
    exec .reconMcu s = conclude (reconMcuBody s) := unlessFrozen_of_not_err he _

theorem outByte_of_memRead {s : State} {a : Nat} {b : Byte} (h : memRead s.out a = some b) :
    s.outByte a = b := by
  rw [State.outByte, h, Option.getD_some]

/-- After a tile that changed only OUT, RECON_MCU ends with the two scan flags and its completion. -/
theorem complete_finishRecon_eq {s t : State} (h : OutOnly s t) :
    complete (finishRecon t) = { s with
      out := t.out, mcuPending := false,
      scanActive := if s.mcuIdx = s.mcuTotal then false else s.scanActive,
      latch := none, done := true } := by
  have hactive : (s.scanActive && !(s.mcuIdx == s.mcuTotal)) =
      if s.mcuIdx = s.mcuTotal then false else s.scanActive := by
    by_cases hlast : s.mcuIdx = s.mcuTotal
    · rw [if_pos hlast, hlast, beq_self_eq_true, Bool.not_true, Bool.and_false]
    · rw [if_neg hlast, beq_eq_false_iff_ne.mpr hlast, Bool.not_false, Bool.and_true]
  rw [← hactive, h]
  rfl

/-- A written tile holds the colour of each of its pixels inside the image. -/
theorem pixelIs_of_writeTile {s t : State} {src : PixelSource}
    (hw : writeTile s src s.lastMcu.toNat (List.finRange 64) s = .done () t)
    (hout : 3 * s.width.toNat * s.height.toNat ≤ s.params.outBytes) {p : Fin 64} (hp : pixInside s p) :
    pixelIs t (pixAddr s p) (pixelColour s src p).r (pixelColour s src p).g (pixelColour s src p).b := by
  obtain ⟨hr, hg, hb⟩ := writeTile_pixel s src s.lastMcu.toNat _ s hout (List.nodup_finRange 64) p
    (List.mem_finRange p) ((insideImage_lastMcu_iff s p).mpr hp)
  rw [hw, state_done, pixelAddr_lastMcu] at hr hg hb
  exact ⟨outByte_of_memRead hr, outByte_of_memRead hg, outByte_of_memRead hb⟩

/-- Settles O36: the two checks, and with an MCU pending the tile written from the scan's pixel source. -/
theorem reconMcuRule : Obligations.ReconMcuRule := by
  unfold Obligations.ReconMcuRule
  refine ⟨decode_encode .reconMcu, fun s => ⟨fun he => unlessFrozen_of_err he _, fun he hp => ?_,
    fun hinv he hp => ?_⟩⟩
  · rw [execReconMcu_of_not_err he, reconMcuBody, if_pos hp]
    rfl
  · obtain ⟨src, t, hsrc, hw, honly, hbody⟩ := reconMcuBody_done s hinv.engine hp
    obtain ⟨hscan, _⟩ := hinv.scan.1 (hinv.scan.2.1 hp).1
    obtain ⟨_, _, _, _, _, _, _, hout⟩ := startScanError_none hscan
    have hexec : exec .reconMcu s = .next (complete (finishRecon t)) := by
      rw [execReconMcu_of_not_err he, hbody]
      rfl
    refine ⟨complete (finishRecon t), hexec, complete_finishRecon_eq honly, fun p hin hn => ?_,
      fun p c hin hn hc => ?_, fun a ha => ?_⟩
    · obtain rfl := pixelSource_eq_colour hsrc (BitVec.eq_of_toNat_eq hn)
      rw [← pixelColour_colour]
      exact pixelIs_of_writeTile hw hout hin
    · obtain rfl := pixelSource_eq_gray hsrc hscan (fun h => hn (congrArg BitVec.toNat h)) hc
      exact pixelIs_of_writeTile hw hout hin
    · refine unlessFrozen_outByte (reconMcuBody_other s a fun hmem => ?_) hexec
      obtain ⟨p, hin, hp⟩ := mem_tileBytes_lastMcu hmem
      obtain ⟨h0, h1, h2⟩ := ha p hin
      omega

end Sys2Proof.Machine
end

section
/-! PROOFS. The command life cycle (R500 to R505): how a latched word runs (O4), NOP (O6), acceptance (O9),
what every completion leaves (O8), that it does not look at CTRL (O10), and when it comes (O11). -/

namespace Sys2Proof.Machine

open Sys2Proof.Claims

/-! ## The bodies of the commands -/

/-- What no command touches: CTRL, HOST_VIOL, the parameters and BS (R113). -/
structure Untouched (s t : State) : Prop where
  ctrl : t.ctrl = s.ctrl
  hostViol : t.hostViol = s.hostViol
  params : t.params = s.params
  bs : t.bs = s.bs

theorem Untouched.refl (s : State) : Untouched s s := ⟨rfl, rfl, rfl, rfl⟩

theorem RunFrame.untouched {s t : State} (h : RunFrame s t) : Untouched s t := by
  unfold RunFrame at h
  rw [h]
  exact ⟨rfl, rfl, rfl, rfl⟩

theorem unlessScanning_untouched {body : State → Res Unit} {s : State} (hb : Untouched s (body s).state) :
    Untouched s (unlessScanning body s).state := by
  unfold unlessScanning
  split
  · exact .refl s
  · exact hb

theorem buildHtBody_untouched (c : HuffClass) (k : TableId) (s : State) :
    Untouched s (buildHtBody c k s).state := by
  unfold buildHtBody
  split
  · exact .refl s
  · cases c <;> exact ⟨rfl, rfl, rfl, rfl⟩

theorem startScanBody_untouched (s : State) : Untouched s (startScanBody s).state := by
  unfold startScanBody
  split
  · exact .refl s
  · exact ⟨rfl, rfl, rfl, rfl⟩

/-- A body reads and writes neither CTRL, nor DONE, nor the latch (R505). -/
def IgnoresLife (body : State → Res Unit) : Prop :=
  ∀ c d l s, body (withLife c d l s) = (body s).onState (withLife c d l)

theorem unlessScanning_ignoresLife {body : State → Res Unit} (hb : IgnoresLife body) :
    IgnoresLife (unlessScanning body) := by
  intro c d l s
  unfold unlessScanning
  rw [withLife_scanActive]
  split
  · rfl
  · exact hb c d l s

theorem buildHtBody_ignoresLife (c : HuffClass) (k : TableId) : IgnoresLife (buildHtBody c k) := by
  intro ctrl d l s
  have hhuff : (withLife ctrl d l s).huff c k = s.huff c k := by cases c <;> rfl
  unfold buildHtBody
  rw [hhuff]
  split
  · rfl
  · cases c <;> rfl

theorem startScanBody_ignoresLife : IgnoresLife startScanBody := by
  intro c d l s
  have hsame : SameConfig s (withLife c d l s) := ⟨rfl, rfl, rfl, rfl, rfl, rfl, rfl, rfl, rfl, rfl⟩
  unfold startScanBody
  rw [hsame.startScanError]
  split <;> rfl

/-- The command is its body under the frozen check, with RST_ALIGN as sampled (R604, R505). -/
structure IsBody (i : Instr) (body : Bool → State → Res Unit) : Prop where
  exec_eq : ∀ s, exec i s = unlessFrozen (body s.sampledAlign) s
  untouched : ∀ align s, Untouched s (body align s).state
  ignoresLife : ∀ align, IgnoresLife (body align)

/-- Every command but RESET is a body under the frozen check. -/
theorem exists_isBody {i : Instr} (h : i ≠ .reset) : ∃ body, IsBody i body := by
  cases i with
  | nop => exact ⟨fun _ s => .done () s, fun _ => rfl, fun _ s => .refl s, fun _ _ _ _ _ => rfl⟩
  | reset => exact absurd rfl h
  | setQt k =>
    exact ⟨fun _ => unlessScanning (markQt k), fun _ => rfl,
      fun _ _ => unlessScanning_untouched ⟨rfl, rfl, rfl, rfl⟩,
      fun _ => unlessScanning_ignoresLife fun _ _ _ _ => rfl⟩
  | buildHt c k =>
    exact ⟨fun _ => unlessScanning (buildHtBody c k), fun _ => rfl,
      fun _ s => unlessScanning_untouched (buildHtBody_untouched c k s),
      fun _ => unlessScanning_ignoresLife (buildHtBody_ignoresLife c k)⟩
  | startScan =>
    exact ⟨fun _ => startScanBody, fun _ => rfl, fun _ => startScanBody_untouched,
      fun _ => startScanBody_ignoresLife⟩
  | decodeMcu =>
    exact ⟨decodeMcuBody, fun _ => rfl, fun a s => (decodeMcuBody_runFrame a s).untouched,
      fun a c d l => decodeMcuBody_life c d l a⟩
  | reconMcu =>
    exact ⟨fun _ => reconMcuBody, fun _ => rfl, fun _ s => (reconMcuBody_runFrame s).untouched,
      fun _ => reconMcuBody_life⟩
  | run =>
    exact ⟨runBody, fun _ => rfl, fun a s => (runBody_frame a s).untouched,
      fun a c d l => runBody_life c d l a⟩

/-! ## The execution of a latched word (R502) -/

/-- While frozen every command but RESET is a no-op (R604). -/
theorem exec_of_err {i : Instr} (h : i ≠ .reset) {s : State} (he : s.err = true) :
    exec i s = .next (completed s) := by
  obtain ⟨body, hbody⟩ := exists_isBody h
  rw [hbody.exec_eq, unlessFrozen_of_err he]

theorem runWord_of_ok {w : Word} {i : Instr} (h : decode w = .ok i) (s : State) :
    runWord w s = exec i s := by
  rw [runWord, h]

theorem runWord_of_illegal {w : Word} (h : ∀ i, decode w ≠ .ok i) (s : State) :
    runWord w s = execIllegal s := by
  unfold runWord
  split
  · exact absurd ‹_› (h _)
  · rfl

/-- Only the word 0x00000001 decodes to RESET (R143). -/
theorem ne_reset_of_decode {w : Word} {i : Instr} (h : decode w = .ok i) (hw : w ≠ 0x00000001#32) :
    i ≠ .reset := by
  rintro rfl
  exact hw (eq_encode_of_decode h)

theorem runWord_of_err {w : Word} (hw : w ≠ 0x00000001#32) {s : State} (he : s.err = true) :
    runWord w s = .next (completed s) := by
  cases hd : decode w with
  | ok i => rw [runWord_of_ok hd, exec_of_err (ne_reset_of_decode hd hw) he]
  | error x =>
    rw [runWord_of_illegal (by simp [hd])]
    exact unlessFrozen_of_err he _

theorem step_of_passed {s : State} {l : Latch} (hl : s.latch = some l) (hd : l.delay = 0) :
    step s = runWord l.word s := by
  simp [step, hl, hd]

/-- Settles O4: the step runs the latched word, and the word is one of R143's rows or none. -/
theorem latchedWordRuns : Obligations.LatchedWordRuns := by
  unfold Obligations.LatchedWordRuns
  intro s l hl hd
  rw [step_of_passed hl hd]
  refine ⟨fun i hi _ => runWord_of_ok hi s, fun hw => ?_, fun hw he => runWord_of_err hw he,
    fun he hill => ?_⟩
  · exact runWord_of_ok (hw ▸ decode_encode .reset) s
  · rw [runWord_of_illegal hill, execIllegal, unlessFrozen_of_not_err he]
    rfl

/-- Settles O6: NOP's body does nothing, and a frozen NOP is the same completion. -/
theorem nopOnlyLifeCycle : Obligations.NopOnlyLifeCycle := by
  unfold Obligations.NopOnlyLifeCycle
  refine ⟨decode_encode .nop, fun s => ?_⟩
  cases he : s.err with
  | true => exact unlessFrozen_of_err he _
  | false => exact unlessFrozen_of_not_err he _

/-! ## Acceptance (R504) -/

theorem acceptCommand_reset (s : State) : acceptCommand 0x00000001#32 s = resetCommand s := if_pos rfl

theorem acceptCommand_busy {w : Word} (hw : w ≠ 0x00000001#32) {s : State} (hb : s.busy = true) :
    acceptCommand w s = hostViolation s := by
  rw [acceptCommand, if_neg hw, if_pos hb]

/-- An idle core latches the word with RST_ALIGN; the latency is the next of the list. -/
theorem acceptCommand_idle {w : Word} (hw : w ≠ 0x00000001#32) {s : State} (hb : s.busy = false) :
    acceptCommand w s = { s with
      latch := some { word := w, rstAlign := s.ctrl.rstAlign, delay := s.delays.headD 0 }
      done := false
      delays := s.delays.tail } := by
  rw [acceptCommand, if_neg hw, if_neg (by simp [hb])]
  split
  case h_1 hds => simp [latchCommand, hds]
  case h_2 hds => simp [latchCommand, hds]

/-- Settles O9: a write to CMD is the acceptance of its word, which decides by the word and by BUSY. -/
theorem acceptanceRule : Obligations.AcceptanceRule := by
  unfold Obligations.AcceptanceRule
  intro s w hr
  have hwrite : busWrite 0x00C 4 w s = (.completed, acceptCommand w s) := busWrite_aligned hr rfl w
  rw [hwrite]
  refine ⟨fun hw => ?_, fun hw hb => ?_, fun hw hb => ⟨s.delays.headD 0, ?_⟩⟩
  · rw [hw, acceptCommand_reset]
    rfl
  · rw [acceptCommand_busy hw hb]
    rfl
  · rw [acceptCommand_idle hw hb]

/-! ## Completion (R504) -/

/-- A command that its body leaves untouched ends with the latch empty and DONE 1, on an error and on a
frozen core too (R603, R604). -/
theorem unlessFrozen_ended {body : State → Res Unit} {s t : State} (hb : Untouched s (body s).state)
    (h : unlessFrozen body s = .next t) : t.latch = none ∧ t.done = true ∧ Untouched s t := by
  rcases unlessFrozen_next h with ⟨_, rfl⟩ | ⟨_, u, hu, rfl⟩ | ⟨_, e, b, u, hu, rfl⟩
  · exact ⟨rfl, rfl, rfl, rfl, rfl, rfl⟩
  · rw [hu] at hb
    exact ⟨rfl, rfl, hb.ctrl, hb.hostViol, hb.params, hb.bs⟩
  · rw [hu] at hb
    exact ⟨rfl, rfl, hb.ctrl, hb.hostViol, hb.params, hb.bs⟩

theorem exec_ended {i : Instr} (hi : i ≠ .reset) {s t : State} (h : exec i s = .next t) :
    t.latch = none ∧ t.done = true ∧ Untouched s t := by
  obtain ⟨body, hbody⟩ := exists_isBody hi
  rw [hbody.exec_eq] at h
  exact unlessFrozen_ended (hbody.untouched _ s) h

/-- Settles O8: what every body leaves untouched, and the completion or the error entry after it. -/
theorem completionFlags : Obligations.CompletionFlags := by
  unfold Obligations.CompletionFlags
  intro i s t hi h
  obtain ⟨hlatch, hdone, hsame⟩ := exec_ended hi h
  refine ⟨hlatch, congrArg Option.isSome hlatch, hdone, hsame.ctrl, hsame.hostViol, hsame.params,
    fun a => ?_, fun hen => ?_⟩
  · rw [State.bsByte, hsame.bs]
    rfl
  · rw [State.irq, hsame.ctrl, hen, hdone]
    rfl

/-- Replacing CTRL before a body or after its completion is the same. -/
theorem conclude_withLife {r : Res Unit} {t : State} (h : conclude r = .next t) (c : Ctrl) (d : Bool)
    (l : Option Latch) : conclude (r.onState (withLife c d l)) = .next { t with ctrl := c } := by
  rcases conclude_next h with ⟨u, rfl, rfl⟩ | ⟨e, b, u, rfl, rfl⟩ <;> rfl

theorem unlessFrozen_withCtrl {body : State → Res Unit} (hb : IgnoresLife body) {s t : State}
    (h : unlessFrozen body s = .next t) (c : Ctrl) :
    unlessFrozen body { s with ctrl := c } = .next { t with ctrl := c } := by
  change unlessFrozen body (withLife c s.done s.latch s) = _
  unfold unlessFrozen at h ⊢
  rw [withLife_err, hb]
  split at h
  case isTrue he =>
    cases h
    exact if_pos he
  case isFalse he => exact (if_neg he).trans (conclude_withLife h c _ _)

/-- Settles O10: a body does not look at CTRL, and the RST_ALIGN it is given is the latch's. -/
theorem inFlightCommandIgnoresCtrl : Obligations.InFlightCommandIgnoresCtrl := by
  unfold Obligations.InFlightCommandIgnoresCtrl
  intro i s t l c hi hl h
  obtain ⟨body, hbody⟩ := exists_isBody hi
  rw [hbody.exec_eq, sampledAlign_of_latch hl] at h
  rw [hbody.exec_eq, sampledAlign_of_latch (s := { s with ctrl := c }) hl]
  exact unlessFrozen_withCtrl (hbody.ignoresLife _) h c

/-! ## The delay (R720) -/

/-- With no host statement to come a step only lets the delay pass. -/
theorem step_of_waiting {s : State} {l : Latch} (hl : s.latch = some l) (hd : l.delay ≠ 0)
    (hp : s.program = []) : step s = .next { s with latch := some { l with delay := l.delay - 1 } } := by
  obtain ⟨_, hturn, _⟩ := hostTakesTurns s
  obtain ⟨_, _, hidle, _⟩ := hostTakesTurns { s with latch := some { l with delay := l.delay - 1 } }
  rw [hturn l hl hd, hidle hp]

theorem run_one (M : Host.Core) (s : M.State) : M.run 1 s = M.step s := by
  rw [Host.Core.run]
  cases M.step s <;> rfl

theorem run_succ_of_next (M : Host.Core) {s t : M.State} (h : M.step s = .next t) (k : Nat) :
    M.run (k + 1) s = M.run k t := by
  rw [Host.Core.run, h]

/-- The latched command completes when its delay has passed, step by step. -/
theorem run_latched {s : State} {l : Latch} (hl : s.latch = some l) (hp : s.program = []) :
    Host.Core.run core (l.delay + 1) s = runWord l.word { s with latch := some { l with delay := 0 } } := by
  obtain ⟨w, align, d⟩ := l
  dsimp only
  induction d generalizing s with
  | zero =>
    rw [← hl]
    exact (run_one core s).trans (step_of_passed hl rfl)
  | succ d ih =>
    exact (run_succ_of_next core (step_of_waiting hl (Nat.succ_ne_zero d) hp) (d + 1)).trans (ih hp rfl)

/-- After the completion of a word, RESET's too, BUSY is 0. -/
theorem runWord_busy {w : Word} {s t : State} (h : runWord w s = .next t) : t.busy = false := by
  suffices hlatch : t.latch = none from congrArg Option.isSome hlatch
  rcases runWord_next h with ⟨i, _, hi⟩ | hill
  · by_cases hreset : i = .reset
    · subst hreset
      cases hi
      rfl
    · exact (exec_ended hreset hi).1
  · exact (unlessFrozen_ended (body := fun u => .stop (.error .illegalCmd 0) u) (.refl s) hill).1

/-- Settles O11: the delay passes step by step, and from the invariant the completion is no fault. -/
theorem commandCompletesAfterDelay : Obligations.CommandCompletesAfterDelay := by
  unfold Obligations.CommandCompletesAfterDelay
  intro s l hl hp
  have hrun := run_latched hl hp
  refine ⟨hrun, fun hinv => ?_⟩
  have hengine : EngineInv { s with latch := some { l with delay := 0 } } :=
    hinv.engine.congr ⟨rfl, rfl, rfl, rfl, rfl, rfl, rfl, rfl, rfl, rfl⟩ rfl rfl rfl rfl rfl rfl rfl rfl
      rfl rfl rfl
  obtain ⟨t, ht⟩ := runWord_completes l.word hengine
  exact ⟨t, hrun.trans ht, runWord_busy ht⟩

end Sys2Proof.Machine
end

section
/-! PROOFS. RUN as repeated stepping (O39), its completion (O40), its corner case (O41) and its frame (O42). -/

namespace Sys2Proof.Machine

open Sys2Proof.Claims

/-! ## The body of RUN (R503) -/

theorem RunFrame.sampledAlign {s t : State} (h : RunFrame s t) : t.sampledAlign = s.sampledAlign := by
  unfold RunFrame at h
  rw [h]
  rfl

theorem RunFrame.mcuTotal {s t : State} (h : RunFrame s t) : t.mcuTotal = s.mcuTotal := by
  unfold RunFrame at h
  rw [h]

theorem RunFrame.latch {s t : State} (h : RunFrame s t) : t.latch = s.latch := by
  unfold RunFrame at h
  rw [h]

/-- RUN after its check of SCAN_ACTIVE: the pending MCU, then those left. -/
theorem runBody_of_scan {align : Bool} {s : State} (ha : s.scanActive = true) :
    runBody align s = (runPending s).andThen fun _ t =>
      runLoop align (t.mcuTotal.toNat - t.mcuIdx.toNat) t :=
  if_neg (by simp [ha])

theorem runBody_of_pending {align : Bool} {s : State} (ha : s.scanActive = true)
    (hp : s.mcuPending = true) :
    runBody align s = (reconMcuBody s).andThen fun _ t =>
      runLoop align (t.mcuTotal.toNat - t.mcuIdx.toNat) t := by
  rw [runBody_of_scan ha, runPending, if_pos hp]

theorem runBody_of_not_pending {align : Bool} {s : State} (ha : s.scanActive = true)
    (hp : s.mcuPending = false) :
    runBody align s = runLoop align (s.mcuTotal.toNat - s.mcuIdx.toNat) s := by
  rw [runBody_of_scan ha, runPending, if_neg (by simp [hp]), andThen_done]

theorem runLoop_of_left {align : Bool} {s : State} (hi : s.mcuIdx.toNat < s.mcuTotal.toNat) (n : Nat) :
    runLoop align (n + 1) s = (decodeMcuBody align s).andThen fun _ t =>
      (reconMcuBody t).andThen fun _ u => runLoop align n u :=
  if_pos hi

theorem runLoop_of_none_left {align : Bool} {s : State} (hi : s.mcuTotal.toNat ≤ s.mcuIdx.toNat)
    (n : Nat) : runLoop align n s = .done () s := by
  cases n with
  | zero => rfl
  | succ n => exact if_neg (Nat.not_lt.2 hi)

/-- One turn of the loop moves MCU_IDX on by 1 and leaves no MCU pending. -/
theorem decodeRecon_done {align : Bool} {s t u : State} (hd : decodeMcuBody align s = .done () t)
    (hr : reconMcuBody t = .done () u) :
    RunFrame s u ∧ u.mcuIdx.toNat = s.mcuIdx.toNat + 1 ∧ u.mcuPending = false := by
  obtain ⟨_, _, hpos⟩ := decodeMcuBody_position align s
  have hst := decodeMcuBody_runFrame align s
  have htu := reconMcuBody_runFrame t
  have hidx := congrArg State.mcuIdx (reconMcuBody_frame t)
  rw [hd, state_done] at hst
  rw [hr, state_done] at htu hidx
  exact ⟨hst.trans htu, (congrArg BitVec.toNat hidx).trans (hpos t hd).2, reconMcuBody_notPending hr⟩

/-- A successful DECODE_MCU leaves its MCU pending in the scan, which is still active. -/
theorem decodeMcuBody_done {align : Bool} {s t : State} (h : decodeMcuBody align s = .done () t) :
    RunFrame s t ∧ t.mcuPending = true ∧ t.scanActive = true := by
  have hframe := decodeMcuBody_runFrame align s
  rw [h, state_done] at hframe
  rcases decodeMcuBody_cases align s with ⟨_, e⟩ | ⟨ha, _, ⟨_, v, _, _, e⟩ | ⟨v, _, hs, e⟩⟩ <;>
    cases e.symm.trans h
  exact ⟨hframe, rfl, (congrArg State.scanActive hs.frame).trans ha⟩

/-! ## Continuing a RUN (R503) -/

theorem execRun_of_not_err {s : State} (he : s.err = false) :
    exec .run s = conclude (runBody s.sampledAlign s) := unlessFrozen_of_not_err he _

/-- DONE and the latch before a command's body do not matter after its completion. -/
theorem conclude_onState_withLife {r : Res Unit} {c : Ctrl} (hc : r.state.ctrl = c) (d : Bool)
    (l : Option Latch) : conclude (r.onState (withLife c d l)) = conclude r := by
  subst hc
  cases r with
  | done _ _ => rfl
  | stop e _ => cases e <;> rfl

theorem execReconMcu_complete (s : State) : exec .reconMcu (complete s) = exec .reconMcu s := by
  cases he : s.err with
  | true =>
    rw [exec_of_err (by simp) he, exec_of_err (s := complete s) (by simp) he]
    rfl
  | false =>
    rw [execReconMcu_of_not_err he, execReconMcu_of_not_err (s := complete s) he,
      show complete s = withLife s.ctrl true none s from rfl, reconMcuBody_life]
    exact conclude_onState_withLife (reconMcuBody_runFrame s).untouched.ctrl _ _

/-- With an MCU pending RECON_MCU raises no error. -/
theorem execReconMcu_next {s t : State} (he : s.err = false) (hp : s.mcuPending = true)
    (h : exec .reconMcu s = .next t) : ∃ u, reconMcuBody s = .done () u ∧ t = complete u := by
  rw [execReconMcu_of_not_err he] at h
  rcases conclude_next h with hdone | ⟨e, b, u, hu, _⟩
  · exact hdone
  · exact absurd (reconMcuBody_errors hp e b u hu) (by simp)

/-- The rest of a RUN after a reconstruction is a RUN of its own, with the same latch for the RST_ALIGN
sampled, unless the scan is over. -/
theorem conclude_runLoop_eq_run {s u : State} (he : s.err = false) (hf : RunFrame s u)
    (hp : u.mcuPending = false) (ho : ScanOver u) :
    conclude (runLoop s.sampledAlign (u.mcuTotal.toNat - u.mcuIdx.toNat) u) =
      if (complete u).scanActive then exec .run { complete u with latch := s.latch }
      else .next (complete u) := by
  cases ha : u.scanActive with
  | false =>
    obtain ⟨hlast, _⟩ := ho ha
    rw [complete_scanActive, ha, if_neg Bool.false_ne_true, runLoop_of_none_left (by rw [hlast])]
    rfl
  | true =>
    have heq : ({ complete u with latch := s.latch } : State) = withLife u.ctrl true s.latch u := rfl
    have halign : (withLife u.ctrl true s.latch u).sampledAlign = s.sampledAlign := by
      rw [← hf.sampledAlign, ← hf.latch]
      rfl
    have herr : (withLife u.ctrl true s.latch u).err = false := hf.quiet.err.trans he
    rw [complete_scanActive, ha, if_pos rfl, heq, execRun_of_not_err herr, halign, runBody_life,
      conclude_onState_withLife (runBody_frame _ u).untouched.ctrl, runBody_of_not_pending ha hp]

/-- RUN with an MCU pending, by what RECON_MCU answers. -/
theorem execRun_of_recon {s t : State} (he : s.err = false) (ha : s.scanActive = true)
    (hp : s.mcuPending = true) (h : exec .reconMcu s = .next t) :
    exec .run s = if t.scanActive then exec .run { t with latch := s.latch } else .next t := by
  obtain ⟨u, hu, rfl⟩ := execReconMcu_next he hp h
  have hframe := reconMcuBody_runFrame s
  have hover := reconMcuBody_over s ha
  rw [hu] at hframe hover
  rw [execRun_of_not_err he, runBody_of_pending ha hp, hu, andThen_done]
  exact conclude_runLoop_eq_run he hframe (reconMcuBody_notPending hu) hover

/-- RUN with none pending and one left, by what DECODE_MCU answers and then RECON_MCU. -/
theorem execRun_of_decode {s s1 : State} (he : s.err = false) (ha : s.scanActive = true)
    (hp : s.mcuPending = false) (hi : s.mcuIdx.toNat < s.mcuTotal.toNat)
    (h : exec .decodeMcu s = .next s1) :
    (s1.err = true → exec .run s = .next s1) ∧
    (s1.err = false → ∀ s2, exec .reconMcu s1 = .next s2 →
      exec .run s = if s2.scanActive then exec .run { s2 with latch := s.latch } else .next s2) := by
  obtain ⟨n, hn⟩ := Nat.exists_eq_add_one_of_ne_zero (Nat.sub_ne_zero_of_lt hi)
  rw [execRun_of_not_err he, runBody_of_not_pending ha hp, hn, runLoop_of_left hi]
  rw [execDecodeMcu_of_not_err he] at h
  rcases conclude_next h with ⟨t, ht, rfl⟩ | ⟨e, b, t, ht, rfl⟩
  · obtain ⟨hst, htp, hta⟩ := decodeMcuBody_done ht
    have hte : t.err = false := hst.quiet.err.trans he
    refine ⟨fun h1 => absurd (h1.symm.trans hte) (by simp), fun _ s2 h2 => ?_⟩
    rw [execReconMcu_complete] at h2
    obtain ⟨u, hu, rfl⟩ := execReconMcu_next hte htp h2
    obtain ⟨hsu, hidx, hup⟩ := decodeRecon_done ht hu
    have hover := reconMcuBody_over t hta
    rw [hu] at hover
    have hturns : n = u.mcuTotal.toNat - u.mcuIdx.toNat := by rw [hsu.mcuTotal, hidx]; omega
    rw [ht, andThen_done, hu, andThen_done, hturns]
    exact conclude_runLoop_eq_run he hsu hup hover
  · rw [ht]
    exact ⟨fun _ => rfl, fun h1 => absurd h1 (by simp)⟩

/-- Settles O39: one turn of RUN's loop, or its first step, and then a RUN from there. -/
theorem runIsRepeatedStepping : Obligations.RunIsRepeatedStepping := by
  unfold Obligations.RunIsRepeatedStepping
  refine ⟨decode_encode .run, fun s => ⟨fun he => exec_of_err (by simp) he, fun he ha => ?_,
    fun he ha hp hi => ?_, fun _ he ha hp h => execRun_of_recon he ha hp h,
    fun _ he ha hp hi h => execRun_of_decode he ha hp hi h⟩⟩
  · rw [execRun_of_not_err he, runBody, if_pos ha]
    rfl
  · rw [execRun_of_not_err he, runBody_of_not_pending ha hp, runLoop_of_none_left hi]
    rfl

/-! ## Completion (R503) -/

/-- With turns enough RUN's loop ends with no MCU left. -/
theorem runLoop_none_left {align : Bool} {n : Nat} {s u : State} (h : runLoop align n s = .done () u)
    (hn : s.mcuTotal.toNat - s.mcuIdx.toNat ≤ n) : u.mcuTotal.toNat ≤ u.mcuIdx.toNat := by
  induction n generalizing s with
  | zero => cases h; omega
  | succ n ih =>
    by_cases hi : s.mcuIdx.toNat < s.mcuTotal.toNat
    · rw [runLoop_of_left hi] at h
      obtain ⟨_, t, ht, h⟩ := andThen_eq_done.1 h
      obtain ⟨_, v, hv, h⟩ := andThen_eq_done.1 h
      obtain ⟨hsv, hidx, _⟩ := decodeRecon_done ht hv
      exact ih h (by rw [hsv.mcuTotal, hidx]; omega)
    · rw [runLoop_of_none_left (by omega)] at h
      cases h
      omega

/-- An error in RUN's loop is one of DECODE_MCU, with an MCU left to decode (R603). -/
theorem runLoop_error_left {align : Bool} {n : Nat} {s u : State} {e : ErrCode} {b : BitVec 2}
    (h : runLoop align n s = .stop (.error e b) u) : u.mcuIdx.toNat < u.mcuTotal.toNat := by
  induction n generalizing s with
  | zero => cases h
  | succ n ih =>
    by_cases hi : s.mcuIdx.toNat < s.mcuTotal.toNat
    · rw [runLoop_of_left hi] at h
      rcases andThen_eq_stop.1 h with hd | ⟨_, t, ht, h⟩
      · have hframe := decodeMcuBody_runFrame align s
        obtain ⟨hidx, _⟩ := decodeMcuBody_error hd
        rw [hd, state_stop] at hframe
        rwa [hframe.mcuTotal, hidx]
      · obtain ⟨_, htp, _⟩ := decodeMcuBody_done ht
        rcases andThen_eq_stop.1 h with hr | ⟨_, v, _, h⟩
        · exact absurd (reconMcuBody_errors htp e b u hr) (by simp)
        · exact ih h
    · rw [runLoop_of_none_left (by omega)] at h
      cases h

theorem runPending_notPending {s t : State} (h : runPending s = .done () t) : t.mcuPending = false := by
  unfold runPending at h
  split at h
  · exact reconMcuBody_notPending h
  · cases h
    simpa using ‹¬s.mcuPending = true›

theorem runPending_errors (s : State) : ErrorsIn [] (runPending s) := by
  unfold runPending
  split
  · exact reconMcuBody_errors ‹_›
  · exact errorsIn_done _ _ _

/-- A RUN that raises no error leaves no MCU to decode and none pending. -/
theorem runBody_done {align : Bool} {s u : State} (ha : s.scanActive = true)
    (h : runBody align s = .done () u) :
    u.mcuTotal.toNat ≤ u.mcuIdx.toNat ∧ u.mcuPending = false := by
  rw [runBody_of_scan ha] at h
  obtain ⟨_, t, ht, hloop⟩ := andThen_eq_done.1 h
  have hnext : conclude (runLoop align (t.mcuTotal.toNat - t.mcuIdx.toNat) t) = .next (complete u) := by
    rw [hloop]
    rfl
  have hpend : (complete u).mcuPending = false := runLoop_ends align _ (runPending_notPending ht) hnext
  exact ⟨runLoop_none_left hloop (Nat.le_refl _), hpend⟩

/-- An error in a RUN of an active scan has an MCU left to decode. -/
theorem runBody_error_left {align : Bool} {s u : State} {e : ErrCode} {b : BitVec 2}
    (ha : s.scanActive = true) (h : runBody align s = .stop (.error e b) u) :
    u.mcuIdx.toNat < u.mcuTotal.toNat := by
  rw [runBody_of_scan ha] at h
  rcases andThen_eq_stop.1 h with hp | ⟨_, t, _, hloop⟩
  · exact absurd (runPending_errors s e b u hp) (by simp)
  · exact runLoop_error_left hloop

/-- Settles O40: a scan with no MCU left and none pending is over, and an error is one of the decoding. -/
theorem runCompletes : Obligations.RunCompletes := by
  unfold Obligations.RunCompletes
  intro s hinv he ha
  obtain ⟨t, ht⟩ := exec_completes .run hinv.engine
  refine ⟨t, ht, ?_⟩
  have hframe := runBody_frame s.sampledAlign s
  have hengine := runBody_engine s.sampledAlign s hinv.engine
  have hover := runBody_over s.sampledAlign s ha
  rw [execRun_of_not_err he] at ht
  rcases conclude_next ht with ⟨u, hu, rfl⟩ | ⟨e, b, u, hu, rfl⟩
  · rw [hu, state_done] at hframe hengine hover
    obtain ⟨hleft, hpend⟩ := runBody_done ha hu
    have hactive : u.scanActive = false := by
      cases hact : u.scanActive with
      | false => rfl
      | true => exact absurd (hengine.scan.2.2 hact hpend) (Nat.not_lt.2 hleft)
    have herr : u.err = false := hframe.quiet.err.trans he
    refine ⟨fun _ => ⟨hactive, hpend, ?_⟩, fun h1 => absurd (h1.symm.trans herr) (by simp)⟩
    exact (hover hactive).1.trans hframe.mcuTotal
  · rw [hu, state_stop] at hframe
    refine ⟨fun h1 => absurd h1 (by simp), fun _ => ⟨rfl, ?_, rfl⟩⟩
    rw [errorEntry_mcuIdx, ← hframe.mcuTotal]
    exact runBody_error_left ha hu

/-- Settles O41: RUN's first step is the RECON_MCU, which ends the scan, and its loop has no turn. -/
theorem runReconstructsLastMcu : Obligations.RunReconstructsLastMcu := by
  unfold Obligations.RunReconstructsLastMcu
  intro s hinv he hp hlast
  obtain ⟨ha, _⟩ := hinv.scan.2.1 hp
  obtain ⟨_, t, _, _, honly, hbody⟩ := reconMcuBody_done s hinv.engine hp
  have hrecon : exec .reconMcu s = .next (complete (finishRecon t)) := by
    rw [execReconMcu_of_not_err he, hbody]
    rfl
  have heq := complete_finishRecon_eq honly
  rw [if_pos hlast] at heq
  have hover : (complete (finishRecon t)).scanActive = false := by rw [heq]
  have hrun : exec .run s = .next (complete (finishRecon t)) := by
    rw [execRun_of_recon he ha hp hrecon, hover, if_neg Bool.false_ne_true]
  refine ⟨hrun.trans hrecon.symm, _, hrun, hover, ?_⟩
  rw [heq]
  exact ⟨rfl, he, rfl, rfl⟩

/-! ## What RUN leaves unchanged (R503, R413) -/

/-- Settles O42: the body's frame, and at completion the error entry or the two flags of the life cycle. -/
theorem runFrame : Obligations.RunFrame := by
  unfold Obligations.RunFrame
  intro s t h
  have hframe := runBody_frame s.sampledAlign s
  have hother := runBody_other s.sampledAlign s
  obtain ⟨_, _, hsame⟩ := exec_ended (i := .run) (by simp) h
  have hbs (a : Nat) : t.bsByte a = s.bsByte a := by rw [State.bsByte, hsame.bs]; rfl
  rcases unlessFrozen_next h with ⟨_, rfl⟩ | ⟨_, u, hu, rfl⟩ | ⟨_, e, b, u, hu, rfl⟩
  · exact ⟨rfl, hbs, fun _ _ _ => rfl⟩
  all_goals
    rw [hu] at hframe hother
    refine ⟨?_, hbs, fun a hp hm => congrArg (Option.getD · _) (hother a hp hm)⟩
    change RunFrame s u at hframe
    unfold RunFrame at hframe
    rw [hframe]
    rfl

end Sys2Proof.Machine
end

section
/-! PROOFS. The frozen core and the interrupt output (R604, R605, R620): a frozen command is a no-op (O7), the
frozen state until a reset (O55), and the interrupt as STATUS and CTRL show it (O53). -/

namespace Sys2Proof.Machine

open Sys2Proof.Claims

/-! ## Commands on a frozen core (R604) -/

/-- Settles O7: every command but RESET begins with the frozen check. -/
theorem frozenCommandIsNoOp : Obligations.FrozenCommandIsNoOp := by
  unfold Obligations.FrozenCommandIsNoOp
  exact fun i s he hi => exec_of_err hi he

/-! ## What changes on a frozen core (R604, R605) -/

/-- Only CTRL, DONE, HOST_VIOL, the latch, OUT and the host's side differ. -/
def FrozenFrame (s t : State) : Prop :=
  t = { s with
    ctrl := t.ctrl, done := t.done, hostViol := t.hostViol, latch := t.latch, out := t.out,
    resetIn := t.resetIn, program := t.program, responses := t.responses, bindings := t.bindings,
    delays := t.delays, draws := t.draws }

theorem FrozenFrame.trans {s t u : State} (h : FrozenFrame s t) (k : FrozenFrame t u) :
    FrozenFrame s u := by
  unfold FrozenFrame at *; rw [k, h]

theorem completed_frozenFrame (s : State) : FrozenFrame s (completed s) := rfl

theorem passTurn_frozenFrame (s : State) : FrozenFrame s (passTurn s) := by
  rw [passTurn_frame]; rfl

/-- A command word other than RESET moves the latch, DONE and the latencies, or HOST_VIOL (R504). -/
theorem acceptCommand_frozenFrame {w : Word} (hw : w ≠ 0x00000001#32) (s : State) :
    FrozenFrame s (acceptCommand w s) := by
  rcases acceptCommand_cases w s hw with e | ⟨_, d, l, e⟩ <;> rw [e] <;> rfl

/-- On a frozen core a host write that is no RESET reaches CTRL, STATUS, CMD or OUT, sets HOST_VIOL, or does
nothing (R604). -/
theorem writeTarget_frozenFrame {t : Target} {v : Word} {s : State} (he : s.err = true)
    (hcmd : t = .cmd → v ≠ 0x00000001#32) : FrozenFrame s (writeTarget t v s) := by
  rcases writeTarget_cases t v s with
    e | ⟨_, e⟩ | ⟨_, e⟩ | ⟨ht, e⟩ | e | ⟨_, ⟨hidle, _⟩ | ⟨w, rfl⟩, e⟩ <;> rw [e]
  · rfl
  · rfl
  · rfl
  · exact acceptCommand_frozenFrame (hcmd ht) s
  · rfl
  · cases he.symm.trans hidle
  · rfl

/-- A turn of the host that neither writes RESET to CMD nor asserts the reset input leaves a frozen core
frozen as it is (R604, R605). -/
theorem hostTurn_frozenFrame {s : State} (he : s.err = true)
    (hcmd : ∀ a v rest, s.resetIn = false → a % 4 = 0 →
      (s.program = .wr a v :: rest ∨ s.program = .writeAccess a 4 v :: rest) →
      decodeAddr s.params a = .cmd → v ≠ 0x00000001#32)
    (hpin : ∀ rest, s.program ≠ .resetPin true :: rest) : FrozenFrame s (hostTurn s) := by
  obtain ⟨u, e, hu⟩ := hostTurn_cases s
  have hframe : FrozenFrame s u := by
    rcases hu with rfl | ⟨a, v, rest, hr, ha, hp, rfl⟩ | rfl | ⟨b, rest, hp, rfl⟩
    · rfl
    · exact FrozenFrame.trans (t := { s with program := rest }) rfl
        (writeTarget_frozenFrame he (hcmd a v rest hr ha hp))
    · rfl
    · cases b with
      | true => exact absurd hp (hpin rest)
      | false => rfl
  exact hframe.trans (by rw [e]; rfl)

/-- Settles O55: on a frozen core a command other than RESET is a no-op, and a turn of the host that is no
reset reaches nothing that is kept. -/
theorem frozenUntilReset : Obligations.FrozenUntilReset := by
  unfold Obligations.FrozenUntilReset
  intro s t he h hno
  change FrozenFrame s t
  rcases step_next h with ⟨l, hl, hd, hw⟩ | ⟨hmoves, rfl⟩
  · have hword : l.word ≠ 0x00000001#32 := fun hw => hno (.inl ⟨l, hl, hd, hw⟩)
    cases (runWord_of_err hword he).symm.trans hw
    exact completed_frozenFrame s
  · refine (passTurn_frozenFrame s).trans (hostTurn_frozenFrame ?_ ?_ ?_) <;> rw [passTurn_frame s]
    · exact he
    · rintro a v rest hr ha hp hd rfl
      obtain rfl : a = 0x00C := (decodeAddr_low ha).1 hd
      exact hno (.inr (.inl ⟨hmoves, hr, ha, rest, hp⟩))
    · exact fun rest hp => hno (.inr (.inr ⟨hmoves, rest, hp⟩))

/-! ## The interrupt output (R620) -/

theorem ctrlWord_irqDoneEn (c : Ctrl) : (ctrlWord c).getLsbD 0 = c.irqDoneEn := by
  change BitVec.getLsbD (w := 29 + 1 + 1 + 1) (ctrlWord c) 0 = _
  simp only [ctrlWord, BitVec.getLsbD_append]
  simp [-BitVec.getLsbD_eq_getElem]

theorem ctrlWord_irqErrEn (c : Ctrl) : (ctrlWord c).getLsbD 1 = c.irqErrEn := by
  change BitVec.getLsbD (w := 29 + 1 + 1 + 1) (ctrlWord c) 1 = _
  simp only [ctrlWord, BitVec.getLsbD_append]
  simp [-BitVec.getLsbD_eq_getElem]

theorem statusWord_done (s : State) : (statusWord s).getLsbD 1 = s.done := by
  change BitVec.getLsbD (w := 16 + 8 + 2 + 1 + 1 + 1 + 1 + 1 + 1) (statusWord s) 1 = _
  simp only [statusWord, BitVec.getLsbD_append]
  simp [-BitVec.getLsbD_eq_getElem]

theorem statusWord_err (s : State) : (statusWord s).getLsbD 2 = s.err := by
  change BitVec.getLsbD (w := 16 + 8 + 2 + 1 + 1 + 1 + 1 + 1 + 1) (statusWord s) 2 = _
  simp only [statusWord, BitVec.getLsbD_append]
  simp [-BitVec.getLsbD_eq_getElem]

/-- Settles O53: the four bits of CTRL and STATUS are the two enables and the two flags. -/
theorem interruptRule : Obligations.InterruptRule := by
  unfold Obligations.InterruptRule
  intro s
  rw [ctrlWord_irqDoneEn, ctrlWord_irqErrEn, statusWord_done, statusWord_err, State.irq]

end Sys2Proof.Machine
end

section
/-! PROOFS. What the configuration lock protects while a scan stays active (O56). -/

namespace Sys2Proof.Machine

open Sys2Proof.Claims

theorem sameScanInputs_refl (s : State) : sameScanInputs s s :=
  ⟨rfl, rfl, rfl, rfl, rfl, rfl, rfl, rfl, rfl, rfl, rfl⟩

/-- A part of a RUN writes nothing that it reads as the scan's configuration (R503, R714). -/
theorem RunFrame.sameScanInputs {s t : State} (h : RunFrame s t) : sameScanInputs s t := by
  unfold RunFrame at h
  rw [h]
  exact sameScanInputs_refl s

/-! ## Completions -/

/-- A command changes as much of the configuration as its body, on an error and on a frozen core too. -/
theorem unlessFrozen_sameScanInputs {body : State → Res Unit} {s t : State}
    (hb : sameScanInputs s (body s).state) (h : unlessFrozen body s = .next t) : sameScanInputs s t := by
  rcases unlessFrozen_next h with ⟨_, rfl⟩ | ⟨_, u, hu, rfl⟩ | ⟨_, e, b, u, hu, rfl⟩
  · exact sameScanInputs_refl s
  · rw [hu] at hb
    exact hb
  · rw [hu] at hb
    exact hb

/-- START_SCAN reads the configuration and does not write it (R312). -/
theorem startScanBody_sameScanInputs (s : State) : sameScanInputs s (startScanBody s).state := by
  unfold startScanBody
  split
  · exact sameScanInputs_refl s
  · exact sameScanInputs_refl s

/-- A table command is refused in a scan (R201), RESET ends the scan, and the others write no
configuration. -/
theorem exec_sameScanInputs {i : Instr} {s t : State} (ha : s.scanActive = true)
    (h : exec i s = .next t) (ht : t.scanActive = true) : sameScanInputs s t := by
  have htable (body : State → Res Unit) : sameScanInputs s (unlessScanning body s).state := by
    rw [unlessScanning_of_scan ha]
    exact sameScanInputs_refl s
  cases i with
  | nop => exact unlessFrozen_sameScanInputs (body := fun u => .done () u) (sameScanInputs_refl s) h
  | reset => cases h; cases ht
  | setQt k => exact unlessFrozen_sameScanInputs (htable _) h
  | buildHt c k => exact unlessFrozen_sameScanInputs (htable _) h
  | startScan => exact unlessFrozen_sameScanInputs (startScanBody_sameScanInputs s) h
  | decodeMcu => exact unlessFrozen_sameScanInputs (decodeMcuBody_runFrame _ s).sameScanInputs h
  | reconMcu => exact unlessFrozen_sameScanInputs (reconMcuBody_runFrame s).sameScanInputs h
  | run => exact unlessFrozen_sameScanInputs (runBody_frame _ s).sameScanInputs h

theorem runWord_sameScanInputs {w : Word} {s t : State} (ha : s.scanActive = true)
    (h : runWord w s = .next t) (ht : t.scanActive = true) : sameScanInputs s t := by
  rcases runWord_next h with ⟨i, _, hi⟩ | hill
  · exact exec_sameScanInputs ha hi ht
  · exact unlessFrozen_sameScanInputs (body := fun u => .stop (.error .illegalCmd 0) u)
      (sameScanInputs_refl s) hill

/-! ## Turns of the host -/

/-- A command word that leaves the scan active is no RESET: it moves the latch, DONE and the latencies, or
HOST_VIOL (R504). -/
theorem acceptCommand_sameScanInputs {w : Word} {s : State}
    (ht : (acceptCommand w s).scanActive = true) : sameScanInputs s (acceptCommand w s) := by
  have hw : w ≠ 0x00000001#32 := by
    rintro rfl
    rw [acceptCommand_reset] at ht
    cases ht
  rcases acceptCommand_cases w s hw with e | ⟨_, d, l, e⟩ <;> rw [e]
  · exact sameScanInputs_refl s
  · exact sameScanInputs_refl s

/-- In a scan the only data write that is applied is one to OUT (R106, R116). -/
theorem writeTarget_sameScanInputs {t : Target} {v : Word} {s : State} (ha : s.scanActive = true)
    (ht : (writeTarget t v s).scanActive = true) : sameScanInputs s (writeTarget t v s) := by
  rcases writeTarget_cases t v s with
    e | ⟨_, e⟩ | ⟨_, e⟩ | ⟨_, e⟩ | e | ⟨_, ⟨_, hidle⟩ | ⟨w, rfl⟩, e⟩ <;> rw [e] at ht ⊢
  · exact sameScanInputs_refl s
  · exact sameScanInputs_refl s
  · exact sameScanInputs_refl s
  · exact acceptCommand_sameScanInputs ht
  · exact sameScanInputs_refl s
  · cases ha.symm.trans hidle
  · exact sameScanInputs_refl s

theorem hostTurn_sameScanInputs {s : State} (ha : s.scanActive = true)
    (ht : (hostTurn s).scanActive = true) : sameScanInputs s (hostTurn s) := by
  obtain ⟨u, e, hu⟩ := hostTurn_cases s
  have hscan : u.scanActive = true := (congrArg State.scanActive e).symm.trans ht
  have hsame : sameScanInputs s u := by
    rcases hu with rfl | ⟨a, v, rest, _, _, _, rfl⟩ | rfl | ⟨b, rest, _, rfl⟩
    · exact sameScanInputs_refl _
    · exact writeTarget_sameScanInputs (s := { s with program := rest }) ha hscan
    · exact sameScanInputs_refl s
    · cases b with
      | true => cases hscan
      | false => exact sameScanInputs_refl s
  rw [e]
  exact hsame

/-- Settles O56: a completion or a turn of the host either ends the scan or writes nothing that the lock
protects. -/
theorem configLockedDuringScan : Obligations.ConfigLockedDuringScan := by
  unfold Obligations.ConfigLockedDuringScan
  intro s t ha h ht
  rcases step_next h with ⟨l, _, _, hw⟩ | ⟨_, rfl⟩
  · exact runWord_sameScanInputs ha hw ht
  · rw [passTurn_frame] at ht ⊢
    exact hostTurn_sameScanInputs (s := { s with latch := (passTurn s).latch }) ha ht

end Sys2Proof.Machine
end

section
/-! PROOFS. The reset state, word by word (O12), what it makes of START_SCAN (O14), and the invariant (O58). -/

namespace Sys2Proof.Machine

open Sys2Proof.Claims

/-! ## The words of the reset state (R700) -/

/-- The words that read as 0 after a reset: all but ID, the parameters and the two memories. -/
def Target.clearedByReset (t : Target) : Bool :=
  match t with
  | .id => false
  | .paramBs => false
  | .paramOut => false
  | .bsWord _ => false
  | .outWord _ => false
  | _ => true

theorem huff_resetState (s : State) (c : HuffClass) (t : TableId) :
    (resetState s).huff c t = HuffTable.reset := by
  cases c <;> simp [State.huff]

theorem tableSetWord_resetState (s : State) : tableSetWord (resetState s) = 0 := by
  have hqt : (resetState s).qtSet = fun _ => false := congrArg Flags.qt (flags_resetState s)
  have hht : (resetState s).htSet = fun _ _ => false := congrArg Flags.ht (flags_resetState s)
  rw [tableSetWord, hqt, hht]
  decide

theorem currentValue_resetState {t : Target} (h : t.clearedByReset = true) (s : State) :
    currentValue (resetState s) t = 0 := by
  cases t with
  | id | paramBs | paramOut | bsWord | outWord => cases h
  | tableSet => exact tableSetWord_resetState s
  | ctrl => simp [currentValue, ctrlWord_eq, bit]
  | status => simp [currentValue, statusWord_eq, bit]
  | frameSize => simp [currentValue, frameSizeWord_eq]
  | scanCfg => simp [currentValue, scanCfgWord_eq]
  | mcuGeom => simp [currentValue, mcuGeomWord_eq]
  | compCfg c => simp [currentValue, compCfgWord_eq, compCfgNumber, State.cfg]
  | pred c => simp [currentValue, predWord, State.predOf]
  | qtEntry t k => simp [currentValue, QuantTable.reset]
  | htCount | htOffset | htSymbol | htCode =>
    simp [currentValue, huff_resetState, HuffTable.reset]
  | coefEntry c i => simp [currentValue, State.block]
  | _ => rfl

theorem htWordAt_cleared (c : HuffClass) (t : TableId) (o : Nat) :
    (htWordAt c t o).clearedByReset = true := by
  unfold htWordAt
  repeat' split
  all_goals rfl

/-- Below the memories every word but ID and the two parameters is cleared (R102). -/
theorem decodeAddr_cleared {p : Params} {a : Nat} (ha : a % 4 = 0) (hlt : a < 0x1000000)
    (h0 : a ≠ 0x000) (hbs : a ≠ 0x060) (hout : a ≠ 0x064) : (decodeAddr p a).clearedByReset = true := by
  have hreg : ∀ n : Fin 26, n.val ≠ 0 → n.val ≠ 24 → n.val ≠ 25 →
      (registerAt n.val).clearedByReset = true := by decide
  unfold decodeAddr
  split
  case isTrue hl => exact hreg ⟨a / 4, by omega⟩ (by simp; omega) (by simp; omega) (by simp; omega)
  case isFalse =>
    split
    · rfl
    · split
      · exact htWordAt_cleared _ _ _
      · split
        · rfl
        · rw [if_neg (by omega), if_neg (by omega)]
          rfl

/-- A word below the memories is one of the three that keep a value, or it is cleared. -/
theorem isReset_resetState (s : State) : isReset s (resetState s) := by
  refine ⟨fun a ha hlt => ?_, rfl, rfl, rfl, rfl, rfl, fun _ => rfl, rfl, rfl, rfl, rfl⟩
  by_cases h0 : a = 0x000
  · subst h0
    rfl
  by_cases hbs : a = 0x060
  · subst hbs
    rfl
  by_cases hout : a = 0x064
  · subst hout
    rfl
  rw [if_neg h0, if_neg hbs, if_neg hout]
  exact currentValue_resetState (decodeAddr_cleared ha hlt h0 hbs hout) s

/-- RESET leaves the reset state of R700; before it only OUT and the draw counter can have changed. -/
theorem isReset_resetCommand (s : State) : isReset s (resetCommand s) := by
  rw [resetCommand, drawOutBytes_frame]
  exact isReset_resetState { s with out := _, draws := _ }

theorem setResetPin_true (s : State) : setResetPin true s = resetState { s with resetIn := true } := rfl

/-- With no command in flight RESET draws no byte of OUT (R67, R705). -/
theorem resetCommand_of_idle {s : State} (hb : s.busy = false) : resetCommand s = resetState s := by
  have hl : s.latch = none := by simpa [State.busy] using hb
  rw [resetCommand, abortedBytes, hl]
  rfl

/-- Settles O12: each form is `resetState` of a state with the parameters, BS and host's side of `s`. -/
theorem bothResetsLeaveResetState : Obligations.BothResetsLeaveResetState := by
  unfold Obligations.BothResetsLeaveResetState
  refine ⟨isReset_resetState State.reset, rfl, rfl, fun s => ⟨⟨resetCommand s, rfl,
    isReset_resetCommand s, ?_, fun hb a => ?_⟩, ?_, rfl, fun _ => rfl⟩⟩
  · rw [resetCommand, drawOutBytes_frame]
    rfl
  · rw [resetCommand_of_idle hb]
    rfl
  · rw [setResetPin_true]
    exact isReset_resetState { s with resetIn := true }

/-! ## START_SCAN on the reset state (R702) -/

/-- No table is set, and WIDTH = 0 is the first check of START_SCAN (R312). -/
theorem resetState_not_decodable (s : State) : tableSetWord (resetState s) = 0 ∧
    exec .startScan (resetState s) = .next (raised 0x03 0 (resetState s)) :=
  ⟨tableSetWord_resetState s, execStartScan_of_error (e := (0x03, 0)) rfl rfl⟩

/-- Settles O14: after either form the state is `resetState` of some state. -/
theorem resetIsNotDecodable : Obligations.ResetIsNotDecodable := by
  unfold Obligations.ResetIsNotDecodable
  rintro s t (h | rfl)
  · cases h
    exact resetState_not_decodable _
  · exact resetState_not_decodable { s with resetIn := false }

/-! ## The invariant (R63, R65, R700) -/

/-- Settles O58: the state after power-on is its own reset state, with legal parameters and empty
memories. -/
theorem resetMeetsInvariant : Obligations.ResetMeetsInvariant := by
  unfold Obligations.ResetMeetsInvariant
  exact resetState_inv (s := State.reset) (by decide) ⟨rfl, rfl⟩

end Sys2Proof.Machine
end

section
/-! PROOFS. The command a RESET aborts: which bytes of OUT become free draws (O13). -/

namespace Sys2Proof.Machine

open Sys2Proof.Claims

/-! ## The bytes of an aborted command (R705) -/

/-- The bytes that become free draws are of the tiles of an unfrozen RECON_MCU or RUN in flight that passes
its check of the sequence. -/
theorem mem_abortedBytes {s : State} {a : Nat} (h : a ∈ abortedBytes s) :
    s.err = false ∧ ∃ l, s.latch = some l ∧
      ((l.word = 0x00000006#32 ∧ s.mcuPending = true ∧ a ∈ tileBytes s s.lastMcu.toNat) ∨
        (l.word = 0x00000007#32 ∧ s.scanActive = true ∧ runWrites s (runBody l.rstAlign s).state a)) := by
  unfold abortedBytes at h
  split at h
  · cases h
  · rename_i l hl
    split at h
    · cases h
    · rename_i he
      refine ⟨by simpa using he, l, hl, ?_⟩
      split at h
      case h_8 hd => exact .inl ⟨eq_encode_of_decode hd, mem_writtenBytes_recon s a h⟩
      case h_9 hd =>
        refine .inr ⟨eq_encode_of_decode hd, ?_, mem_writtenBytes_run _ s a h⟩
        by_contra hscan
        have hstop : runBody l.rstAlign { s with out := [] } =
            .stop (.error .sequence 0) { s with out := [] } := if_pos (by simpa using hscan)
        rw [writtenBytes, hstop] at h
        cases h
      all_goals cases h

theorem mem_abortedBytes_reconMcu {s : State} {l : Latch} (hl : s.latch = some l)
    (hw : l.word = 0x00000006#32) {a : Nat} (h : a ∈ abortedBytes s) :
    s.mcuPending = true ∧ a ∈ tileBytes s s.lastMcu.toNat := by
  obtain ⟨_, k, hk, ⟨_, hmem⟩ | ⟨hw', _⟩⟩ := mem_abortedBytes h <;> cases hl.symm.trans hk
  · exact hmem
  · cases hw.symm.trans hw'

theorem mem_abortedBytes_run {s : State} {l : Latch} (hl : s.latch = some l)
    (hw : l.word = 0x00000007#32) {a : Nat} (h : a ∈ abortedBytes s) :
    s.err = false ∧ s.scanActive = true ∧ runWrites s (runBody l.rstAlign s).state a := by
  obtain ⟨he, k, hk, ⟨hw', _⟩ | ⟨_, hmem⟩⟩ := mem_abortedBytes h <;> cases hl.symm.trans hk
  · cases hw.symm.trans hw'
  · exact ⟨he, hmem⟩

theorem abortedBytes_reconMcu {s : State} {l : Latch} (hl : s.latch = some l)
    (hw : l.word = 0x00000006#32) (he : s.err = false) : abortedBytes s = writtenBytes reconMcuBody s := by
  have hd : decode l.word = .ok .reconMcu := hw ▸ decode_encode .reconMcu
  simp [abortedBytes, hl, he, hd]

theorem abortedBytes_run {s : State} {l : Latch} (hl : s.latch = some l)
    (hw : l.word = 0x00000007#32) (he : s.err = false) :
    abortedBytes s = writtenBytes (runBody l.rstAlign) s := by
  have hd : decode l.word = .ok .run := hw ▸ decode_encode .run
  simp [abortedBytes, hl, he, hd]

theorem abortedBytes_lt_image {s : State} {a : Nat} (h : a ∈ abortedBytes s) :
    a < 3 * s.width.toNat * s.height.toNat := by
  obtain ⟨_, l, _, ⟨_, _, hm⟩ | ⟨_, _, ⟨_, hm⟩ | ⟨m, _, _, hm⟩⟩⟩ := mem_abortedBytes h
  all_goals exact tileBytes_lt s _ a hm

/-! ## OUT after RESET -/

theorem outByte_resetCommand_of_not_mem {s : State} {a : Nat} (h : a ∉ abortedBytes s) :
    (resetCommand s).outByte a = s.outByte a :=
  congrArg (Option.getD · _) (drawOutBytes_other _ s a h)

theorem outByte_resetCommand_of_mem {s : State} {a : Nat} (h : a ∈ abortedBytes s) :
    ∃ n, s.draws ≤ n ∧ (resetCommand s).outByte a = Config.freeByte n := by
  obtain ⟨n, hn, hread⟩ := drawOutBytes_drawn _ s a h
  exact ⟨n, hn, outByte_of_memRead hread⟩

/-- A RUN that completes ends at the MCU_IDX its body leaves. -/
theorem execRun_mcuIdx {s r : State} {l : Latch} (hl : s.latch = some l) (he : s.err = false)
    (h : exec .run s = .next r) : r.mcuIdx = (runBody l.rstAlign s).state.mcuIdx := by
  rw [execRun_of_not_err he, sampledAlign_of_latch hl] at h
  rcases conclude_next h with ⟨u, hu, rfl⟩ | ⟨e, b, u, hu, rfl⟩
  · rw [hu]
    rfl
  · rw [hu]
    rfl

/-- Where a completed RUN would have written is where its body writes. -/
theorem runWrites_execRun {s r : State} {l : Latch} (hl : s.latch = some l) (he : s.err = false)
    (h : exec .run s = .next r) (a : Nat) :
    runWrites s r a ↔ runWrites s (runBody l.rstAlign s).state a := by
  unfold runWrites
  rw [execRun_mcuIdx hl he h]

/-- Settles O13: the drawn bytes are the aborted ones, and each clause says which bytes those are. -/
theorem resetAbortsCommand : Obligations.ResetAbortsCommand := by
  unfold Obligations.ResetAbortsCommand
  intro s
  refine ⟨resetCommand s, rfl, rfl, rfl, fun a ha => ?_, fun he a => ?_, fun l hl h6 h7 a => ?_,
    fun l hl hw => ⟨fun hp a => ?_, fun a ha => ?_, fun hinv he hp a ha => ?_⟩,
    fun l hl hw => ⟨fun hscan a => ?_, fun r hr => ⟨fun a ha => ?_, fun hinv he a ha => ?_⟩⟩⟩
  · exact outByte_resetCommand_of_not_mem fun hm => absurd (abortedBytes_lt_image hm) (Nat.not_lt.2 ha)
  · exact outByte_resetCommand_of_not_mem fun hm => by cases he.symm.trans (mem_abortedBytes hm).1
  · refine outByte_resetCommand_of_not_mem fun hm => ?_
    obtain ⟨_, k, hk, ⟨hw, _⟩ | ⟨hw, _⟩⟩ := mem_abortedBytes hm <;> cases hl.symm.trans hk
    · exact h6 hw
    · exact h7 hw
  · refine outByte_resetCommand_of_not_mem fun hm => ?_
    cases hp.symm.trans (mem_abortedBytes_reconMcu hl hw hm).1
  · exact outByte_resetCommand_of_not_mem fun hm => ha (mem_abortedBytes_reconMcu hl hw hm).2
  · refine outByte_resetCommand_of_mem ?_
    rw [abortedBytes_reconMcu hl hw he]
    exact writtenBytes_recon_mem s hinv.engine hp a ha
  · refine outByte_resetCommand_of_not_mem fun hm => ?_
    cases hscan.symm.trans (mem_abortedBytes_run hl hw hm).2.1
  · refine outByte_resetCommand_of_not_mem fun hm => ha ?_
    obtain ⟨he, _, hwrites⟩ := mem_abortedBytes_run hl hw hm
    exact (runWrites_execRun hl he hr a).2 hwrites
  · refine outByte_resetCommand_of_mem ?_
    rw [abortedBytes_run hl hw he]
    exact writtenBytes_run_mem _ s hinv.engine a ((runWrites_execRun hl he hr a).1 ha)

end Sys2Proof.Machine
end
